-- ==== Sys2Proof/Word.lean ====
section
/-!
DEFINITION. The words of the block (00_scope.md R9, R13): a byte, the 15-bit video address that `v` and `t` hold,
a colour, and the shapes in which memories are held (lists of an index and its content, in index order).
-/
namespace Sys2Proof

/-- 8 bits (R13). -/
abbrev Byte := BitVec 8

/-- 15 bits: the width of `v`, of `t` (R20) and of the translator's input port (20_memory.md R70). -/
abbrev VAddr := BitVec 15

/-- One pixel colour: three channels of 8 bits (10_state.md R43). -/
structure Rgb where
  r : Byte
  g : Byte
  b : Byte
deriving DecidableEq, Repr, Inhabited

/-- A byte memory: the cells that differ from what an unlisted cell reads as, in rising order of index. -/
abbrev Memory := List Host.Cell

/-- One row of the frame buffer: pixels by screen column. -/
abbrev PixelRow := List (Nat × Rgb)

/-- The frame buffer `FB[y][x]`: rows by screen row (10_state.md R43). -/
abbrev Frame := List (Nat × PixelRow)

end Sys2Proof
end

