-- ==== Sys2Proof/Machine/Store.lean ====
section
/-!
DEFINITION. Sparse memories in one canonical form: the cells in strictly rising order of index, none holding what an
unlisted cell reads as. Every memory of the block is one of these (10_state.md R36, R37, R41 to R43; the cartridge,
20_memory.md R78).
-/
namespace Sys2Proof

variable {α : Type}

/-- The content of cell `a`; `fill` is what an unlisted cell reads as. -/
def Store.read (fill : α) : List (Nat × α) → Nat → α
  | [], _ => fill
  | (k, x) :: m, a => if a = k then x else Store.read fill m a

/-- The store with `x` in cell `a`, in canonical form again: `fill` is not listed. -/
def Store.write [DecidableEq α] (fill : α) : List (Nat × α) → Nat → α → List (Nat × α)
  | [], a, x => if x = fill then [] else [(a, x)]
  | (k, y) :: m, a, x =>
    if a < k then (if x = fill then (k, y) :: m else (a, x) :: (k, y) :: m)
    else if a = k then (if x = fill then m else (a, x) :: m)
    else (k, y) :: Store.write fill m a x

/-- The canonical form, with every index in `lo ≤ index < hi`. -/
def Store.canon [DecidableEq α] (fill : α) (hi : Nat) : Nat → List (Nat × α) → Bool
  | _, [] => true
  | lo, (k, x) :: m => decide (lo ≤ k) && decide (k < hi) && decide (x ≠ fill) && Store.canon fill hi (k + 1) m

/-- What a byte that nothing has written reads as. DESIGN CHOICE (log 7): R48 leaves the launch contents open. -/
def Memory.fill : Byte := 0#8

/-- One byte of a memory. -/
def Memory.read (m : Memory) (a : Nat) : Byte := Store.read Memory.fill m a

/-- A memory with the byte `b` in cell `a`. -/
def Memory.write (m : Memory) (a : Nat) (b : Byte) : Memory := Store.write Memory.fill m a b

/-- The canonical form of a memory of `size` bytes. -/
def Memory.wf (size : Nat) (m : Memory) : Bool := Store.canon Memory.fill size 0 m

/-- The memory holding the bytes `bs` from cell `a` on. -/
def Memory.fromBytes (a : Nat) : List Byte → Memory
  | [] => []
  | b :: bs => if b = Memory.fill then Memory.fromBytes (a + 1) bs else (a, b) :: Memory.fromBytes (a + 1) bs

/-- What a pixel that nothing has written reads as. DESIGN CHOICE (log 7). -/
def Frame.fill : Rgb := ⟨0#8, 0#8, 0#8⟩

/-- The pixel of row `y` and column `x` (R43). -/
def Frame.read (f : Frame) (y x : Nat) : Rgb := Store.read Frame.fill (Store.read [] f y) x

/-- The frame buffer with the pixel `c` at row `y` and column `x` (R43). -/
def Frame.write (f : Frame) (y x : Nat) (c : Rgb) : Frame :=
  Store.write [] f y (Store.write Frame.fill (Store.read [] f y) x c)

/-- The canonical form of a frame buffer of 240 rows of 256 pixels (R9, R43). -/
def Frame.wf (f : Frame) : Bool :=
  Store.canon [] 240 0 f && f.all (fun row => Store.canon Frame.fill 256 0 row.2)

end Sys2Proof
end

