-- ==== Sys2Proof/Config.lean ====
section
/-!
DEFINITION. The configuration record `Cfg` (00_scope.md R8), fixed at RESET, and the model's one free value.
-/
namespace Sys2Proof

/-- `STANDARD` (R8): the one tabulated timing standard, or any other (fatal F2 at RESET, R321). -/
inductive Standard where
  | std0
  | other
deriving DecidableEq, Repr

/-- `MIRRORING` (R8): how the four logical nametables share the two banks (20_memory.md R72). -/
inductive Mirroring where
  | horizontal
  | vertical
  | fourScreen
deriving DecidableEq, Repr

/-- The fields of `Cfg` in the order of R8's table. -/
structure Cfg where
  standard       : Standard
  dotsPerCycle   : Nat
  extraDotPeriod : Nat
  dotsPerLine    : Nat
  visibleLines   : Nat
  /-- `V`: the length of the vblank region, also the number of the pre-render scanline. -/
  vblankLines    : Nat
  totalScanlines : Nat
  mirroring      : Mirroring
  rgbLut         : Vector Rgb 64
  regBase        : BitVec 16
  regSize        : Nat
  ctrlNtToT      : Bool
deriving DecidableEq, Repr

/-- FREE VALUE (log 9, DESIGN CHOICE): the 64 colours, OPEN in R8 and 92_eei_decisions.md D29. It has no body, so
nothing can be proved of the table that `State.reset` is launched with. -/
opaque Config.freeRgbLut : Vector Rgb 64

/-- The configuration of R8's table, for a table of colours and a mirroring mode, both of which R8 leaves to the launch. -/
def Cfg.tabulated (mirroring : Mirroring) (rgbLut : Vector Rgb 64) : Cfg where
  standard       := .std0
  dotsPerCycle   := 3
  extraDotPeriod := 0
  dotsPerLine    := 341
  visibleLines   := 240
  vblankLines    := 20
  totalScanlines := 262
  mirroring      := mirroring
  rgbLut         := rgbLut
  regBase        := 0x2000#16
  regSize        := 0x2000
  ctrlNtToT      := false

/-- The configuration `State.reset` is launched with. DESIGN CHOICE (log 10): R8 leaves the mirroring mode to the
launch, and Horizontal is taken. -/
def Cfg.default : Cfg := Cfg.tabulated .horizontal Config.freeRgbLut

end Sys2Proof
end

