-- ==== Sys2Proof/Syntax.lean ====
section
/-!
DEFINITION. The operations of the block: one constructor of `Instr` per row of spec/opcode_table.json, and what the host
hands over when it issues one (30_encoding.md R110, R111).
-/
namespace Sys2Proof

/-- The operand of RESET (70_reset_and_hazards.md R320): the configuration and the launch contents of the memories and of
the cartridge. -/
structure Launch where
  cfg         : Cfg
  oam         : Memory
  nt          : Memory
  pal         : Memory
  fb          : Frame
  chr         : Memory
  chrWritable : Bool
deriving DecidableEq, Repr

/-- The launch of `State.reset`. DESIGN CHOICE (logs 7, 8): R48 and R78 leave these contents to the launch, and every
byte is 0, every pixel (0, 0, 0), the pattern memory not writable. -/
def Launch.default : Launch where
  cfg         := Cfg.default
  oam         := []
  nt          := []
  pal         := []
  fb          := []
  chr         := []
  chrWritable := false

/-- The operations. A bus write carries its data byte `D` (R110), RESET and OAMDMA their operands (R111), and a sequencer
micro-operation the bits of its word that the table leaves open: `p` the low phase bit, `d` bits of the dot (R112). -/
inductive Instr where
  -- BUS
  | wrControl (data : Byte)
  | wrMask (data : Byte)
  | rdStatus
  | wrOamaddr (data : Byte)
  | rdOamdata
  | wrOamdata (data : Byte)
  | wrScroll1 (data : Byte)
  | wrScroll2 (data : Byte)
  | wrAddr1 (data : Byte)
  | wrAddr2 (data : Byte)
  | rdData
  | wrData (data : Byte)
  -- BUS, wrong direction
  | rdControl
  | rdMask
  | wrStatus (data : Byte)
  | rdOamaddr
  | rdScroll
  | rdAddr
  -- HOST
  | reset (launch : Launch)
  | dot
  | cycle
  | oamdma (bytes : List Byte)
  | nmipoll
  -- SEQ
  | vblSet
  | flagsClr
  | pixel (d : BitVec 9)
  | fetchNt (p : BitVec 1) (d : BitVec 6)
  | fetchAt (p : BitVec 1) (d : BitVec 6)
  | fetchLo (p : BitVec 1) (d : BitVec 6)
  | fetchHi (p : BitVec 1) (d : BitVec 6)
  | loadIncx (p : BitVec 1) (d : BitVec 6)
  | incY (p : BitVec 1)
  | sprEval (p : BitVec 1)
  | copyH (p : BitVec 1)
  | copyV (d : BitVec 9)
  | frameDone
  | idle (p : BitVec 2) (d : BitVec 9)
deriving DecidableEq, Repr

/-- The operand of a HOST operation (R111): none, the launch of RESET, or the byte list of OAMDMA. -/
inductive HostArg where
  | none
  | launch (launch : Launch)
  | bytes (bytes : List Byte)
deriving DecidableEq, Repr

/-- One operation as the host issues it: a bus transaction `(rw, A, D)` (R110; `write` is `rw = 1`), or a HOST code with
its operand (R111). The host issues no SEQ word: the sequencer position selects those (R112). -/
inductive Request where
  | bus (write : Bool) (addr : BitVec 16) (data : Byte)
  | host (code : BitVec 3) (arg : HostArg)
deriving DecidableEq, Repr

/-- One encoded operation: the decode word of its format (R110, R111, R112) and the operand that stands beside it. -/
inductive Encoded where
  | bus (word : BitVec 5) (data : Byte)
  | host (code : BitVec 3) (arg : HostArg)
  | seq (word : BitVec 11)
deriving DecidableEq, Repr

end Sys2Proof
end

