-- ==== Sys2Proof/WellFormed.lean ====
section
/-!
DEFINITION. Well-formed operations: the launches RESET accepts as a launch at all (70_reset_and_hazards.md R321) and the
positions at which a sequencer micro-operation can stand (30_encoding.md R112, R114).
-/
namespace Sys2Proof

/-- The numbers of a configuration (R321): the three conditions R321 names, and the two sizes that the rules print as
literals and R9 fixes (R27, R182: 341 dots; R43: 240 rows; log 11). -/
def Cfg.wf (c : Cfg) : Bool :=
  decide (c.vblankLines + 1 + c.visibleLines < c.totalScanlines) && decide (1 ≤ c.dotsPerCycle) &&
  decide (c.regBase.toNat % 8 = 0) && decide (c.dotsPerLine = 341) && decide (c.visibleLines = 240)

/-- A configuration the hardware supports (R321): the tabulated timing standard, and not four-screen mirroring. -/
def Cfg.supported (c : Cfg) : Bool :=
  decide (c.standard = .std0) && decide (c.mirroring ≠ .fourScreen)

/-- The launch contents: memories of the sizes of R36, R41, R42, R43 and R78, in canonical form. -/
def Launch.contentsWf (l : Launch) : Bool :=
  Memory.wf 256 l.oam && Memory.wf 2048 l.nt && Memory.wf 32 l.pal && Frame.wf l.fb && Memory.wf 8192 l.chr

/-- A well-formed launch (R321, log 11). -/
def Launch.wf (l : Launch) : Bool := l.cfg.wf && l.contentsWf

/-- The dot numbers of a scanline (R112: "`dot`, 0..340"). -/
def dotExists (dot : Nat) : Bool := decide (dot ≤ 340)

/-- The dots at which a visible scanline composites a pixel (R114: 1..256). -/
def pixelDot (dot : Nat) : Bool := decide (1 ≤ dot) && decide (dot ≤ 256)

/-- The dots of the fetch groups (R114: 1..256 and 321..336). -/
def fetchDot (dot : Nat) : Bool := pixelDot dot || (decide (321 ≤ dot) && decide (dot ≤ 336))

/-- The dots of the vertical copy (R114: 280..304). -/
def copyVDot (dot : Nat) : Bool := decide (280 ≤ dot) && decide (dot ≤ 304)

/-- The dot that six open bits and the fixed low three bits of a fetch row name (R112: `dot mod 8` is `dot[2:0]`). -/
def groupDot (d : BitVec 6) (low : BitVec 3) : Nat := (d ++ low).toNat

/-- Well-formed operations. Every bus operation is; OAMDMA too, whatever the length of its list (R156 makes a wrong length
a fatal, not an ill-formed operation). A sequencer micro-operation stands at one of its row's dots (R114); IDLE nowhere
that PIXEL or FLAGS_CLR always occupies (R128). -/
def Instr.wf : Instr → Bool
  | .wrControl _ | .wrMask _ | .rdStatus | .wrOamaddr _ | .rdOamdata | .wrOamdata _ => true
  | .wrScroll1 _ | .wrScroll2 _ | .wrAddr1 _ | .wrAddr2 _ | .rdData | .wrData _ => true
  | .rdControl | .rdMask | .wrStatus _ | .rdOamaddr | .rdScroll | .rdAddr => true
  | .reset l => l.wf
  | .dot | .cycle | .oamdma _ | .nmipoll => true
  | .vblSet | .flagsClr | .frameDone => true
  | .pixel d => pixelDot d.toNat
  | .fetchNt _ d => fetchDot (groupDot d 1#3)
  | .fetchAt _ d => fetchDot (groupDot d 3#3)
  | .fetchLo _ d => fetchDot (groupDot d 5#3)
  | .fetchHi _ d => fetchDot (groupDot d 7#3)
  | .loadIncx _ d => fetchDot (groupDot d 0#3)
  | .incY _ | .sprEval _ | .copyH _ => true
  | .copyV d => copyVDot d.toNat
  | .idle p d =>
    dotExists d.toNat && !(decide (p = 3#2) && pixelDot d.toNat) && !(decide (p = 2#2) && decide (d = 1#9))

end Sys2Proof
end

