-- ==== Sys2Proof/Decode.lean ====
section
/-!
DEFINITION. Decoding and encoding of the three formats (30_encoding.md R110 to R116; spec/opcode_table.json). The decoder
is total and rejects by name; the encoder writes the word of an operation from the same tables.
-/
namespace Sys2Proof

/-- Why a decoder rejects. -/
inductive DecodeError where
  /-- no row of the BUS map (R113): no word is left over, see `decodeBus_total` -/
  | unassignedBusWord
  /-- HOST codes 5, 6, 7 (R111: "a model refuses them") -/
  | unassignedHostCode
  /-- a HOST code with an operand of another kind than R111 gives it (log 16) -/
  | operandMismatch
  /-- a SEQ word whose dot is above 340 (R112) -/
  | dotOutOfRange
deriving DecidableEq, Repr

/-! ### Format BUS -/

/-- A row of the BUS map (R113): it matches a word when `word & mask = pattern`. -/
structure BusRow where
  mask    : BitVec 5
  pattern : BitVec 5
  make    : Byte → Instr

/-- The BUS rows in the order of spec/opcode_table.json. Bit 4 of the word is the latch `w`, bit 3 is `rw`, bits 2:0 are
the slot `rs` (R110); `w` is a mode bit of slots 5 and 6 only (R116). -/
def busTable : List BusRow :=
  [ ⟨0x0F#5, 0x08#5, .wrControl⟩,
    ⟨0x0F#5, 0x09#5, .wrMask⟩,
    ⟨0x0F#5, 0x02#5, fun _ => .rdStatus⟩,
    ⟨0x0F#5, 0x0B#5, .wrOamaddr⟩,
    ⟨0x0F#5, 0x04#5, fun _ => .rdOamdata⟩,
    ⟨0x0F#5, 0x0C#5, .wrOamdata⟩,
    ⟨0x1F#5, 0x0D#5, .wrScroll1⟩,
    ⟨0x1F#5, 0x1D#5, .wrScroll2⟩,
    ⟨0x1F#5, 0x0E#5, .wrAddr1⟩,
    ⟨0x1F#5, 0x1E#5, .wrAddr2⟩,
    ⟨0x0F#5, 0x07#5, fun _ => .rdData⟩,
    ⟨0x0F#5, 0x0F#5, .wrData⟩ ] ++
  [ ⟨0x0F#5, 0x00#5, fun _ => .rdControl⟩,
    ⟨0x0F#5, 0x01#5, fun _ => .rdMask⟩,
    ⟨0x0F#5, 0x0A#5, .wrStatus⟩,
    ⟨0x0F#5, 0x03#5, fun _ => .rdOamaddr⟩,
    ⟨0x0F#5, 0x05#5, fun _ => .rdScroll⟩,
    ⟨0x0F#5, 0x06#5, fun _ => .rdAddr⟩ ]

/-- The operation of a BUS word and its data byte (R110, R113). -/
def decodeBus (word : BitVec 5) (data : Byte) : Except DecodeError Instr :=
  match busTable.find? (fun r => word &&& r.mask == r.pattern) with
  | some r => .ok (r.make data)
  | none => .error .unassignedBusWord

/-- The BUS word of a transaction (R110): the current value of the latch, the direction, and `rs = A[2:0]` (20_memory.md
R79). -/
def busWord (w write : Bool) (addr : BitVec 16) : BitVec 5 :=
  BitVec.ofBool w ++ BitVec.ofBool write ++ addr.extractLsb' 0 3

/-! ### Format HOST -/

/-- The operation of a HOST code and its operand (R111). -/
def decodeHost (code : BitVec 3) (arg : HostArg) : Except DecodeError Instr :=
  match code.toNat, arg with
  | 0, .launch l => .ok (.reset l)
  | 1, .none => .ok .dot
  | 2, .none => .ok .cycle
  | 3, .bytes bs => .ok (.oamdma bs)
  | 4, .none => .ok .nmipoll
  | n, _ => if 5 ≤ n then .error .unassignedHostCode else .error .operandMismatch

/-! ### Format SEQ -/

/-- A row of the SEQ map (R114): it matches when `word & mask = pattern` and the dot is one of `dots`, on the first
scanline of the phase if `firstLineOnly`, with rendering enabled if `needsRendering` (R112). -/
structure SeqRow where
  mask           : BitVec 11
  pattern        : BitVec 11
  dots           : Nat → Bool
  firstLineOnly  : Bool
  needsRendering : Bool
  make           : BitVec 11 → Instr

/-- The dot of a SEQ word: bits 8:0 (R112). -/
def seqDot (word : BitVec 11) : Nat := (word.extractLsb' 0 9).toNat

/-- Bit 9 of a SEQ word, the low bit of the phase: `p` of a row that the two rendering phases share (R112). -/
def seqP (word : BitVec 11) : BitVec 1 := word.extractLsb' 9 1

/-- Bits 8:3 of a SEQ word: `d` of a fetch row. -/
def seqGroup (word : BitVec 11) : BitVec 6 := word.extractLsb' 3 6

/-- The SEQ rows but IDLE, in their `order` (R112, 41_dot_driver.md R185); phase codes 0 Vblank, 1 PostRender,
2 PreRender, 3 VisibleRender (R112). -/
def seqTable : List SeqRow :=
  [ ⟨0x7FF#11, 0x001#11, (· == 1), true, false, fun _ => .vblSet⟩,
    ⟨0x7FF#11, 0x401#11, (· == 1), false, false, fun _ => .flagsClr⟩,
    ⟨0x600#11, 0x600#11, pixelDot, false, false, fun w => .pixel (w.extractLsb' 0 9)⟩,
    ⟨0x407#11, 0x401#11, fetchDot, false, true, fun w => .fetchNt (seqP w) (seqGroup w)⟩,
    ⟨0x407#11, 0x403#11, fetchDot, false, true, fun w => .fetchAt (seqP w) (seqGroup w)⟩,
    ⟨0x407#11, 0x405#11, fetchDot, false, true, fun w => .fetchLo (seqP w) (seqGroup w)⟩,
    ⟨0x407#11, 0x407#11, fetchDot, false, true, fun w => .fetchHi (seqP w) (seqGroup w)⟩,
    ⟨0x407#11, 0x400#11, fetchDot, false, true, fun w => .loadIncx (seqP w) (seqGroup w)⟩ ] ++
  [ ⟨0x5FF#11, 0x500#11, (· == 256), false, true, fun w => .incY (seqP w)⟩,
    ⟨0x5FF#11, 0x500#11, (· == 256), false, true, fun w => .sprEval (seqP w)⟩,
    ⟨0x5FF#11, 0x501#11, (· == 257), false, true, fun w => .copyH (seqP w)⟩,
    ⟨0x600#11, 0x400#11, copyVDot, false, true, fun w => .copyV (w.extractLsb' 0 9)⟩,
    ⟨0x7FF#11, 0x200#11, (· == 0), true, false, fun _ => .frameDone⟩ ]

/-- A row fires on a word under the two side conditions (R112). -/
def SeqRow.fires (r : SeqRow) (word : BitVec 11) (firstLine rendering : Bool) : Bool :=
  (word &&& r.mask == r.pattern) && r.dots (seqDot word) && (!r.firstLineOnly || firstLine) &&
  (!r.needsRendering || rendering)

/-- The micro-operations of a SEQ word, in order: every row that fires, or IDLE where none does (R112, R114, R128). -/
def decodeSeq (word : BitVec 11) (firstLine rendering : Bool) : Except DecodeError (List Instr) :=
  if dotExists (seqDot word) then
    match (seqTable.filter (fun r => r.fires word firstLine rendering)).map (fun r => r.make word) with
    | [] => .ok [.idle (word.extractLsb' 9 2) (word.extractLsb' 0 9)]
    | ops => .ok ops
  else .error .dotOutOfRange

/-- The operations of an encoded operation; `firstLine` and `rendering` are the side conditions of a SEQ word (R112). -/
def decode (e : Encoded) (firstLine rendering : Bool) : Except DecodeError (List Instr) :=
  match e with
  | .bus word data => (decodeBus word data).map (fun i => [i])
  | .host code arg => (decodeHost code arg).map (fun i => [i])
  | .seq word => decodeSeq word firstLine rendering

/-! ### The encoder -/

/-- The word of an operation, and its operand: from the `match` column of the table, the bits it leaves open taken from
the operation's operands, `w` as 0 where the row leaves it open (R110). -/
def encode : Instr → Encoded
  | .wrControl d => .bus 0x08#5 d
  | .wrMask d => .bus 0x09#5 d
  | .rdStatus => .bus 0x02#5 0#8
  | .wrOamaddr d => .bus 0x0B#5 d
  | .rdOamdata => .bus 0x04#5 0#8
  | .wrOamdata d => .bus 0x0C#5 d
  | .wrScroll1 d => .bus 0x0D#5 d
  | .wrScroll2 d => .bus 0x1D#5 d
  | .wrAddr1 d => .bus 0x0E#5 d
  | .wrAddr2 d => .bus 0x1E#5 d
  | .rdData => .bus 0x07#5 0#8
  | .wrData d => .bus 0x0F#5 d
  | .rdControl => .bus 0x00#5 0#8
  | .rdMask => .bus 0x01#5 0#8
  | .wrStatus d => .bus 0x0A#5 d
  | .rdOamaddr => .bus 0x03#5 0#8
  | .rdScroll => .bus 0x05#5 0#8
  | .rdAddr => .bus 0x06#5 0#8
  | .reset l => .host 0#3 (.launch l)
  | .dot => .host 1#3 .none
  | .cycle => .host 2#3 .none
  | .oamdma bs => .host 3#3 (.bytes bs)
  | .nmipoll => .host 4#3 .none
  | .vblSet => .seq 0x001#11
  | .flagsClr => .seq 0x401#11
  | .pixel d => .seq (3#2 ++ d)
  | .fetchNt p d => .seq (1#1 ++ p ++ d ++ 1#3)
  | .fetchAt p d => .seq (1#1 ++ p ++ d ++ 3#3)
  | .fetchLo p d => .seq (1#1 ++ p ++ d ++ 5#3)
  | .fetchHi p d => .seq (1#1 ++ p ++ d ++ 7#3)
  | .loadIncx p d => .seq (1#1 ++ p ++ d ++ 0#3)
  | .incY p => .seq (1#1 ++ p ++ 256#9)
  | .sprEval p => .seq (1#1 ++ p ++ 256#9)
  | .copyH p => .seq (1#1 ++ p ++ 257#9)
  | .copyV d => .seq (2#2 ++ d)
  | .frameDone => .seq 0x200#11
  | .idle p d => .seq (p ++ d)

/-- The micro-operations that fire on the first scanline of their phase only (R114). -/
def Instr.firstLineOnly : Instr → Bool
  | .vblSet | .frameDone => true
  | _ => false

/-- The micro-operations that fire with rendering enabled only (R114, 41_dot_driver.md R183). -/
def Instr.needsRendering : Instr → Bool
  | .fetchNt _ _ | .fetchAt _ _ | .fetchLo _ _ | .fetchHi _ _ | .loadIncx _ _ => true
  | .incY _ | .sprEval _ | .copyH _ | .copyV _ => true
  | _ => false

/-! ### One word of the opcode table -/

/-- The operand of a HOST code whose operand words are all zero: the default launch, 256 zero bytes, none. -/
def zeroArg (code : BitVec 3) : HostArg :=
  match code.toNat with
  | 0 => .launch Launch.default
  | 3 => .bytes (List.replicate 256 0#8)
  | _ => .none

/-- The encoded operation of a table word given its number of bits (DESIGN CHOICE, log 14). The table's HOST words have 3
bits, its BUS words 5 and its SEQ words 11; rounded up to whole bytes HOST and BUS both come as 8 bits, and then 0 to 4
are read as the HOST codes (the BUS words that share them still come with bit 4, the latch, set). -/
def tableWord (nbits w : Nat) : Option Encoded :=
  if nbits ≤ 3 ∨ (nbits = 8 ∧ w < 5) then
    if w < 8 then some (.host (BitVec.ofNat 3 w) (zeroArg (BitVec.ofNat 3 w))) else none
  else if nbits ≤ 8 then
    if w < 32 then some (.bus (BitVec.ofNat 5 w) 0#8) else none
  else if w < 2048 then some (.seq (BitVec.ofNat 11 w)) else none

/-- How many bits a row of the SEQ map fixes. -/
def SeqRow.fixedBits (r : SeqRow) : Nat := (List.range 11).countP (fun i => r.mask.getLsbD i)

/-- Of the rows that can fire on a SEQ word, the one that fixes the most bits, the first of equals (log 14): a SEQ word
names several micro-operations (R112), and a table word is asked for one. -/
def selectRow (word : BitVec 11) : Option SeqRow :=
  (seqTable.filter (fun r => r.fires word true true)).foldl
    (fun best r => match best with
      | none => some r
      | some b => if b.fixedBits < r.fixedBits then some r else some b) none

/-- The one operation of a SEQ word for a table word: the selected row's, or IDLE's at a dot that exists. -/
def selectSeq (word : BitVec 11) : Option Instr :=
  match selectRow word with
  | some r => some (r.make word)
  | none =>
    if dotExists (seqDot word) then some (.idle (word.extractLsb' 9 2) (word.extractLsb' 0 9)) else none

/-- The operation the decoder reads from a table word, its bits numbered as spec/opcode_table.json numbers them. -/
def decodeTableWord (nbits w : Nat) : Option Instr :=
  match tableWord nbits w with
  | some (.bus word data) => (decodeBus word data).toOption
  | some (.host code arg) => (decodeHost code arg).toOption
  | some (.seq word) => selectSeq word
  | none => none

end Sys2Proof
end

