-- ==== Sys2Proof/Machine/State.lean ====
section
/-!
DEFINITION. The state of the machine (10_state.md R20 to R48), the reasons a step can stop, and the state after reset.
-/
namespace Sys2Proof.Machine

/-- The fatal codes (60_exceptions.md R291 to R294). A fatal is no `Fault` of this file: the block takes it, by setting
`halted` and `fault_code` (R290), and goes to a next state. -/
inductive FaultCode where
  /-- F1, protocol violation (R291) -/
  | f1
  /-- F2, unsupported feature (R292) -/
  | f2
  /-- F3, malformed bulk transfer (R293) -/
  | f3
  /-- F4, translator invariant failure (R294) -/
  | f4
deriving DecidableEq, Repr

/-- Why the model stops where the spec gives the hardware no place to act. None is reached from a state that meets
`State.Inv` by a step: all are safe. -/
inductive Fault where
  /-- Raised by DOT and CYCLE at a pair (scanline, dot) outside the counters' ranges (10_state.md R27; log 15). Safe. -/
  | noSuchPosition
  /-- Raised by PIXEL at a dot or scanline with no pixel of the screen (10_state.md R43, R260; log 13). Safe. -/
  | noScreenCell
  /-- Raised by SPR_EVAL on a scanline with no target row (43_sprite_evaluator.md R241; log 13). Safe. -/
  | noTargetRow
deriving DecidableEq, Repr

/-- Why the model refuses an operation. All are safe. -/
inductive Refusal where
  /-- An instruction without a meaning, by its mnemonic: raised by `exec`'s arms only. Safe. -/
  | notModelled (mnemonic : String)
  /-- Raised by `step`: the host's request does not decode (30_encoding.md R111 "a model refuses them"; log 16). Safe. -/
  | undecodable (e : DecodeError)
  /-- Raised by RESET: an ill-formed launch (70_reset_and_hazards.md R321 "the model also refuses"; log 11). Safe. -/
  | illFormedLaunch
  /-- Raised by the sequencer if it were handed an operation of another format; it never is. Safe. -/
  | notMicroOperation
deriving DecidableEq, Repr

/-- What an operation returns to the host (40_register_port.md R144, R146, R153, R158): nothing, a byte, or one bit. -/
inductive Reply where
  | none
  | byte (b : Byte)
  | bit (b : Bool)
deriving DecidableEq, Repr

/-- The state. Field names are the spec's; the last three fields are the model's own (logs 1, 2, 3). -/
structure State where
  /-- the configuration of the run (00_scope.md R8), written by RESET only -/
  cfg : Cfg
  /-- current address (R21) -/
  v : VAddr
  /-- temporary address (R22) -/
  t : VAddr
  /-- fine-X scroll (R23) -/
  x : BitVec 3
  /-- write-toggle latch (R24): true is a pending second write -/
  w : Bool
  /-- sequencer position (R27) -/
  scanline : Nat
  dot : Nat
  /-- extra-dot modulus counter (R28) -/
  cycMod : Nat
  /-- status flags (R29) -/
  vblank : Bool
  sprite0Hit : Bool
  spriteOverflow : Bool
  /-- NMI-pending signal (R30) -/
  nmiPending : Bool
  /-- Control register (R32) -/
  ctrl : Byte
  /-- Mask register (R33) -/
  mask : Byte
  /-- OAM Address register, the cursor (R35) -/
  oamaddr : Byte
  /-- primary sprite table, 256 bytes (R36) -/
  oam : Memory
  /-- secondary sprite table, 32 bytes (R37) -/
  sec : Memory
  slot0IsSprite0 : Bool
  /-- background shift buffer (R38) -/
  bgbuf : BitVec 64
  /-- fetch latches (R39) -/
  ntLatch : Byte
  atLatch : BitVec 4
  ptLo : Byte
  ptHi : Byte
  /-- Data-register read buffer (R40) -/
  rbuf : Byte
  /-- nametable RAM, 2048 bytes (R41) -/
  nt : Memory
  /-- palette RAM, 32 bytes (R42) -/
  pal : Memory
  /-- frame buffer (R43) -/
  fb : Frame
  /-- the cartridge's pattern data, 8192 bytes, and whether it stores a write (20_memory.md R78) -/
  chr : Memory
  chrWritable : Bool
  /-- the halt (R45) -/
  halted : Bool
  /-- its code (R45), and `none` while not halted: DESIGN CHOICE (log 19), R45 gives the code's values only "when set" -/
  faultCode : Option FaultCode
  /-- MODEL: what the last operation returned (log 2) -/
  reply : Reply
  /-- MODEL: the FrameDone events emitted, newest first (R300; log 3) -/
  frames : List Frame
  /-- MODEL: the host's operations not yet performed, in issue order (R12; log 1) -/
  pending : List Request
deriving DecidableEq, Repr

/-- The launch state (R320, R322): every piece of state at the reset value of R48, the launch contents filled in, no
operation issued and none performed. R48 lists no reset value for `fault_code`: DESIGN CHOICE (log 19), it holds none. -/
def State.launch (l : Launch) : State where
  cfg := l.cfg
  v := 0#15
  t := 0#15
  x := 0#3
  w := false
  scanline := 0
  dot := 0
  cycMod := 0
  vblank := false
  sprite0Hit := false
  spriteOverflow := false
  nmiPending := false
  ctrl := 0x00#8
  mask := 0x00#8
  oamaddr := 0x00#8
  oam := l.oam
  sec := Memory.fromBytes 0 (List.replicate 32 0xFF#8)
  slot0IsSprite0 := false
  bgbuf := 0#64
  ntLatch := 0#8
  atLatch := 0#4
  ptLo := 0#8
  ptHi := 0#8
  rbuf := 0x00#8
  nt := l.nt
  pal := l.pal
  fb := l.fb
  chr := l.chr
  chrWritable := l.chrWritable
  halted := false
  faultCode := none
  reply := .none
  frames := []
  pending := []

/-- The machine right after reset (R48), launched with `Launch.default` (logs 7, 8, 9, 10). -/
def State.reset : State := State.launch Launch.default

end Sys2Proof.Machine
end

