-- ==== Sys2Proof/Machine/Operands.lean ====
section
/-!
DEFINITION. Operand forms: the fields of video addresses, register bytes, sprite entries and pattern bytes, and the
addresses and words that the operations assemble from them (30_encoding.md R117 to R125; 42_background_fetch.md).
-/
namespace Sys2Proof.Machine

/-- `r` with the bits from `lo` upward replaced by the field `f` (R13: `r[hi:lo] <- f`). -/
def putField {n k : Nat} (r : BitVec n) (lo : Nat) (f : BitVec k) : BitVec n :=
  (r &&& ~~~((BitVec.allOnes k).setWidth n <<< lo)) ||| (f.setWidth n <<< lo)

/-! ### Video addresses (10_state.md R25) -/

def coarseX (a : VAddr) : BitVec 5 := a.extractLsb' 0 5
def coarseY (a : VAddr) : BitVec 5 := a.extractLsb' 5 5
def ntX (a : VAddr) : BitVec 1 := a.extractLsb' 10 1
def ntY (a : VAddr) : BitVec 1 := a.extractLsb' 11 1
def fineY (a : VAddr) : BitVec 3 := a.extractLsb' 12 3

def withCoarseX (a : VAddr) (f : BitVec 5) : VAddr := putField a 0 f
def withCoarseY (a : VAddr) (f : BitVec 5) : VAddr := putField a 5 f
def withNtX (a : VAddr) (f : BitVec 1) : VAddr := putField a 10 f
def withNtY (a : VAddr) (f : BitVec 1) : VAddr := putField a 11 f
def withFineY (a : VAddr) (f : BitVec 3) : VAddr := putField a 12 f

/-! ### The two-part writes (R124) -/

/-- WR_SCROLL.1: `x <- D[2:0]`. -/
def scroll1X (d : Byte) : BitVec 3 := d.extractLsb' 0 3

/-- WR_SCROLL.1: `t[4:0] <- D[7:3]`. -/
def scroll1T (t : VAddr) (d : Byte) : VAddr := withCoarseX t (d.extractLsb' 3 5)

/-- WR_SCROLL.2: `t[14:12] <- D[2:0]`, `t[9:5] <- D[7:3]`. -/
def scroll2T (t : VAddr) (d : Byte) : VAddr := withCoarseY (withFineY t (d.extractLsb' 0 3)) (d.extractLsb' 3 5)

/-- WR_ADDR.1: `t[13:8] <- D[5:0]`, `t[14] <- 0`. -/
def addr1T (t : VAddr) (d : Byte) : VAddr := putField (putField t 8 (d.extractLsb' 0 6)) 14 0#1

/-- WR_ADDR.2: `t[7:0] <- D`. -/
def addr2T (t : VAddr) (d : Byte) : VAddr := putField t 0 d

/-! ### Control and Mask (10_state.md R32, R33) -/

def ctrlNmiEnable (c : Byte) : Bool := c.getLsbD 7
def ctrlSpriteSize (c : Byte) : Bool := c.getLsbD 5
def ctrlIncMode (c : Byte) : Bool := c.getLsbD 2

/-- `bg_base` (R213), from Control bit 4. -/
def bgBase (c : Byte) : VAddr := if c.getLsbD 4 then 0x1000#15 else 0x0000#15

/-- `base` of R263, the sprite-table select, from Control bit 3. -/
def spriteBase (c : Byte) : VAddr := if c.getLsbD 3 then 0x1000#15 else 0x0000#15

/-- `t[11:10] <- D[1:0]`, performed by WR_CONTROL under `Cfg.CTRL_NT_TO_T` only (R141). -/
def ctrlT (c : Cfg) (t : VAddr) (d : Byte) : VAddr := if c.ctrlNtToT then putField t 10 (d.extractLsb' 0 2) else t

def maskSprEnable (m : Byte) : Bool := m.getLsbD 4
def maskBgEnable (m : Byte) : Bool := m.getLsbD 3

/-- `spr_clip` (R33). -/
def sprClip (m : Byte) : Bool := !m.getLsbD 2

/-- `bg_clip` (R33). -/
def bgClip (m : Byte) : Bool := !m.getLsbD 1

/-- The Data auto-increment (40_register_port.md R155). -/
def dataIncrement (ctrl : Byte) (v : VAddr) : VAddr := v + (if ctrlIncMode ctrl then 32#15 else 1#15)

/-- The address of the Data port (R153, R154): `v & 0x3FFF`. -/
def dataAddress (v : VAddr) : VAddr := v &&& 0x3FFF#15

/-! ### The background fetches (R125) -/

/-- FETCH_NT's address (R214). -/
def ntAddress (v : VAddr) : VAddr := 0x2000#15 ||| (v &&& 0x0FFF#15)

/-- FETCH_AT's address (R215). -/
def atAddress (v : VAddr) : VAddr :=
  0x23C0#15 ||| (v &&& 0x0C00#15) ||| ((v >>> 4) &&& 0x38#15) ||| ((v >>> 2) &&& 0x07#15)

/-- FETCH_AT's quadrant shift: 0, 2, 4 or 6 (R215). -/
def atShift (v : VAddr) : Nat := (((v >>> 4) &&& 0x04#15) ||| (v &&& 0x02#15)).toNat

/-- FETCH_AT's latch value: the selected 2-bit index, shifted left by 2 (R215). -/
def atValue (v : VAddr) (b : Byte) : BitVec 4 := (b >>> atShift v).setWidth 2 ++ 0#2

/-- The address of row `row` of a tile's plane 0 (R121): `base + 16 * tile + row`. -/
def patternAddress (base : VAddr) (tile : Byte) (row : VAddr) : VAddr := base + 16#15 * tile.setWidth 15 + row

/-- FETCH_LO's address (R216); FETCH_HI's is 8 higher (R217). -/
def bgPatternAddress (ctrl : Byte) (ntLatch : Byte) (v : VAddr) : VAddr :=
  patternAddress (bgBase ctrl) ntLatch ((fineY v).setWidth 15)

/-- The nibble of pattern bit `b` (R122, R218): `at_latch | (pt_hi[b] << 1) | pt_lo[b]`. -/
def packNibble (at_ : BitVec 4) (lo hi : Byte) (b : Nat) : BitVec 4 :=
  at_ ||| ((BitVec.ofBool (hi.getLsbD b)).setWidth 4 <<< 1) ||| (BitVec.ofBool (lo.getLsbD b)).setWidth 4

/-- The group of eight nibbles of LOAD_INCX, pixel `j` from bit `7 - j` (R218, R225). -/
def packGroup (at_ : BitVec 4) (lo hi : Byte) : BitVec 32 :=
  (List.range 8).foldl (fun g j => (g <<< 4) ||| (packNibble at_ lo hi (7 - j)).setWidth 32) 0#32

/-- LOAD_INCX's merge into the shift buffer (R218). -/
def mergeGroup (buf : BitVec 64) (g : BitVec 32) : BitVec 64 := (buf <<< 32) ||| g.setWidth 64

/-! ### The scroll arithmetic -/

/-- `IncX(v)` (R219). -/
def incX (v : VAddr) : VAddr :=
  if coarseX v = 31#5 then withNtX (withCoarseX v 0#5) (~~~ntX v)
  else withCoarseX v (coarseX v + 1#5)

/-- INC_Y's new `v` (R221). -/
def incYAddr (v : VAddr) : VAddr :=
  if (fineY v).toNat < 7 then withFineY v (fineY v + 1#3)
  else
    let v0 := withFineY v 0#3
    if coarseY v = 29#5 then withNtY (withCoarseY v0 0#5) (~~~ntY v)
    else if coarseY v = 31#5 then withCoarseY v0 0#5
    else withCoarseY v0 (coarseY v + 1#5)

/-- COPY_H's new `v` (R222). -/
def copyHAddr (v t : VAddr) : VAddr := (v &&& ~~~0x041F#15) ||| (t &&& 0x041F#15)

/-- COPY_V's new `v` (R223). -/
def copyVAddr (v t : VAddr) : VAddr := (v &&& ~~~0x7BE0#15) ||| (t &&& 0x7BE0#15)

/-! ### Sprite entries and pixels -/

/-- Fields of the attribute byte of a sprite entry (R119). -/
def attrVflip (a : Byte) : Bool := a.getLsbD 7
def attrHflip (a : Byte) : Bool := a.getLsbD 6
def attrBehind (a : Byte) : Bool := a.getLsbD 5
def attrPalette (a : Byte) : BitVec 2 := a.extractLsb' 0 2

/-- `InRange(T, b)` (43_sprite_evaluator.md R242): `0 <= T - b < 8` over the integers. -/
def inRange (row : Nat) (b : Byte) : Bool := decide (b.toNat ≤ row) && decide (row < b.toNat + 8)

/-- A row or column of a tile, reversed under its flip bit (R263). -/
def flipped (flip : Bool) (k : Nat) : Nat := if flip then 7 - k else k

/-- The colour index of column `c` of two plane bytes (R121, R263): `hi[7 - c] ++ lo[7 - c]`. -/
def planeColour (lo hi : Byte) (c : Nat) : BitVec 2 :=
  BitVec.ofBool (hi.getLsbD (7 - c)) ++ BitVec.ofBool (lo.getLsbD (7 - c))

/-- The address of a palette index (R122): `0x3F00 | idx`. -/
def paletteAddress (idx : BitVec 5) : VAddr := 0x3F00#15 ||| idx.setWidth 15

end Sys2Proof.Machine
end

