-- ==== Sys2Proof/Machine/Flags.lean ====
section
/-!
DEFINITION. The flags: the Status byte (10_state.md R34), the NMI conditions (40_register_port.md R141, 41_dot_driver.md
R186), the rendering condition (R183), and the sprite-0 hit (44_pixel_compositor.md R266).
-/
namespace Sys2Proof.Machine

/-- The byte of a Status read (R34): `vblank ++ sprite0_hit ++ sprite_overflow ++ 0b00000`. -/
def statusByte (vblank sprite0Hit spriteOverflow : Bool) : Byte :=
  BitVec.ofBool vblank ++ BitVec.ofBool sprite0Hit ++ BitVec.ofBool spriteOverflow ++ 0b00000#5

/-- `rendering_enabled` (R183): background or sprites enabled in Mask. -/
def renderingEnabled (mask : Byte) : Bool := maskBgEnable mask || maskSprEnable mask

/-- `nmi_pending` after WR_CONTROL (R141): raised when the enable goes from 0 to 1 while the `vblank` flag is 1, else
as it was. -/
def nmiAfterControl (pending vblank : Bool) (old new : Byte) : Bool :=
  pending || (!ctrlNmiEnable old && ctrlNmiEnable new && vblank)

/-- `nmi_pending` after VBL_SET (R186): raised when the enable is 1, else as it was. -/
def nmiAfterVblank (pending : Bool) (ctrl : Byte) : Bool := pending || ctrlNmiEnable ctrl

/-- `sprite0_hit` after a pixel with an opaque background and an opaque sprite pixel of slot `k` (R266). -/
def hitAfter (hit : Bool) (k : Nat) (slot0IsSprite0 : Bool) : Bool := hit || (decide (k = 0) && slot0IsSprite0)

end Sys2Proof.Machine
end

