-- ==== Sys2Proof/Machine/Ops.lean ====
section
/-!
DEFINITION. The named operations over the state: taking a fatal, the prelude of every operation, the VRAM/palette
translator (20_memory.md), the register window, and the sequencer position (41_dot_driver.md R180, R182).
-/
namespace Sys2Proof.Machine

/-! ### The fatal (60_exceptions.md R290, R297) -/

/-- Taking the fatal `k`: `halted <- 1`, `fault_code <- k`, nothing else of the block changes, and the operation returns no
value. There is no return from a fatal (R297). -/
def State.raiseFatal (k : FaultCode) (s : State) : State :=
  { s with halted := true, faultCode := some k, reply := .none }

/-- The reply of the operation before withdrawn (log 2). -/
def State.noReply (s : State) : State := { s with reply := .none }

/-- Why the body of an operation ends without a next state of its own. -/
inductive Stop where
  | fatal (k : FaultCode)
  | fault (f : Fault)
  | refusal (r : Refusal)
deriving DecidableEq, Repr

/-- The outcome of an operation begun in `s` whose body gave `r`. A fatal has no partial effect (R140, R297): it is taken
in `s`. -/
def commit (s : State) (r : Except Stop State) : Host.Outcome State Fault Refusal :=
  match r with
  | .ok s' => .next s'
  | .error (.fatal k) => .next (s.raiseFatal k)
  | .error (.fault f) => .fault f
  | .error (.refusal r) => .refused r

/-- The prelude of every operation (R140, R181, R290): while halted it does nothing and returns no value; otherwise its
body runs, the reply of the operation before it withdrawn. -/
def operate (s : State) (body : State → Except Stop State) : Host.Outcome State Fault Refusal :=
  if s.halted then .next s.noReply else commit s.noReply (body s.noReply)

/-! ### The VRAM/palette translator (20_memory.md) -/

/-- Where a video address resolves to (R71, R72, R73). -/
inductive Target where
  | cart (a : Nat)
  | nt (index : Nat)
  | pal (index : Nat)
deriving DecidableEq, Repr

/-- The bank of a logical nametable (R72). Four-screen mirroring never reaches the translator; a state that no launch gives
takes F2 here (log 12). -/
def ntBank (m : Mirroring) (l : BitVec 2) : Except FaultCode Nat :=
  match m with
  | .horizontal => .ok (l.extractLsb' 1 1).toNat
  | .vertical => .ok (l.extractLsb' 0 1).toNat
  | .fourScreen => .error .f2

/-- The alias of R72: addresses from 0x3000 up go down by 0x1000 first. -/
def ntAlias (a : VAddr) : VAddr := if 0x3000#15 ≤ a then a - 0x1000#15 else a

/-- The palette cell of an address (R73): five bits, then the four aliases. -/
def palIndex (a : VAddr) : Nat :=
  let i := (a &&& 0x1F#15).toNat
  if i = 0x10 ∨ i = 0x14 ∨ i = 0x18 ∨ i = 0x1C then i - 0x10 else i

/-- The translator (R70 to R73, R76). -/
def translateAddress (c : Cfg) (a : VAddr) : Except FaultCode Target :=
  if a < 0x2000#15 then .ok (.cart a.toNat)
  else if a ≤ 0x3EFF#15 then
    (ntBank c.mirroring ((ntAlias a).extractLsb' 10 2)).map
      (fun bank => .nt (1024 * bank + ((ntAlias a).extractLsb' 0 10).toNat))
  else if a ≤ 0x3FFF#15 then .ok (.pal (palIndex a))
  else .error .f4

/-- `CartRead` (R78). -/
def State.cartRead (s : State) (a : Nat) : Byte := s.chr.read a

/-- `CartWrite` (R78): stored if the pattern memory is writable, ignored if not. -/
def State.cartWrite (s : State) (a : Nat) (b : Byte) : State :=
  if s.chrWritable then { s with chr := s.chr.write a b } else s

/-- The byte of a resolved address (R74). -/
def State.readTarget (s : State) : Target → Byte
  | .cart a => s.cartRead a
  | .nt i => s.nt.read i
  | .pal i => s.pal.read i

/-- A byte stored at a resolved address (R75). -/
def State.writeTarget (s : State) (b : Byte) : Target → State
  | .cart a => s.cartWrite a b
  | .nt i => { s with nt := s.nt.write i b }
  | .pal i => { s with pal := s.pal.write i b }

/-- `VramRead(a)` (R74, R76). -/
def State.vramRead (s : State) (a : VAddr) : Except Stop Byte :=
  match translateAddress s.cfg a with
  | .ok target => .ok (s.readTarget target)
  | .error k => .error (.fatal k)

/-- `VramWrite(a, b)` (R75, R76). -/
def State.vramWrite (s : State) (a : VAddr) (b : Byte) : Except Stop State :=
  match translateAddress s.cfg a with
  | .ok target => .ok (s.writeTarget b target)
  | .error k => .error (.fatal k)

/-! ### The register window (R79) -/

/-- The CPU address lies in the window. The window does not wrap past 0xFFFF (log 18). -/
def inWindow (c : Cfg) (addr : BitVec 16) : Bool :=
  decide (c.regBase.toNat ≤ addr.toNat) && decide (addr.toNat < c.regBase.toNat + c.regSize)

/-! ### The sequencer position (41_dot_driver.md) -/

/-- The four phases. -/
inductive Phase where
  | vblank
  | postRender
  | preRender
  | visibleRender
deriving DecidableEq, Repr

/-- `Phase(s)` (R180). -/
def phaseOf (c : Cfg) (scanline : Nat) : Phase :=
  if scanline < c.vblankLines then .vblank
  else if scanline = c.vblankLines then .preRender
  else if scanline ≤ c.vblankLines + c.visibleLines then .visibleRender
  else .postRender

/-- The phase codes of a SEQ word (R112). -/
def Phase.code : Phase → BitVec 2
  | .vblank => 0#2
  | .postRender => 1#2
  | .preRender => 2#2
  | .visibleRender => 3#2

/-- The first scanline of a phase (R112, R180). -/
def Phase.firstLine (c : Cfg) : Phase → Nat
  | .vblank => 0
  | .preRender => c.vblankLines
  | .visibleRender => c.vblankLines + 1
  | .postRender => c.vblankLines + c.visibleLines + 1

/-- The pair (scanline, dot) is one of the counters' values (R27). -/
def State.positionExists (s : State) : Bool :=
  decide (s.scanline < s.cfg.totalScanlines) && decide (s.dot < s.cfg.dotsPerLine)

/-- The SEQ word of the position (R112). -/
def State.seqWord (s : State) : BitVec 11 := (phaseOf s.cfg s.scanline).code ++ BitVec.ofNat 9 s.dot

/-- The scanline is the first of its phase (R112). -/
def State.onFirstLine (s : State) : Bool :=
  decide (s.scanline = (phaseOf s.cfg s.scanline).firstLine s.cfg)

/-- The micro-operations of the position, in order (R181, R185). -/
def State.microOps (s : State) : Except Stop (List Instr) :=
  if s.positionExists then
    match decodeSeq s.seqWord s.onFirstLine (renderingEnabled s.mask) with
    | .ok ops => .ok ops
    | .error _ => .error (.fault .noSuchPosition)
  else .error (.fault .noSuchPosition)

/-- The advance (R182). -/
def State.advance (s : State) : State :=
  if s.dot + 1 < s.cfg.dotsPerLine then { s with dot := s.dot + 1 }
  else if s.scanline + 1 < s.cfg.totalScanlines then { s with dot := 0, scanline := s.scanline + 1 }
  else { s with dot := 0, scanline := 0 }

/-- The screen row of a visible scanline (R180, R260): `y = scanline - (V + 1)`. -/
def State.screenRow (s : State) : Except Stop Nat :=
  match phaseOf s.cfg s.scanline with
  | .visibleRender => .ok (s.scanline - (s.cfg.vblankLines + 1))
  | _ => .error (.fault .noScreenCell)

/-- The target row of the sprite evaluation (43_sprite_evaluator.md R241). -/
def State.targetRow (s : State) : Except Stop Nat :=
  match phaseOf s.cfg s.scanline with
  | .preRender => .ok 0
  | .visibleRender => .ok (s.scanline - (s.cfg.vblankLines + 1) + 1)
  | _ => .error (.fault .noTargetRow)

end Sys2Proof.Machine
end

