-- ==== Sys2Proof/Machine/Background.lean ====
section
/-!
DEFINITION. The background fetch pipeline and the scroll arithmetic (42_background_fetch.md): the micro-operations FETCH_NT,
FETCH_AT, FETCH_LO, FETCH_HI, LOAD_INCX, INC_Y, COPY_H, COPY_V.
-/
namespace Sys2Proof.Machine

/-- R214. -/
def fetchNtBody (s : State) : Except Stop State := do
  let b ← s.vramRead (ntAddress s.v)
  .ok { s with ntLatch := b }

def execFetchNt (_ : BitVec 1) (_ : BitVec 6) (s : State) : Host.Outcome State Fault Refusal := operate s fetchNtBody

/-- R215. -/
def fetchAtBody (s : State) : Except Stop State := do
  let b ← s.vramRead (atAddress s.v)
  .ok { s with atLatch := atValue s.v b }

def execFetchAt (_ : BitVec 1) (_ : BitVec 6) (s : State) : Host.Outcome State Fault Refusal := operate s fetchAtBody

/-- R216. -/
def fetchLoBody (s : State) : Except Stop State := do
  let b ← s.vramRead (bgPatternAddress s.ctrl s.ntLatch s.v)
  .ok { s with ptLo := b }

def execFetchLo (_ : BitVec 1) (_ : BitVec 6) (s : State) : Host.Outcome State Fault Refusal := operate s fetchLoBody

/-- R217. -/
def fetchHiBody (s : State) : Except Stop State := do
  let b ← s.vramRead (bgPatternAddress s.ctrl s.ntLatch s.v + 8#15)
  .ok { s with ptHi := b }

def execFetchHi (_ : BitVec 1) (_ : BitVec 6) (s : State) : Host.Outcome State Fault Refusal := operate s fetchHiBody

/-- R218: pack, merge, then the coarse-X increment. -/
def loadIncxBody (s : State) : Except Stop State :=
  .ok { s with bgbuf := mergeGroup s.bgbuf (packGroup s.atLatch s.ptLo s.ptHi), v := incX s.v }

def execLoadIncx (_ : BitVec 1) (_ : BitVec 6) (s : State) : Host.Outcome State Fault Refusal := operate s loadIncxBody

/-- R221. -/
def incYBody (s : State) : Except Stop State := .ok { s with v := incYAddr s.v }

def execIncY (_ : BitVec 1) (s : State) : Host.Outcome State Fault Refusal := operate s incYBody

/-- R222. -/
def copyHBody (s : State) : Except Stop State := .ok { s with v := copyHAddr s.v s.t }

def execCopyH (_ : BitVec 1) (s : State) : Host.Outcome State Fault Refusal := operate s copyHBody

/-- R223. -/
def copyVBody (s : State) : Except Stop State := .ok { s with v := copyVAddr s.v s.t }

def execCopyV (_ : BitVec 9) (s : State) : Host.Outcome State Fault Refusal := operate s copyVBody

end Sys2Proof.Machine
end

