-- ==== Sys2Proof/Machine/Compositor.lean ====
section
/-!
DEFINITION. The pixel compositor (44_pixel_compositor.md): the micro-operation PIXEL.
-/
namespace Sys2Proof.Machine

/-- `BgNibble(x)` (R261), `col` the screen column. -/
def bgNibble (s : State) (col : Nat) : BitVec 4 :=
  if maskBgEnable s.mask = false ∨ (col < 8 ∧ bgClip s.mask = true) then 0#4
  else s.bgbuf.extractLsb' (60 - 4 * (col % 8 + s.x.toNat)) 4

/-- Secondary slot `k` is active at a column and a row (R262). -/
def slotActive (sec : Memory) (k col row : Nat) : Bool :=
  inRange row (sec.read (4 * k)) && inRange col (sec.read (4 * k + 3))

/-- The address of the plane-0 byte of an active slot's tile row (R263). -/
def slotAddress (s : State) (k row : Nat) : VAddr :=
  patternAddress (spriteBase s.ctrl) (s.sec.read (4 * k + 1))
    (BitVec.ofNat 15 (flipped (attrVflip (s.sec.read (4 * k + 2))) (row - (s.sec.read (4 * k)).toNat)))

/-- The colour of an active slot (R263). -/
def slotColour (s : State) (k col row : Nat) : Except Stop (BitVec 2) := do
  let lo ← s.vramRead (slotAddress s k row)
  let hi ← s.vramRead (slotAddress s k row + 8#15)
  .ok (planeColour lo hi (flipped (attrHflip (s.sec.read (4 * k + 2))) (col - (s.sec.read (4 * k + 3)).toNat)))

/-- A sprite pixel `(k, sc, attr)` (R264). -/
structure SpritePixel where
  slot   : Nat
  colour : BitVec 2
  attr   : Byte
deriving DecidableEq, Repr

/-- The search of R264 from slot `k` on, `left` slots to go: the first active slot whose colour is not 0. -/
def spriteScan (s : State) (col row : Nat) : (left k : Nat) → Except Stop (Option SpritePixel)
  | 0, _ => .ok none
  | left + 1, k =>
    if slotActive s.sec k col row then do
      let c ← slotColour s k col row
      if c ≠ 0#2 then .ok (some ⟨k, c, s.sec.read (4 * k + 2)⟩)
      else spriteScan s col row left (k + 1)
    else spriteScan s col row left (k + 1)

/-- `SpritePixel(x, y)` (R264). -/
def spritePixel (s : State) (col row : Nat) : Except Stop (Option SpritePixel) :=
  if maskSprEnable s.mask = false ∨ (col < 8 ∧ sprClip s.mask = true) then .ok none
  else spriteScan s col row 8 0

/-- The sprite's palette index (R122, R265): `1 ++ attr[1:0] ++ sc`. -/
def SpritePixel.index (p : SpritePixel) : BitVec 5 := 1#1 ++ attrPalette p.attr ++ p.colour

/-- The index that `Mux` chooses (R265). -/
def muxIndex (bg : BitVec 4) (sp : Option SpritePixel) : BitVec 5 :=
  match sp with
  | none => if bg.extractLsb' 0 2 = 0#2 then 0b00000#5 else 0#1 ++ bg
  | some p =>
    if bg.extractLsb' 0 2 = 0#2 then p.index
    else if attrBehind p.attr then 0#1 ++ bg else p.index

/-- `sprite0_hit` after `Mux` (R265, R266): the fourth row of the table only. -/
def muxHit (hit slot0IsSprite0 : Bool) (bg : BitVec 4) (sp : Option SpritePixel) : Bool :=
  match sp with
  | none => hit
  | some p => if bg.extractLsb' 0 2 = 0#2 then hit else hitAfter hit p.slot slot0IsSprite0

/-- The colour of a palette byte (R123, R268): `RGB_LUT[byte mod 64]`. -/
def lutColour (c : Cfg) (b : Byte) : Rgb := c.rgbLut[b.toNat % 64]'(Nat.mod_lt _ (by decide))

/-- The screen column of a dot (R260): `x = d - 1` for `d` in 1..256. -/
def screenColumn (d : BitVec 9) : Except Stop Nat :=
  if pixelDot d.toNat then .ok (d.toNat - 1) else .error (.fault .noScreenCell)

/-- R260 at dot `d`. -/
def pixelBody (d : BitVec 9) (s : State) : Except Stop State := do
  let col ← screenColumn d
  let row ← s.screenRow
  let sp ← spritePixel s col row
  let b ← s.vramRead (paletteAddress (muxIndex (bgNibble s col) sp))
  .ok { s with
    sprite0Hit := muxHit s.sprite0Hit s.slot0IsSprite0 (bgNibble s col) sp
    fb := s.fb.write row col (lutColour s.cfg b) }

def execPixel (d : BitVec 9) (s : State) : Host.Outcome State Fault Refusal := operate s (pixelBody d)

end Sys2Proof.Machine
end

