-- ==== Sys2Proof/Machine/HostOps.lean ====
section
/-!
DEFINITION. The out-of-band operations that do not step the sequencer: RESET (70_reset_and_hazards.md), OAMDMA and NMIPOLL
(40_register_port.md).
-/
namespace Sys2Proof.Machine

/-- R320, R321: the timing standard is checked before the mirroring, both fatal F2; an ill-formed launch is refused; a good
one gives the launch state. What belongs to the host stays: its operations still to come and the events it has received
(log 6). A halted block stays halted (R45; log 5). -/
def resetBody (l : Launch) (s : State) : Except Stop State :=
  if l.cfg.standard ≠ .std0 then .error (.fatal .f2)
  else if l.cfg.mirroring = .fourScreen then .error (.fatal .f2)
  else if l.wf then .ok { State.launch l with pending := s.pending, frames := s.frames }
  else .error (.refusal .illFormedLaunch)

def execReset (l : Launch) (s : State) : Host.Outcome State Fault Refusal := operate s (resetBody l)

/-- R156: exactly 256 bytes, byte `i` to `OAM[i]`, whatever the cursor, which stays. -/
def oamdmaBody (bytes : List Byte) (s : State) : Except Stop State :=
  if bytes.length = 256 then .ok { s with oam := Memory.fromBytes 0 bytes }
  else .error (.fatal .f3)

def execOamdma (bytes : List Byte) (s : State) : Host.Outcome State Fault Refusal := operate s (oamdmaBody bytes)

/-- R158: query and clear. -/
def nmipollBody (s : State) : Except Stop State := .ok { s with reply := .bit s.nmiPending, nmiPending := false }

def execNmipoll (s : State) : Host.Outcome State Fault Refusal := operate s nmipollBody

end Sys2Proof.Machine
end

