-- ==== Sys2Proof/Machine/RegisterPort.lean ====
section
/-!
DEFINITION. The register port (40_register_port.md): the twelve bus operations and the six wrong-direction accesses.
-/
namespace Sys2Proof.Machine

/-! ### Control, Mask, Status -/

/-- R141. The test of bit 5 comes first, so a fatal write stores nothing. -/
def wrControlBody (d : Byte) (s : State) : Except Stop State :=
  if ctrlSpriteSize d then .error (.fatal .f2)
  else .ok { s with
    ctrl := d
    t := ctrlT s.cfg s.t d
    nmiPending := nmiAfterControl s.nmiPending s.vblank s.ctrl d }

def execWrControl (d : Byte) (s : State) : Host.Outcome State Fault Refusal := operate s (wrControlBody d)

/-- R143. -/
def wrMaskBody (d : Byte) (s : State) : Except Stop State := .ok { s with mask := d }

def execWrMask (d : Byte) (s : State) : Host.Outcome State Fault Refusal := operate s (wrMaskBody d)

/-- R144: the byte returned is the one before the clears. -/
def rdStatusBody (s : State) : Except Stop State :=
  .ok { s with
    reply := .byte (statusByte s.vblank s.sprite0Hit s.spriteOverflow)
    vblank := false
    w := false }

def execRdStatus (s : State) : Host.Outcome State Fault Refusal := operate s rdStatusBody

/-! ### The sprite-table port -/

/-- R145. -/
def wrOamaddrBody (d : Byte) (s : State) : Except Stop State := .ok { s with oamaddr := d }

def execWrOamaddr (d : Byte) (s : State) : Host.Outcome State Fault Refusal := operate s (wrOamaddrBody d)

/-- R146: the cursor does not move. -/
def rdOamdataBody (s : State) : Except Stop State := .ok { s with reply := .byte (s.oam.read s.oamaddr.toNat) }

def execRdOamdata (s : State) : Host.Outcome State Fault Refusal := operate s rdOamdataBody

/-- R147: the cursor wraps from 0xFF to 0x00. -/
def wrOamdataBody (d : Byte) (s : State) : Except Stop State :=
  .ok { s with oam := s.oam.write s.oamaddr.toNat d, oamaddr := s.oamaddr + 1#8 }

def execWrOamdata (d : Byte) (s : State) : Host.Outcome State Fault Refusal := operate s (wrOamdataBody d)

/-! ### Scroll and Address -/

/-- R148. -/
def wrScroll1Body (d : Byte) (s : State) : Except Stop State :=
  .ok { s with x := scroll1X d, t := scroll1T s.t d, w := true }

def execWrScroll1 (d : Byte) (s : State) : Host.Outcome State Fault Refusal := operate s (wrScroll1Body d)

/-- R149. -/
def wrScroll2Body (d : Byte) (s : State) : Except Stop State := .ok { s with t := scroll2T s.t d, w := false }

def execWrScroll2 (d : Byte) (s : State) : Host.Outcome State Fault Refusal := operate s (wrScroll2Body d)

/-- R150. -/
def wrAddr1Body (d : Byte) (s : State) : Except Stop State := .ok { s with t := addr1T s.t d, w := true }

def execWrAddr1 (d : Byte) (s : State) : Host.Outcome State Fault Refusal := operate s (wrAddr1Body d)

/-- R151: all 15 bits of the new `t` are copied. -/
def wrAddr2Body (d : Byte) (s : State) : Except Stop State :=
  .ok { s with t := addr2T s.t d, v := addr2T s.t d, w := false }

def execWrAddr2 (d : Byte) (s : State) : Host.Outcome State Fault Refusal := operate s (wrAddr2Body d)

/-! ### Data -/

/-- R153: buffered below 0x3F00, immediate from there on with the buffer reloaded from 0x1000 lower. -/
def rdDataBody (s : State) : Except Stop State :=
  let a := dataAddress s.v
  let v' := dataIncrement s.ctrl s.v
  if a < 0x3F00#15 then do
    let b ← s.vramRead a
    .ok { s with reply := .byte s.rbuf, rbuf := b, v := v' }
  else do
    let p ← s.vramRead a
    let b ← s.vramRead (a - 0x1000#15)
    .ok { s with reply := .byte p, rbuf := b, v := v' }

def execRdData (s : State) : Host.Outcome State Fault Refusal := operate s rdDataBody

/-- R154: the read buffer is not touched. -/
def wrDataBody (d : Byte) (s : State) : Except Stop State := do
  let s' ← s.vramWrite (dataAddress s.v) d
  .ok { s' with v := dataIncrement s.ctrl s.v }

def execWrData (d : Byte) (s : State) : Host.Outcome State Fault Refusal := operate s (wrDataBody d)

/-! ### The protocol violations (R157) -/

/-- Every wrong-direction access is the fatal F1; the latch does not toggle. -/
def violation (_ : State) : Except Stop State := .error (.fatal .f1)

def execRdControl (s : State) : Host.Outcome State Fault Refusal := operate s violation
def execRdMask (s : State) : Host.Outcome State Fault Refusal := operate s violation
def execWrStatus (_ : Byte) (s : State) : Host.Outcome State Fault Refusal := operate s violation
def execRdOamaddr (s : State) : Host.Outcome State Fault Refusal := operate s violation
def execRdScroll (s : State) : Host.Outcome State Fault Refusal := operate s violation
def execRdAddr (s : State) : Host.Outcome State Fault Refusal := operate s violation

end Sys2Proof.Machine
end

