-- ==== Sys2Proof/Machine/Sprites.lean ====
section
/-!
DEFINITION. The sprite evaluator and its overflow-detection bug (43_sprite_evaluator.md): the micro-operation SPR_EVAL.
-/
namespace Sys2Proof.Machine

/-- What step 2 leaves (R244): the secondary table, the slot-0 flag, the number `n` of slots filled, and the primary index
`i` at which the scan stopped. -/
structure Fill where
  sec   : Memory
  slot0 : Bool
  n     : Nat
  i     : Nat
deriving DecidableEq, Repr

/-- Step 1 (R243): every byte 0xFF. -/
def clearedSec : Memory := Memory.fromBytes 0 (List.replicate 32 0xFF#8)

/-- Entry `i` of the primary table copied whole into slot `n` (R244). -/
def copyEntry (oam : Memory) (i n : Nat) (sec : Memory) : Memory :=
  (((sec.write (4 * n) (oam.read (4 * i))).write (4 * n + 1) (oam.read (4 * i + 1))).write (4 * n + 2)
    (oam.read (4 * i + 2))).write (4 * n + 3) (oam.read (4 * i + 3))

/-- Step 2 (R244) from primary index `i` on, `left` entries to go: the Y byte goes into the next free slot whether or not
it is in range, the other three bytes on a match. -/
def fillScan (oam : Memory) (row : Nat) : (left i n : Nat) → Memory → Bool → Fill
  | 0, i, n, sec, slot0 => ⟨sec, slot0, n, i⟩
  | left + 1, i, n, sec, slot0 =>
    if n < 8 then
      if inRange row (oam.read (4 * i)) then
        fillScan oam row left (i + 1) (n + 1) (copyEntry oam i n sec) (slot0 || decide (i = 0))
      else fillScan oam row left (i + 1) n (sec.write (4 * n) (oam.read (4 * i))) slot0
    else ⟨sec, slot0, n, i⟩

/-- Step 3 (R245) from primary index `i` and bug offset `m` on, `left` entries to go: whether the miscomputed scan meets a
pseudo-Y in range. -/
def overflowScan (oam : Memory) (row : Nat) : (left i m : Nat) → Bool
  | 0, _, _ => false
  | left + 1, i, m =>
    if inRange row (oam.read (4 * i + m)) then true
    else overflowScan oam row left (i + 1) ((m + 1) % 4)

/-- The fill of a whole evaluation for a target row (R243, R244). -/
def evalFill (oam : Memory) (row : Nat) : Fill := fillScan oam row 64 0 0 clearedSec false

/-- The overflow of a whole evaluation (R245): step 3 is entered only with eight slots filled. -/
def evalOverflow (oam : Memory) (row : Nat) : Bool :=
  let f := evalFill oam row
  decide (f.n = 8) && overflowScan oam row (64 - f.i) f.i 0

/-- R240. -/
def sprEvalBody (s : State) : Except Stop State := do
  let row ← s.targetRow
  .ok { s with
    sec := (evalFill s.oam row).sec
    slot0IsSprite0 := (evalFill s.oam row).slot0
    spriteOverflow := s.spriteOverflow || evalOverflow s.oam row }

def execSprEval (_ : BitVec 1) (s : State) : Host.Outcome State Fault Refusal := operate s sprEvalBody

end Sys2Proof.Machine
end

