-- ==== Sys2Proof/Machine/Driver.lean ====
section
/-!
DEFINITION. The scanline/dot driver (41_dot_driver.md): DOT, CYCLE, and its own micro-operations VBL_SET, FLAGS_CLR,
FRAME_DONE, IDLE.
-/
namespace Sys2Proof.Machine

/-- R186. -/
def vblSetBody (s : State) : Except Stop State :=
  .ok { s with vblank := true, nmiPending := nmiAfterVblank s.nmiPending s.ctrl }

def execVblSet (s : State) : Host.Outcome State Fault Refusal := operate s vblSetBody

/-- R187. -/
def flagsClrBody (s : State) : Except Stop State :=
  .ok { s with vblank := false, sprite0Hit := false, spriteOverflow := false }

def execFlagsClr (s : State) : Host.Outcome State Fault Refusal := operate s flagsClrBody

/-- R188: the event carries the whole frame buffer (60_exceptions.md R300). -/
def frameDoneBody (s : State) : Except Stop State := .ok { s with frames := s.fb :: s.frames }

def execFrameDone (s : State) : Host.Outcome State Fault Refusal := operate s frameDoneBody

/-- R189: nothing. -/
def idleBody (s : State) : Except Stop State := .ok s

def execIdle (_ : BitVec 2) (_ : BitVec 9) (s : State) : Host.Outcome State Fault Refusal := operate s idleBody

/-- One micro-operation of a DOT (R181). -/
def perform (i : Instr) (s : State) : Except Stop State :=
  match i with
  | .vblSet => vblSetBody s
  | .flagsClr => flagsClrBody s
  | .pixel d => pixelBody d s
  | .fetchNt _ _ => fetchNtBody s
  | .fetchAt _ _ => fetchAtBody s
  | .fetchLo _ _ => fetchLoBody s
  | .fetchHi _ _ => fetchHiBody s
  | .loadIncx _ _ => loadIncxBody s
  | .incY _ => incYBody s
  | .sprEval _ => sprEvalBody s
  | .copyH _ => copyHBody s
  | .copyV _ => copyVBody s
  | .frameDone => frameDoneBody s
  | .idle _ _ => idleBody s
  | .wrControl _ | .wrMask _ | .rdStatus | .wrOamaddr _ | .rdOamdata | .wrOamdata _ | .wrScroll1 _ | .wrScroll2 _
  | .wrAddr1 _ | .wrAddr2 _ | .rdData | .wrData _ | .rdControl | .rdMask | .wrStatus _ | .rdOamaddr | .rdScroll
  | .rdAddr | .reset _ | .dot | .cycle | .oamdma _ | .nmipoll => .error (.refusal .notMicroOperation)

/-- The micro-operations of a DOT, one after the other; a stop ends them (R181). -/
def performAll : List Instr → State → Except Stop State
  | [], s => .ok s
  | i :: is, s => do
    let s' ← perform i s
    performAll is s'

/-- R181: the micro-operations of the position held on entry, then the advance. -/
def dotBody (s : State) : Except Stop State := do
  let ops ← s.microOps
  let s' ← performAll ops s
  .ok s'.advance

def execDot (s : State) : Host.Outcome State Fault Refusal := operate s dotBody

/-- `n` DOTs in a row. If one of them halts the block, the remaining ones do nothing (R184). -/
def dots : Nat → State → Host.Outcome State Fault Refusal
  | 0, s => .next s
  | n + 1, s =>
    match execDot s with
    | .next s' => dots n s'
    | .fault f => .fault f
    | .refused r => .refused r

/-- `cyc_mod` after a CYCLE (R184). -/
def cycModAfter (c : Cfg) (cycMod : Nat) : Nat :=
  if 0 < c.extraDotPeriod then (cycMod + 1) % c.extraDotPeriod else cycMod

/-- The number of DOTs of a CYCLE, from the new `cyc_mod` (R184). -/
def cycleDots (c : Cfg) (cycMod' : Nat) : Nat :=
  if 0 < c.extraDotPeriod ∧ cycMod' = 0 then c.dotsPerCycle + 1 else c.dotsPerCycle

/-- R184. -/
def execCycle (s : State) : Host.Outcome State Fault Refusal :=
  if s.halted then .next s.noReply
  else
    dots (cycleDots s.cfg (cycModAfter s.cfg s.cycMod))
      { s.noReply with cycMod := cycModAfter s.cfg s.cycMod }

end Sys2Proof.Machine
end

