-- ==== Sys2Proof/Machine/Dispatch.lean ====
section
/-! DEFINITION. The dispatch: one arm per constructor of Instr, in the table's order. -/
namespace Sys2Proof.Machine

def exec (i : Instr) (s : State) : Host.Outcome State Fault Refusal :=
  match i with
  -- BUS
  | .wrControl d => Sys2Proof.Machine.execWrControl d s
  | .wrMask d => Sys2Proof.Machine.execWrMask d s
  | .rdStatus => Sys2Proof.Machine.execRdStatus s
  | .wrOamaddr d => Sys2Proof.Machine.execWrOamaddr d s
  | .rdOamdata => Sys2Proof.Machine.execRdOamdata s
  | .wrOamdata d => Sys2Proof.Machine.execWrOamdata d s
  | .wrScroll1 d => Sys2Proof.Machine.execWrScroll1 d s
  | .wrScroll2 d => Sys2Proof.Machine.execWrScroll2 d s
  | .wrAddr1 d => Sys2Proof.Machine.execWrAddr1 d s
  | .wrAddr2 d => Sys2Proof.Machine.execWrAddr2 d s
  | .rdData => Sys2Proof.Machine.execRdData s
  | .wrData d => Sys2Proof.Machine.execWrData d s
  -- BUS, wrong direction
  | .rdControl => Sys2Proof.Machine.execRdControl s
  | .rdMask => Sys2Proof.Machine.execRdMask s
  | .wrStatus d => Sys2Proof.Machine.execWrStatus d s
  | .rdOamaddr => Sys2Proof.Machine.execRdOamaddr s
  | .rdScroll => Sys2Proof.Machine.execRdScroll s
  | .rdAddr => Sys2Proof.Machine.execRdAddr s
  -- HOST
  | .reset l => Sys2Proof.Machine.execReset l s
  | .dot => Sys2Proof.Machine.execDot s
  | .cycle => Sys2Proof.Machine.execCycle s
  | .oamdma bs => Sys2Proof.Machine.execOamdma bs s
  | .nmipoll => Sys2Proof.Machine.execNmipoll s
  -- SEQ
  | .vblSet => Sys2Proof.Machine.execVblSet s
  | .flagsClr => Sys2Proof.Machine.execFlagsClr s
  | .pixel d => Sys2Proof.Machine.execPixel d s
  | .fetchNt p d => Sys2Proof.Machine.execFetchNt p d s
  | .fetchAt p d => Sys2Proof.Machine.execFetchAt p d s
  | .fetchLo p d => Sys2Proof.Machine.execFetchLo p d s
  | .fetchHi p d => Sys2Proof.Machine.execFetchHi p d s
  | .loadIncx p d => Sys2Proof.Machine.execLoadIncx p d s
  | .incY p => Sys2Proof.Machine.execIncY p s
  | .sprEval p => Sys2Proof.Machine.execSprEval p s
  | .copyH p => Sys2Proof.Machine.execCopyH p s
  | .copyV d => Sys2Proof.Machine.execCopyV d s
  | .frameDone => Sys2Proof.Machine.execFrameDone s
  | .idle p d => Sys2Proof.Machine.execIdle p d s

end Sys2Proof.Machine
end

