-- ==== Sys2Proof/Machine/Fetch.lean ====
section
/-!
DEFINITION. Taking the host's next operation (00_scope.md R10 to R12; the prelude of 40_register_port.md R140), and placing
a table word where the next step takes its operation.
-/
namespace Sys2Proof.Machine

/-- What the next operation is. -/
inductive Fetched where
  /-- the host has issued none: the block holds its state (60_exceptions.md R306; log 1) -/
  | hold
  /-- a bus transaction outside the register window, settled without an operation: the fatal F1 (R140, R157) -/
  | settled (s : State)
  /-- an operation, and the state with it taken off the host's list -/
  | run (i : Instr) (s : State)
  /-- a request that does not decode -/
  | reject (r : Refusal)
deriving DecidableEq, Repr

/-- A decoded request, to run in `s`. -/
def runDecoded (s : State) : Except DecodeError Instr → Fetched
  | .ok i => .run i s
  | .error e => .reject (.undecodable e)

/-- The host's next operation (R84: in issue order). A bus transaction is checked against the window, then decoded under
the current latch (R140); while halted nothing is raised any more (R290). -/
def fetch (s : State) : Fetched :=
  match s.pending with
  | [] => .hold
  | .bus write addr data :: rest =>
    if s.halted = false ∧ inWindow s.cfg addr = false then
      .settled (State.raiseFatal .f1 { s with pending := rest })
    else runDecoded { s with pending := rest } (decodeBus (busWord s.w write addr) data)
  | .host code arg :: rest => runDecoded { s with pending := rest } (decodeHost code arg)

/-- The phase of a phase code (R112). -/
def phaseOfCode (p : BitVec 2) : Phase :=
  if p = 0#2 then .vblank else if p = 1#2 then .postRender else if p = 2#2 then .preRender else .visibleRender

/-- The row selected for a SEQ word fires with rendering enabled only. -/
def selectedNeedsRendering (word : BitVec 11) : Bool :=
  match selectSeq word with
  | some i => i.needsRendering
  | none => false

/-- `s` with an encoded operation issued as the host's next one (log 14). A BUS word brings the latch bit it was decoded
with. A SEQ word is not issued by the host: the position is set to the word's dot on the first scanline of its phase,
rendering is enabled if the word's micro-operation needs it, and the host issues a DOT. -/
def State.withEncoded (s : State) : Encoded → State
  | .bus word data =>
    { s with
      w := word.getLsbD 4
      pending := .bus (word.getLsbD 3) (s.cfg.regBase + (word.extractLsb' 0 3).setWidth 16) data :: s.pending }
  | .host code arg => { s with pending := .host code arg :: s.pending }
  | .seq word =>
    { s with
      scanline := (phaseOfCode (word.extractLsb' 9 2)).firstLine s.cfg
      dot := seqDot word
      mask := if selectedNeedsRendering word then s.mask ||| 0x08#8 else s.mask
      pending := .host 1#3 .none :: s.pending }

end Sys2Proof.Machine
end

