-- ==== Sys2Proof/Machine/Step.lean ====
section
/-! DEFINITION. One step: the host's next operation, performed (00_scope.md R11, R84). -/
namespace Sys2Proof.Machine

/-- One step of the machine: one atomic operation of the host. -/
def step (s : State) : Host.Outcome State Fault Refusal :=
  match fetch s with
  | .hold => .next s
  | .settled s' => .next s'
  | .run i s' => exec i s'
  | .reject r => .refused r

/-- `s` with the operation of a table word issued as the next one (log 14). -/
def State.withFetchWord (s : State) (nbits w : Nat) : State :=
  match tableWord nbits w with
  | some e => s.withEncoded e
  | none => s

end Sys2Proof.Machine
end

