-- ==== Sys2Proof/Safety.lean ====
section
/-!
DEFINITION. What a safe run is: the invariant of the machine, and a run without a fatal (60_exceptions.md R290: "a faulted
state is never final").
-/
namespace Sys2Proof.Machine

/-- The configuration passed RESET's checks (70_reset_and_hazards.md R321). -/
abbrev State.CfgOk (s : State) : Prop := s.cfg.wf = true ∧ s.cfg.supported = true

/-- The counters are in range (10_state.md R27, R28). -/
abbrev State.PositionOk (s : State) : Prop :=
  s.positionExists = true ∧ s.cycMod < max 1 s.cfg.extraDotPeriod

/-- Bit 5 of Control is never stored as 1 (10_state.md R32), and the attribute latch is `pal ++ 0b00` (R39). -/
abbrev State.RegistersOk (s : State) : Prop :=
  ctrlSpriteSize s.ctrl = false ∧ s.atLatch.extractLsb' 0 2 = 0#2

/-- The memories have their sizes and are in canonical form (R36, R37, R41, R42, R43; 20_memory.md R78). -/
abbrev State.MemoriesOk (s : State) : Prop :=
  Memory.wf 256 s.oam = true ∧ Memory.wf 32 s.sec = true ∧ Memory.wf 2048 s.nt = true ∧ Memory.wf 32 s.pal = true ∧
  Memory.wf 8192 s.chr = true ∧ Frame.wf s.fb = true ∧ s.frames.all Frame.wf = true

/-- A fault code is held while halted (R45), and none otherwise (DESIGN CHOICE, log 19). -/
abbrev State.HaltOk (s : State) : Prop := s.halted = s.faultCode.isSome

/-- The invariant that every step keeps. -/
abbrev State.Inv (s : State) : Prop :=
  s.CfgOk ∧ s.PositionOk ∧ s.RegistersOk ∧ s.MemoriesOk ∧ s.HaltOk

/-- No fatal has occurred (R290). -/
abbrev State.Good (s : State) : Prop := s.halted = false

end Sys2Proof.Machine
end

