-- ==== Sys2Proof/Certificates/Slice0/Obligations.lean ====
section
/-!
DEFINITION. The statements for the provers. Bits of an operand are written `e.extractLsb' lo len` (`e[lo+len-1 : lo]` of
the spec). "The spec's decision D<n>" names a row of 92_eei_decisions.md.
-/

open Sys2Proof Sys2Proof.Machine

/-! ### Decoding and the step -/

/-- A few words written out from the encodings of 95_test_vectors.md and 30_encoding.md decode to what they stand for
(the numbering of the words is the spec's decision D38). -/
def Obligations.SpecWordsDecode : Prop :=
  decodeBus 0b01110#5 0x21#8 = .ok (.wrAddr1 0x21#8) ∧
  decodeBus 0b11110#5 0x21#8 = .ok (.wrAddr2 0x21#8) ∧
  decodeBus 0b10010#5 0x00#8 = .ok .rdStatus ∧
  decodeBus 0b01101#5 0x1B#8 = .ok (.wrScroll1 0x1B#8) ∧
  decodeBus 0b00110#5 0x00#8 = .ok .rdAddr ∧
  decodeHost 0b010#3 .none = .ok .cycle ∧
  decodeSeq 0b00000000001#11 true false = .ok [.vblSet] ∧
  decodeSeq 0b11101001000#11 false true = .ok [.loadIncx 1#1 0b101001#6] ∧
  decodeSeq 0b11100000000#11 false true =
    .ok [.pixel 256#9, .loadIncx 1#1 0b100000#6, .incY 1#1, .sprEval 1#1] ∧
  decodeSeq 0b10100011000#11 false true = .ok [.copyV 280#9] ∧
  decodeSeq 0b10100011000#11 false false = .ok [.idle 2#2 280#9]

/-- Decode and encode agree, for every well-formed operation and every value of its operands: the word of a BUS or HOST
operation decodes to it alone, the word of a sequencer micro-operation to a list that holds it (several rows may fire on
one word, 30_encoding.md section 1), under the side conditions its row asks for. -/
def Obligations.DecodeInvertsEncode : Prop :=
  ∀ i : Instr, i.wf = true →
    ∃ ops, decode (encode i) i.firstLineOnly i.needsRendering = .ok ops ∧ i ∈ ops ∧
      ((∀ word, encode i ≠ .seq word) → ops = [i])

/-- The BUS map of 30_encoding.md, complete: all sixteen pairs of direction and slot, under either value of the latch. -/
def Obligations.BusMapIsComplete : Prop :=
  ∀ (w : Bool) (a : BitVec 16) (d : Byte),
    (a.extractLsb' 0 3 = 0#3 → decodeBus (busWord w false a) d = .ok .rdControl ∧
      decodeBus (busWord w true a) d = .ok (.wrControl d)) ∧
    (a.extractLsb' 0 3 = 1#3 → decodeBus (busWord w false a) d = .ok .rdMask ∧
      decodeBus (busWord w true a) d = .ok (.wrMask d)) ∧
    (a.extractLsb' 0 3 = 2#3 → decodeBus (busWord w false a) d = .ok .rdStatus ∧
      decodeBus (busWord w true a) d = .ok (.wrStatus d)) ∧
    (a.extractLsb' 0 3 = 3#3 → decodeBus (busWord w false a) d = .ok .rdOamaddr ∧
      decodeBus (busWord w true a) d = .ok (.wrOamaddr d)) ∧
    (a.extractLsb' 0 3 = 4#3 → decodeBus (busWord w false a) d = .ok .rdOamdata ∧
      decodeBus (busWord w true a) d = .ok (.wrOamdata d)) ∧
    (a.extractLsb' 0 3 = 5#3 → decodeBus (busWord w false a) d = .ok .rdScroll ∧
      decodeBus (busWord w true a) d = .ok (if w then .wrScroll2 d else .wrScroll1 d)) ∧
    (a.extractLsb' 0 3 = 6#3 → decodeBus (busWord w false a) d = .ok .rdAddr ∧
      decodeBus (busWord w true a) d = .ok (if w then .wrAddr2 d else .wrAddr1 d)) ∧
    (a.extractLsb' 0 3 = 7#3 → decodeBus (busWord w false a) d = .ok .rdData ∧
      decodeBus (busWord w true a) d = .ok (.wrData d))

/-- The SEQ map in prose (30_encoding.md section 1): which micro-operations fire at a position, in every state that
meets the invariant. `V` is `vblankLines`, `L` is `visibleLines`. A configuration with an empty vblank region has no vblank
scanline. IDLE stands at the positions of no other row, and there alone. (When rendering counts as enabled, and that it
gates the visible lines too, are the spec's decisions D10, D11; the idle positions are D32.) -/
def Obligations.SequencerMap : Prop :=
  ∀ s : State, s.Inv →
    let V := s.cfg.vblankLines
    let L := s.cfg.visibleLines
    let rendering := s.mask.getLsbD 3 = true ∨ s.mask.getLsbD 4 = true
    let renderLine := V ≤ s.scanline ∧ s.scanline ≤ V + L
    let fetch := renderLine ∧ rendering ∧ ((1 ≤ s.dot ∧ s.dot ≤ 256) ∨ (321 ≤ s.dot ∧ s.dot ≤ 336))
    ∃ ops, s.microOps = .ok ops ∧
      (Instr.vblSet ∈ ops ↔ 0 < V ∧ s.scanline = 0 ∧ s.dot = 1) ∧
      (Instr.flagsClr ∈ ops ↔ s.scanline = V ∧ s.dot = 1) ∧
      (∀ d, Instr.pixel d ∈ ops ↔ V < s.scanline ∧ s.scanline ≤ V + L ∧ 1 ≤ s.dot ∧ s.dot ≤ 256 ∧ d.toNat = s.dot) ∧
      ((∃ p d, Instr.fetchNt p d ∈ ops) ↔ fetch ∧ s.dot % 8 = 1) ∧
      ((∃ p d, Instr.fetchAt p d ∈ ops) ↔ fetch ∧ s.dot % 8 = 3) ∧
      ((∃ p d, Instr.fetchLo p d ∈ ops) ↔ fetch ∧ s.dot % 8 = 5) ∧
      ((∃ p d, Instr.fetchHi p d ∈ ops) ↔ fetch ∧ s.dot % 8 = 7) ∧
      ((∃ p d, Instr.loadIncx p d ∈ ops) ↔ fetch ∧ s.dot % 8 = 0) ∧
      ((∃ p, Instr.incY p ∈ ops) ↔ renderLine ∧ rendering ∧ s.dot = 256) ∧
      ((∃ p, Instr.sprEval p ∈ ops) ↔ renderLine ∧ rendering ∧ s.dot = 256) ∧
      ((∃ p, Instr.copyH p ∈ ops) ↔ renderLine ∧ rendering ∧ s.dot = 257) ∧
      ((∃ d, Instr.copyV d ∈ ops) ↔ s.scanline = V ∧ rendering ∧ 280 ≤ s.dot ∧ s.dot ≤ 304) ∧
      (Instr.frameDone ∈ ops ↔ s.scanline = V + L + 1 ∧ s.dot = 0) ∧
      ((∃ p d, Instr.idle p d ∈ ops) ↔
        ¬ (0 < V ∧ s.scanline = 0 ∧ s.dot = 1) ∧ ¬ (s.scanline = V ∧ s.dot = 1) ∧
        ¬ (V < s.scanline ∧ s.scanline ≤ V + L ∧ 1 ≤ s.dot ∧ s.dot ≤ 256) ∧
        ¬ (fetch ∧ (s.dot % 8 = 1 ∨ s.dot % 8 = 3 ∨ s.dot % 8 = 5 ∨ s.dot % 8 = 7 ∨ s.dot % 8 = 0)) ∧
        ¬ (renderLine ∧ rendering ∧ (s.dot = 256 ∨ s.dot = 257)) ∧
        ¬ (s.scanline = V ∧ rendering ∧ 280 ≤ s.dot ∧ s.dot ≤ 304) ∧ ¬ (s.scanline = V + L + 1 ∧ s.dot = 0)) ∧
      (∀ p d, Instr.idle p d ∈ ops → ops = [Instr.idle p d] ∧ d.toNat = s.dot)

/-- A step runs the operation that the host's next request decodes to, in the state with that request taken off the host's
list: a bus transaction inside the window under the current latch, a HOST code with its operand. With nothing issued the
block holds its state (the model's choice, log 1; 60_exceptions.md section 4 "holds its state when not stepped"). -/
def Obligations.StepRunsTheDecodedOperation : Prop :=
  ∀ s : State,
    (∀ write addr data rest i, s.pending = Request.bus write addr data :: rest → s.halted = false →
      s.cfg.regBase.toNat ≤ addr.toNat → addr.toNat < s.cfg.regBase.toNat + s.cfg.regSize →
      decodeBus (busWord s.w write addr) data = .ok i → step s = exec i { s with pending := rest }) ∧
    (∀ code arg rest i, s.pending = Request.host code arg :: rest → decodeHost code arg = .ok i →
      step s = exec i { s with pending := rest }) ∧
    (s.pending = [] → step s = .next s)

/-- The protocol violations (40_register_port.md section 5): each of the six wrong-direction accesses, under the words
that encode it, and a transaction outside the register window, is the fatal F1, with no other change (the latch included;
that a fatal is a halt is the spec's decision D28). That a window which would pass 0xFFFF does not go on at address 0 is the
model's choice, log 18. -/
def Obligations.ProtocolViolationsAreF1 : Prop :=
  (∀ s : State, s.halted = false →
    ∀ i ∈ [Instr.rdControl, Instr.rdMask, Instr.rdOamaddr, Instr.rdScroll, Instr.rdAddr],
      exec i s = .next { s with halted := true, faultCode := some .f1, reply := .none }) ∧
  (∀ (s : State) (d : Byte), s.halted = false →
    exec (.wrStatus d) s = .next { s with halted := true, faultCode := some .f1, reply := .none }) ∧
  (∀ (w : Bool) (a : BitVec 16) (d : Byte),
    (a.extractLsb' 0 3 = 0#3 → decodeBus (busWord w false a) d = .ok .rdControl) ∧
    (a.extractLsb' 0 3 = 1#3 → decodeBus (busWord w false a) d = .ok .rdMask) ∧
    (a.extractLsb' 0 3 = 3#3 → decodeBus (busWord w false a) d = .ok .rdOamaddr) ∧
    (a.extractLsb' 0 3 = 5#3 → decodeBus (busWord w false a) d = .ok .rdScroll) ∧
    (a.extractLsb' 0 3 = 6#3 → decodeBus (busWord w false a) d = .ok .rdAddr) ∧
    (a.extractLsb' 0 3 = 2#3 → decodeBus (busWord w true a) d = .ok (.wrStatus d))) ∧
  (∀ (s : State) (write : Bool) (addr : BitVec 16) (data : Byte) (rest : List Request),
    s.pending = Request.bus write addr data :: rest → s.halted = false →
    addr.toNat < s.cfg.regBase.toNat ∨ s.cfg.regBase.toNat + s.cfg.regSize ≤ addr.toNat →
    step s = .next { s with pending := rest, halted := true, faultCode := some .f1, reply := .none })

/-- The HOST codes 5, 6, 7 are refused (30_encoding.md section 1; the numbering is the spec's decision D38). -/
def Obligations.UnassignedHostCodesAreRefused : Prop :=
  ∀ (s : State) (code : BitVec 3) (arg : HostArg) (rest : List Request),
    s.pending = Request.host code arg :: rest → 5 ≤ code.toNat →
    step s = .refused (.undecodable .unassignedHostCode)

/-- While halted, every operation does nothing and returns no value, RESET, DOT and CYCLE included (60_exceptions.md
section 1; the halted state is the spec's decision D28, that RESET does not leave it is log 5). -/
def Obligations.HaltedBlockDoesNothing : Prop :=
  (∀ (i : Instr) (s : State), s.halted = true → exec i s = .next { s with reply := .none }) ∧
  (∀ s t : State, s.halted = true → step s = .next t →
    { t with pending := s.pending, reply := s.reply } = s ∧ t.pending = s.pending.tail)

/-! ### The register port -/

/-- WR_CONTROL with bit 5 clear stores the byte, raises the NMI on an enable edge while the vblank flag is set, and copies
`D[1:0]` into `t[11:10]` only under `CTRL_NT_TO_T` (the spec's decisions D3, D7, D23). -/
def Obligations.ControlWriteStoresAndRaisesOnTheEdge : Prop :=
  ∀ (s : State) (d : Byte), s.halted = false → d.getLsbD 5 = false →
    ∃ t' : VAddr,
      exec (.wrControl d) s = .next { s with
        ctrl := d
        t := t'
        nmiPending := if s.ctrl.getLsbD 7 = false ∧ d.getLsbD 7 = true ∧ s.vblank = true then true else s.nmiPending
        reply := .none } ∧
      (s.cfg.ctrlNtToT = false → t' = s.t) ∧
      (s.cfg.ctrlNtToT = true → t'.extractLsb' 10 2 = d.extractLsb' 0 2 ∧
        t'.extractLsb' 0 10 = s.t.extractLsb' 0 10 ∧ t'.extractLsb' 12 3 = s.t.extractLsb' 12 3)

/-- WR_CONTROL with bit 5 set is the fatal F2, and stores nothing (the bit's place is the spec's decision D3). -/
def Obligations.EightBySixteenSpritesAreF2 : Prop :=
  ∀ (s : State) (d : Byte), s.halted = false → d.getLsbD 5 = true →
    exec (.wrControl d) s = .next { s with halted := true, faultCode := some .f2, reply := .none }

/-- WR_MASK stores the whole byte and changes nothing else. -/
def Obligations.MaskWriteStoresTheByte : Prop :=
  ∀ (s : State) (d : Byte), s.halted = false →
    exec (.wrMask d) s = .next { s with mask := d, reply := .none }

/-- RD_STATUS (40_register_port.md section 1): it returns the flags as they were before, clears `vblank` and the latch,
leaves everything else; a second read at once shows vblank cleared (the places of the bits in the byte are 10_state.md's
general knowledge, its low five bits the spec's decision D5). -/
def Obligations.StatusReadReturnsThenClears : Prop :=
  (∀ s : State, s.halted = false →
    ∃ b : Byte, exec .rdStatus s = .next { s with vblank := false, w := false, reply := .byte b } ∧
      b.getLsbD 7 = s.vblank ∧ b.getLsbD 6 = s.sprite0Hit ∧ b.getLsbD 5 = s.spriteOverflow ∧
      b.extractLsb' 0 5 = 0#5) ∧
  (∀ s t u : State, s.halted = false → exec .rdStatus s = .next t → exec .rdStatus t = .next u →
    ∃ b : Byte, u.reply = .byte b ∧ b.getLsbD 7 = false) ∧
  (∀ (w : Bool) (a : BitVec 16) (d : Byte), a.extractLsb' 0 3 = 2#3 → decodeBus (busWord w false a) d = .ok .rdStatus)

/-- WR_OAMADDR (40_register_port.md R145): the cursor takes any byte, and nothing else changes. -/
def Obligations.CursorWriteStoresTheByte : Prop :=
  (∀ (s : State) (d : Byte), s.halted = false →
    exec (.wrOamaddr d) s = .next { s with oamaddr := d, reply := .none }) ∧
  (∀ (w : Bool) (a : BitVec 16) (d : Byte), a.extractLsb' 0 3 = 3#3 →
    decodeBus (busWord w true a) d = .ok (.wrOamaddr d))

/-- RD_OAMDATA returns the byte at the cursor, and neither the cursor nor anything else moves (the spec's decision D26). -/
def Obligations.SpriteTableReadReturnsTheByte : Prop :=
  ∀ s : State, s.halted = false →
    exec .rdOamdata s = .next { s with reply := .byte (s.oam.read s.oamaddr.toNat) }

/-- WR_OAMDATA (40_register_port.md section 2): the byte at the cursor is written, every other byte of the table reads as
before, the cursor goes up by one modulo 256 (the wrap is the spec's decision D26), and nothing else changes. -/
def Obligations.SpriteTableWriteStoresAndIncrements : Prop :=
  (∀ (s : State) (d : Byte), s.halted = false → Memory.wf 256 s.oam = true →
    ∃ t : State, exec (.wrOamdata d) s = .next t ∧
      (∀ a, t.oam.read a = if a = s.oamaddr.toNat then d else s.oam.read a) ∧
      t.oamaddr.toNat = (s.oamaddr.toNat + 1) % 256 ∧ t.reply = .none ∧
      { t with oam := s.oam, oamaddr := s.oamaddr, reply := s.reply } = s) ∧
  (∀ (w : Bool) (a : BitVec 16) (d : Byte), a.extractLsb' 0 3 = 4#3 →
    decodeBus (busWord w true a) d = .ok (.wrOamdata d))

/-- WR_SCROLL.1: `x` and `t[4:0]` take the two parts of the byte, the latch is set, `t[14:5]` and everything else stay
(that `t[10]` stays is the spec's decision D8). -/
def Obligations.FirstScrollWrite : Prop :=
  ∀ (s : State) (d : Byte), s.halted = false →
    ∃ t' : VAddr,
      exec (.wrScroll1 d) s = .next { s with x := d.extractLsb' 0 3, t := t', w := true, reply := .none } ∧
      t'.extractLsb' 0 5 = d.extractLsb' 3 5 ∧ t'.extractLsb' 5 10 = s.t.extractLsb' 5 10

/-- WR_SCROLL.2: `t[14:12]` and `t[9:5]` take the two parts of the byte, the latch is cleared, the rest stays (the split of
the second byte is the spec's own, 30_encoding.md section 3). -/
def Obligations.SecondScrollWrite : Prop :=
  ∀ (s : State) (d : Byte), s.halted = false →
    ∃ t' : VAddr,
      exec (.wrScroll2 d) s = .next { s with t := t', w := false, reply := .none } ∧
      t'.extractLsb' 12 3 = d.extractLsb' 0 3 ∧ t'.extractLsb' 5 5 = d.extractLsb' 3 5 ∧
      t'.extractLsb' 0 5 = s.t.extractLsb' 0 5 ∧ t'.extractLsb' 10 2 = s.t.extractLsb' 10 2

/-- WR_ADDR.1 (40_register_port.md R150): `t[13:8]` takes `D[5:0]`, `t[14]` is cleared, the latch is set; `t[7:0]`, `v` and
the rest stay. -/
def Obligations.FirstAddressWrite : Prop :=
  (∀ (s : State) (d : Byte), s.halted = false →
    ∃ t' : VAddr,
      exec (.wrAddr1 d) s = .next { s with t := t', w := true, reply := .none } ∧
      t'.extractLsb' 8 6 = d.extractLsb' 0 6 ∧ t'.getLsbD 14 = false ∧
      t'.extractLsb' 0 8 = s.t.extractLsb' 0 8) ∧
  (∀ (a : BitVec 16) (d : Byte), a.extractLsb' 0 3 = 6#3 → decodeBus (busWord false true a) d = .ok (.wrAddr1 d))

/-- WR_ADDR.2 (40_register_port.md R151): `t[7:0]` takes the byte, all 15 bits of the new `t` are copied into `v`, the
latch is cleared; `x` and the rest stay. -/
def Obligations.SecondAddressWrite : Prop :=
  (∀ (s : State) (d : Byte), s.halted = false →
    ∃ t' : VAddr,
      exec (.wrAddr2 d) s = .next { s with t := t', v := t', w := false, reply := .none } ∧
      t'.extractLsb' 0 8 = d ∧ t'.extractLsb' 8 7 = s.t.extractLsb' 8 7) ∧
  (∀ (a : BitVec 16) (d : Byte), a.extractLsb' 0 3 = 6#3 → decodeBus (busWord true true a) d = .ok (.wrAddr2 d))

/-- The sequence `W 6, a; W 5, b; W 5, c; W 6, d` from a clear latch, run as four steps (40_register_port.md section 3). -/
def Obligations.MixedScrollAndAddressWrites : Prop :=
  ∀ (s : State) (a6 a5 a5' a6' : BitVec 16) (a b c d : Byte) (rest : List Request),
    s.halted = false → s.w = false →
    s.pending = [.bus true a6 a, .bus true a5 b, .bus true a5' c, .bus true a6' d] ++ rest →
    a6.extractLsb' 0 3 = 6#3 → a5.extractLsb' 0 3 = 5#3 → a5'.extractLsb' 0 3 = 5#3 → a6'.extractLsb' 0 3 = 6#3 →
    (∀ p ∈ [a6, a5, a5', a6'], s.cfg.regBase.toNat ≤ p.toNat ∧ p.toNat < s.cfg.regBase.toNat + s.cfg.regSize) →
    ∃ t' : VAddr,
      Host.Core.run Sys2Proof.core 4 s =
        .next { s with t := t', v := t', x := c.extractLsb' 0 3, w := false, reply := .none, pending := rest } ∧
      t'.extractLsb' 0 8 = d ∧ t'.extractLsb' 8 2 = b.extractLsb' 6 2 ∧ t'.extractLsb' 10 2 = a.extractLsb' 2 2 ∧
      t'.extractLsb' 12 3 = b.extractLsb' 0 3

/-- RD_DATA: below 0x3F00 the old buffer is returned and the byte at the address fills the buffer; from 0x3F00 on the
palette byte is returned and the buffer takes the byte 0x1000 lower; `v` goes up by 1 or 32 over 15 bits (the address and
the increment in every phase are the spec's decisions D9, D33). -/
def Obligations.DataReadIsBufferedBelowThePalette : Prop :=
  ∀ s : State, s.halted = false → s.cfg.mirroring ≠ .fourScreen →
    let a := s.v &&& 0x3FFF#15
    let v' := s.v + (if s.ctrl.getLsbD 2 then 32#15 else 1#15)
    (a.toNat < 0x3F00 → ∃ b, s.vramRead a = .ok b ∧
      exec .rdData s = .next { s with rbuf := b, v := v', reply := .byte s.rbuf }) ∧
    (0x3F00 ≤ a.toNat → ∃ b, s.vramRead (a - 0x1000#15) = .ok b ∧
      exec .rdData s = .next { s with rbuf := b, v := v', reply := .byte (s.pal.read (palIndex a)) })

/-- WR_DATA (40_register_port.md section 4): the byte goes to the cell that the translator gives for `v & 0x3FFF` and to no
other, in the cartridge only if its pattern memory is writable; `v` goes up; the read buffer and the rest stay (the mask,
the increment in every phase and the cartridge's contract are the spec's decisions D9, D33, D35). -/
def Obligations.DataWriteStoresThroughTheTranslator : Prop :=
  (∀ (s : State) (d : Byte), s.halted = false → s.cfg.mirroring ≠ .fourScreen →
    Memory.wf 2048 s.nt = true → Memory.wf 32 s.pal = true → Memory.wf 8192 s.chr = true →
    ∃ (g : Target) (t : State), translateAddress s.cfg (s.v &&& 0x3FFF#15) = .ok g ∧ exec (.wrData d) s = .next t ∧
      t.v = s.v + (if s.ctrl.getLsbD 2 then 32#15 else 1#15) ∧ t.reply = .none ∧
      { t with v := s.v, reply := s.reply, nt := s.nt, pal := s.pal, chr := s.chr } = s ∧
      (∀ k, t.nt.read k = if g = .nt k then d else s.nt.read k) ∧
      (∀ k, t.pal.read k = if g = .pal k then d else s.pal.read k) ∧
      (∀ k, t.chr.read k = if g = .cart k ∧ s.chrWritable = true then d else s.chr.read k)) ∧
  (∀ (w : Bool) (a : BitVec 16) (d : Byte), a.extractLsb' 0 3 = 7#3 →
    decodeBus (busWord w true a) d = .ok (.wrData d))

/-- A byte written at a palette address is returned, all eight bits, by a read at any palette address of the same cell
(95_test_vectors.md X2): a mirror 32 bytes on, or one of the four aliases. -/
def Obligations.PaletteWriteReadsBackThroughItsMirrors : Prop :=
  ∀ (s t : State) (d : Byte) (a : VAddr), s.halted = false → s.cfg.mirroring ≠ .fourScreen → Memory.wf 32 s.pal = true →
    0x3F00 ≤ (s.v &&& 0x3FFF#15).toNat → exec (.wrData d) s = .next t →
    0x3F00 ≤ a.toNat → a.toNat < 0x4000 →
    (a.toNat % 32 = s.v.toNat % 32 ∨ (a.toNat % 16 = s.v.toNat % 16 ∧ a.toNat % 4 = 0)) →
    ∃ u : State, exec .rdData { t with v := a } = .next u ∧ u.reply = .byte d

/-- The three regions and the address outside them, and what `VramRead` returns there: the byte of the cartridge, of the
nametable RAM or of the palette RAM at the index the translator gives, the fatal where it fails (20_memory.md section 1;
which nametables share a bank is the spec's decision D17, the whole palette byte D34, the cartridge's contract D35). -/
def Obligations.TranslatorRegions : Prop :=
  ∀ (c : Cfg) (a : VAddr),
    (a.toNat < 0x2000 → translateAddress c a = .ok (.cart a.toNat)) ∧
    (0x2000 ≤ a.toNat → a.toNat ≤ 0x3EFF → c.mirroring = .horizontal →
      translateAddress c a = .ok (.nt (1024 * (a.toNat / 2048 % 2) + a.toNat % 1024))) ∧
    (0x2000 ≤ a.toNat → a.toNat ≤ 0x3EFF → c.mirroring = .vertical →
      translateAddress c a = .ok (.nt (1024 * (a.toNat / 1024 % 2) + a.toNat % 1024))) ∧
    (0x3F00 ≤ a.toNat → a.toNat ≤ 0x3FFF →
      translateAddress c a = .ok (.pal (if a.toNat % 4 = 0 then a.toNat % 16 else a.toNat % 32))) ∧
    (0x4000 ≤ a.toNat → translateAddress c a = .error .f4) ∧
    ∀ s : State, s.cfg = c →
      (∀ k, translateAddress c a = .ok (.cart k) → s.vramRead a = .ok (s.chr.read k)) ∧
      (∀ k, translateAddress c a = .ok (.nt k) → s.vramRead a = .ok (s.nt.read k)) ∧
      (∀ k, translateAddress c a = .ok (.pal k) → s.vramRead a = .ok (s.pal.read k)) ∧
      (∀ f, translateAddress c a = .error f → s.vramRead a = .error (.fatal f))

/-- The mirrors of an address resolve to the same store and index (20_memory.md section 1, 95_test_vectors.md X1). -/
def Obligations.MirroredAddressesResolveAlike : Prop :=
  ∀ (c : Cfg) (a : VAddr),
    (0x3000 ≤ a.toNat → a.toNat ≤ 0x3EFF → translateAddress c a = translateAddress c (a - 0x1000#15)) ∧
    (0x2000 ≤ a.toNat → a.toNat ≤ 0x2FFF → c.mirroring = .horizontal →
      translateAddress c a = translateAddress c (a ^^^ 0x400#15)) ∧
    (0x2000 ≤ a.toNat → a.toNat ≤ 0x2FFF → c.mirroring = .vertical →
      translateAddress c a = translateAddress c (a ^^^ 0x800#15)) ∧
    (0x3F00 ≤ a.toNat → a.toNat ≤ 0x3FFF → translateAddress c a = translateAddress c (0x3F00#15 ||| (a &&& 0x1F#15)))

/-! ### The out-of-band operations -/

/-- OAMDMA with 256 bytes puts byte `i` at `OAM[i]`, whatever the cursor, which stays, as does everything else (the spec's
decision D25). -/
def Obligations.BulkTransferReplacesTheTable : Prop :=
  ∀ (s : State) (bytes : List Byte), s.halted = false → bytes.length = 256 →
    ∃ t : State, exec (.oamdma bytes) s = .next t ∧ (∀ i, t.oam.read i = bytes.getD i 0#8) ∧
      Memory.wf 256 t.oam = true ∧ t.reply = .none ∧ { t with oam := s.oam, reply := s.reply } = s

/-- F3 (60_exceptions.md section 1): a transfer of any other length is fatal, and the table is left untouched (that a fatal
is a halt is the spec's decision D28). -/
def Obligations.MalformedBulkTransferIsF3 : Prop :=
  ∀ (s : State) (bytes : List Byte), s.halted = false → bytes.length ≠ 256 →
    exec (.oamdma bytes) s = .next { s with halted := true, faultCode := some .f3, reply := .none }

/-- NMIPOLL (40_register_port.md R158): it returns the pending bit and clears it; a second poll returns 0. -/
def Obligations.PollReturnsAndClears : Prop :=
  (∀ s : State, s.halted = false →
    exec .nmipoll s = .next { s with nmiPending := false, reply := .bit s.nmiPending }) ∧
  (∀ s t u : State, s.halted = false → exec .nmipoll s = .next t → exec .nmipoll t = .next u →
    u.reply = .bit false) ∧
  decodeHost 4#3 .none = .ok .nmipoll

/-- RESET with a supported configuration and a well-formed launch gives every piece of state its reset value (the values
are the spec's decision D27, 10_state.md section 8); the model's choices are that no fault code is held then (log 19), that
no reply is (log 2), and that the host's list and the events it has received stay (log 6). -/
def Obligations.ResetGivesTheResetValues : Prop :=
  ∀ (s : State) (l : Launch), s.halted = false → l.cfg.standard = .std0 → l.cfg.mirroring ≠ .fourScreen →
    l.wf = true →
    ∃ t : State, exec (.reset l) s = .next t ∧
      (t.v = 0#15 ∧ t.t = 0#15 ∧ t.x = 0#3 ∧ t.w = false ∧ t.scanline = 0 ∧ t.dot = 0 ∧ t.cycMod = 0) ∧
      (t.vblank = false ∧ t.sprite0Hit = false ∧ t.spriteOverflow = false ∧ t.nmiPending = false) ∧
      (t.ctrl = 0x00#8 ∧ t.mask = 0x00#8 ∧ t.oamaddr = 0x00#8 ∧ t.rbuf = 0x00#8) ∧
      ((∀ k, k < 32 → t.sec.read k = 0xFF#8) ∧ t.slot0IsSprite0 = false) ∧
      (t.bgbuf = 0#64 ∧ t.ntLatch = 0#8 ∧ t.atLatch = 0#4 ∧ t.ptLo = 0#8 ∧ t.ptHi = 0#8) ∧
      (t.halted = false ∧ t.faultCode = none ∧ t.reply = .none) ∧
      (t.cfg = l.cfg ∧ t.oam = l.oam ∧ t.nt = l.nt ∧ t.pal = l.pal ∧ t.fb = l.fb ∧ t.chr = l.chr ∧
        t.chrWritable = l.chrWritable) ∧
      t.pending = s.pending ∧ t.frames = s.frames

/-- The checks of RESET (70_reset_and_hazards.md section 1; the spec's decisions D28, D39): an untabulated timing
standard and four-screen mirroring are the fatal F2; a supported configuration that breaks one of the three conditions
is refused as an ill-formed launch. -/
def Obligations.ResetChecksItsConfiguration : Prop :=
  ∀ (s : State) (l : Launch), s.halted = false →
    (l.cfg.standard ≠ .std0 ∨ l.cfg.mirroring = .fourScreen →
      exec (.reset l) s = .next { s with halted := true, faultCode := some .f2, reply := .none }) ∧
    (l.cfg.standard = .std0 → l.cfg.mirroring ≠ .fourScreen →
      ¬ (l.cfg.vblankLines + 1 + l.cfg.visibleLines < l.cfg.totalScanlines) ∨ ¬ (1 ≤ l.cfg.dotsPerCycle) ∨
        ¬ (l.cfg.regBase.toNat % 8 = 0) →
      exec (.reset l) s = .refused .illFormedLaunch)

/-! ### The driver -/

/-- VBL_SET (41_dot_driver.md R186): it sets `vblank`, and `nmi_pending` if the enable is 1, and changes nothing else; its
position is dot 1 of the vblank scanline 0 and no other, whether or not rendering is enabled. -/
def Obligations.VblankSetAtScanlineZeroDotOne : Prop :=
  (∀ s : State, s.halted = false →
    exec .vblSet s = .next { s with
      vblank := true
      nmiPending := if s.ctrl.getLsbD 7 = true then true else s.nmiPending
      reply := .none }) ∧
  (∀ (s : State) (ops : List Instr), s.Inv → 0 < s.cfg.vblankLines → s.microOps = .ok ops →
    (Instr.vblSet ∈ ops ↔ s.scanline = 0 ∧ s.dot = 1))

/-- The vblank scanlines: a DOT there sets `vblank` and perhaps `nmi_pending` at scanline 0, dot 1, and does nothing else
but advance (41_dot_driver.md section 4, derived there; the idle dots are the spec's decision D32). -/
def Obligations.VblankLinesOnlySetTheFlag : Prop :=
  ∀ s : State, s.Inv → s.halted = false → s.scanline < s.cfg.vblankLines →
    exec .dot s = .next { s with
      vblank := if s.scanline = 0 ∧ s.dot = 1 then true else s.vblank
      nmiPending := if s.scanline = 0 ∧ s.dot = 1 ∧ s.ctrl.getLsbD 7 = true then true else s.nmiPending
      dot := if s.dot = 340 then 0 else s.dot + 1
      scanline := if s.dot = 340 then s.scanline + 1 else s.scanline
      reply := .none }

/-- FLAGS_CLR (41_dot_driver.md section 3; the order within the dot is the spec's decision D13): the three status flags
are cleared and nothing else changes; it is the first micro-operation of the pre-render scanline's dot 1, whether or not
rendering is enabled. -/
def Obligations.FlagsClearedAtThePreRenderLine : Prop :=
  (∀ s : State, s.halted = false →
    exec .flagsClr s = .next { s with vblank := false, sprite0Hit := false, spriteOverflow := false, reply := .none }) ∧
  (∀ s : State, s.Inv → s.scanline = s.cfg.vblankLines → s.dot = 1 →
    ∃ ops, s.microOps = .ok (.flagsClr :: ops)) ∧
  (∀ s : State, s.Inv → s.halted = false → s.scanline = s.cfg.vblankLines → s.dot = 1 →
    ∃ t : State, exec .dot s = .next t ∧ t.vblank = false ∧ t.sprite0Hit = false ∧ t.spriteOverflow = false ∧
      t.nmiPending = s.nmiPending ∧ t.w = s.w)

/-- The post-render scanlines: FRAME_DONE hands the frame buffer over at dot 0 of the first of them, and the DOTs there do
nothing else but advance (the event without a condition is the spec's decision D30). IDLE changes nothing. -/
def Obligations.FrameDoneAtTheFirstPostRenderDot : Prop :=
  (∀ s : State, s.halted = false →
    exec .frameDone s = .next { s with frames := s.fb :: s.frames, reply := .none }) ∧
  (∀ (s : State) (p : BitVec 2) (d : BitVec 9), s.halted = false →
    exec (.idle p d) s = .next { s with reply := .none }) ∧
  (∀ s : State, s.Inv → s.halted = false → s.cfg.vblankLines + s.cfg.visibleLines < s.scanline →
    exec .dot s = .next { s with
      frames := if s.scanline = s.cfg.vblankLines + s.cfg.visibleLines + 1 ∧ s.dot = 0 then s.fb :: s.frames
        else s.frames
      dot := if s.dot = 340 then 0 else s.dot + 1
      scanline :=
        if s.dot = 340 then (if s.scanline + 1 = s.cfg.totalScanlines then 0 else s.scanline + 1) else s.scanline
      reply := .none })

/-- A DOT performs the micro-operations of its position one after the other, in the order of the sequencer's list, and then
advances (41_dot_driver.md section 2; acting on the position held on entry is the spec's decision D12). -/
def Obligations.DotPerformsItsMicroOperationsInOrder : Prop :=
  ∀ (s : State) (ops : List Instr), s.Inv → s.halted = false → s.microOps = .ok ops →
    ∃ u : State,
      ops.foldlM (fun r i => match exec i r with | .next r' => some r' | _ => none) { s with reply := .none } = some u ∧
      exec .dot s = .next u.advance

/-- A DOT completes, is no fatal, and moves the position on by one dot: 340 is followed by dot 0 of the next scanline, the
last scanline by scanline 0 (no dot is ever skipped, the spec's decision D31). -/
def Obligations.DotAdvancesThePosition : Prop :=
  ∀ s : State, s.Inv → s.halted = false →
    ∃ t : State, exec .dot s = .next t ∧ t.halted = false ∧
      t.dot = (if s.dot = 340 then 0 else s.dot + 1) ∧
      t.scanline =
        (if s.dot = 340 then (if s.scanline + 1 = s.cfg.totalScanlines then 0 else s.scanline + 1) else s.scanline)

/-- A CYCLE completes, counts modulo the extra-dot period, and is then `n` DOTs one after the other: `DOTS_PER_CYCLE`, one
more each time the count comes round to 0 (the extra dot is the spec's decision D42; for the tabulated standard `n` is 3).
The position moves on by these `n` dots. -/
def Obligations.CycleRunsItsDots : Prop :=
  ∀ s : State, s.Inv → s.halted = false →
    let cycMod' := if 0 < s.cfg.extraDotPeriod then (s.cycMod + 1) % s.cfg.extraDotPeriod else s.cycMod
    let n := s.cfg.dotsPerCycle + (if 0 < s.cfg.extraDotPeriod ∧ cycMod' = 0 then 1 else 0)
    ∃ t : State,
      (List.replicate n Instr.dot).foldlM (fun r i => match exec i r with | .next r' => some r' | _ => none)
        { s with cycMod := cycMod', reply := .none } = some t ∧
      exec .cycle s = .next t ∧ t.halted = false ∧ t.cycMod = cycMod' ∧
      t.scanline * 341 + t.dot = (s.scanline * 341 + s.dot + n) % (s.cfg.totalScanlines * 341)

/-- At a visible dot whose group ends there, the pixel is composited from the shift buffer as it was before the load, and
the load happens all the same (the order is the spec's decision D13). -/
def Obligations.PixelReadsTheBufferBeforeTheLoad : Prop :=
  ∀ s : State, s.Inv → s.halted = false → s.cfg.vblankLines < s.scanline →
    s.scanline ≤ s.cfg.vblankLines + s.cfg.visibleLines → renderingEnabled s.mask = true →
    1 ≤ s.dot → s.dot ≤ 256 → s.dot % 8 = 0 →
    ∃ p l t : State, exec (.pixel (BitVec.ofNat 9 s.dot)) s = .next p ∧ exec (.loadIncx 1#1 0#6) s = .next l ∧
      exec .dot s = .next t ∧ t.fb = p.fb ∧ t.sprite0Hit = p.sprite0Hit ∧ t.bgbuf = l.bgbuf

/-! ### The background fetch pipeline -/

/-- FETCH_NT: the byte at `0x2000 | (v & 0x0FFF)` goes into its latch, and nothing else changes. It is the byte `v[9:0]` of
the nametable bank that `v[11]` selects under Horizontal mirroring and `v[10]` under Vertical (20_memory.md section 1; which
nametables share a bank is the spec's decision D17). -/
def Obligations.NametableFetch : Prop :=
  ∀ (s : State) (p : BitVec 1) (d : BitVec 6), s.halted = false → s.cfg.mirroring ≠ .fourScreen →
    ∃ b, s.vramRead (0x2000#15 ||| (s.v &&& 0x0FFF#15)) = .ok b ∧
      exec (.fetchNt p d) s = .next { s with ntLatch := b, reply := .none } ∧
      (s.cfg.mirroring = .horizontal →
        b = s.nt.read (1024 * (s.v.extractLsb' 11 1).toNat + (s.v.extractLsb' 0 10).toNat)) ∧
      (s.cfg.mirroring = .vertical →
        b = s.nt.read (1024 * (s.v.extractLsb' 10 1).toNat + (s.v.extractLsb' 0 10).toNat))

/-- FETCH_AT: the attribute byte of the 4x4-tile block of `v`, its quadrant's two bits, shifted left by 2, go into the
latch (the layout is the spec's decision D16). -/
def Obligations.AttributeFetch : Prop :=
  ∀ (s : State) (p : BitVec 1) (d : BitVec 6), s.halted = false → s.cfg.mirroring ≠ .fourScreen →
    ∃ (a : VAddr) (b : Byte),
      a.toNat = 0x23C0 + 0x400 * (s.v.extractLsb' 10 2).toNat + 8 * (s.v.extractLsb' 7 3).toNat +
        (s.v.extractLsb' 2 3).toNat ∧
      s.vramRead a = .ok b ∧
      exec (.fetchAt p d) s = .next { s with
        atLatch := b.extractLsb' (4 * (s.v.extractLsb' 6 1).toNat + 2 * (s.v.extractLsb' 1 1).toNat) 2 ++ 0#2
        reply := .none }

/-- FETCH_LO and FETCH_HI: the two plane bytes of row `v[14:12]` of tile `nt_latch`, from the table Control selects, read
from the cartridge, go into their latches, and nothing else changes (Control's bit is the spec's decision D3). -/
def Obligations.PatternFetches : Prop :=
  ∀ (s : State) (p : BitVec 1) (d : BitVec 6), s.halted = false →
    let a := (if s.ctrl.getLsbD 4 then 0x1000 else 0) + 16 * s.ntLatch.toNat + (s.v.extractLsb' 12 3).toNat
    exec (.fetchLo p d) s = .next { s with ptLo := s.chr.read a, reply := .none } ∧
    exec (.fetchHi p d) s = .next { s with ptHi := s.chr.read (a + 8), reply := .none }

/-- LOAD_INCX moves the newer group up and packs the fetched tile into the lower half: pixel `j` from bit `7 - j` of the
plane bytes, with the palette of the attribute latch (the bit order is the spec's decision D15); only `bgbuf` and `v`
change. -/
def Obligations.LoadPacksTheFetchedTile : Prop :=
  ∀ (s : State) (p : BitVec 1) (d : BitVec 6), s.halted = false →
    ∃ t : State, exec (.loadIncx p d) s = .next t ∧ t.reply = .none ∧
      { t with bgbuf := s.bgbuf, v := s.v, reply := s.reply } = s ∧
      t.bgbuf.extractLsb' 32 32 = s.bgbuf.extractLsb' 0 32 ∧
      (∀ j, j < 8 → t.bgbuf.extractLsb' (28 - 4 * j) 4 =
        s.atLatch ||| (0#2 ++ BitVec.ofBool (s.ptHi.getLsbD (7 - j)) ++ BitVec.ofBool (s.ptLo.getLsbD (7 - j))))

/-- `IncX` (42_background_fetch.md section 3; that bit 10 is the horizontal bit is 10_state.md's general knowledge), as
LOAD_INCX performs it: coarse-X 31 wraps to 0 and flips the horizontal nametable bit, any other goes up by one without a
flip; no other bit of `v` changes. -/
def Obligations.CoarseXIncrement : Prop :=
  ∀ (s t : State) (p : BitVec 1) (d : BitVec 6), s.halted = false → exec (.loadIncx p d) s = .next t →
    (s.v.extractLsb' 0 5 = 31#5 → t.v.extractLsb' 0 5 = 0#5 ∧ t.v.getLsbD 10 = !s.v.getLsbD 10) ∧
    (s.v.extractLsb' 0 5 ≠ 31#5 →
      t.v.extractLsb' 0 5 = s.v.extractLsb' 0 5 + 1#5 ∧ t.v.getLsbD 10 = s.v.getLsbD 10) ∧
    t.v.extractLsb' 5 5 = s.v.extractLsb' 5 5 ∧ t.v.extractLsb' 11 4 = s.v.extractLsb' 11 4

/-- INC_Y: fine-Y counts to 7, then coarse-Y goes up, 29 to 0 with a flip of the vertical nametable bit, 30 to 31 and 31 to
0 without (the last two are the spec's decision D40); coarse-X and the horizontal bit stay, and only `v` changes. -/
def Obligations.VerticalIncrement : Prop :=
  ∀ (s : State) (p : BitVec 1), s.halted = false →
    ∃ v' : VAddr, exec (.incY p) s = .next { s with v := v', reply := .none } ∧
      v'.extractLsb' 0 5 = s.v.extractLsb' 0 5 ∧ v'.getLsbD 10 = s.v.getLsbD 10 ∧
      v'.extractLsb' 12 3 = s.v.extractLsb' 12 3 + 1#3 ∧
      (s.v.extractLsb' 12 3 ≠ 7#3 → v'.extractLsb' 5 5 = s.v.extractLsb' 5 5 ∧ v'.getLsbD 11 = s.v.getLsbD 11) ∧
      (s.v.extractLsb' 12 3 = 7#3 → s.v.extractLsb' 5 5 = 29#5 →
        v'.extractLsb' 5 5 = 0#5 ∧ v'.getLsbD 11 = !s.v.getLsbD 11) ∧
      (s.v.extractLsb' 12 3 = 7#3 → s.v.extractLsb' 5 5 ≠ 29#5 →
        v'.extractLsb' 5 5 = s.v.extractLsb' 5 5 + 1#5 ∧ v'.getLsbD 11 = s.v.getLsbD 11)

/-- COPY_H copies coarse-X and the horizontal nametable bit of `t` into `v`, COPY_V all the other bits; only `v` changes
(which bits are which follows from the field layout, 10_state.md section 1). -/
def Obligations.ScrollCopies : Prop :=
  (∀ (s : State) (p : BitVec 1), s.halted = false →
    ∃ v' : VAddr, exec (.copyH p) s = .next { s with v := v', reply := .none } ∧
      v'.extractLsb' 0 5 = s.t.extractLsb' 0 5 ∧ v'.getLsbD 10 = s.t.getLsbD 10 ∧
      v'.extractLsb' 5 5 = s.v.extractLsb' 5 5 ∧ v'.extractLsb' 11 4 = s.v.extractLsb' 11 4) ∧
  (∀ (s : State) (d : BitVec 9), s.halted = false →
    ∃ v' : VAddr, exec (.copyV d) s = .next { s with v := v', reply := .none } ∧
      v'.extractLsb' 0 5 = s.v.extractLsb' 0 5 ∧ v'.getLsbD 10 = s.v.getLsbD 10 ∧
      v'.extractLsb' 5 5 = s.t.extractLsb' 5 5 ∧ v'.extractLsb' 11 4 = s.t.extractLsb' 11 4)

/-! ### The sprite evaluator -/

/-- SPR_EVAL on the pre-render scanline (target row 0) or a visible one (target row one more than its screen row) selects
the first eight primary sprites in range of the target row, in primary order, whole entries; the slot
after them holds the Y byte of sprite 63, if that one is out of range, and every other byte 0xFF; the slot-0 flag says
whether slot 0 is primary sprite 0 (the cleared table is the spec's decision D19, the row's coordinates D18). -/
def Obligations.EvaluationSelectsTheFirstEight : Prop :=
  ∀ (s : State) (p : BitVec 1), s.halted = false →
    s.cfg.vblankLines ≤ s.scanline → s.scanline ≤ s.cfg.vblankLines + s.cfg.visibleLines →
    let row := if s.scanline = s.cfg.vblankLines then 0 else s.scanline - (s.cfg.vblankLines + 1) + 1
    s.targetRow = .ok row ∧
    let hits := (List.range 64).filter
      (fun i => decide ((s.oam.read (4 * i)).toNat ≤ row) && decide (row < (s.oam.read (4 * i)).toNat + 8))
    ∃ t : State, exec (.sprEval p) s = .next t ∧ t.reply = .none ∧
      { t with sec := s.sec, slot0IsSprite0 := s.slot0IsSprite0, spriteOverflow := s.spriteOverflow,
               reply := s.reply } = s ∧
      (∀ k j, k < min 8 hits.length → j < 4 → t.sec.read (4 * k + j) = s.oam.read (4 * hits.getD k 0 + j)) ∧
      (hits.length < 8 → t.sec.read (4 * hits.length) = (if 63 ∈ hits then 0xFF#8 else s.oam.read 252) ∧
        ∀ a, 4 * hits.length < a → a < 32 → t.sec.read a = 0xFF#8) ∧
      t.slot0IsSprite0 = decide (hits.head? = some 0)

/-- The overflow scan (43_sprite_evaluator.md R245): with eight slots filled, the entries after the eighth match are read
at the byte offsets 0, 1, 2, 3, 0, ..., and the flag is set exactly when one of these bytes is in range; it is never
cleared here, with fewer than eight matches it is untouched, and the scan writes nothing to the secondary table.
`targetRow` is the row of EvaluationSelectsTheFirstEight. -/
def Obligations.OverflowScanCyclesItsOffset : Prop :=
  ∀ (s t : State) (p : BitVec 1) (row : Nat), s.halted = false → s.targetRow = .ok row →
    exec (.sprEval p) s = .next t →
    let hits := (List.range 64).filter (fun i => inRange row (s.oam.read (4 * i)))
    (hits.length < 8 → t.spriteOverflow = s.spriteOverflow) ∧
    (8 ≤ hits.length → (t.spriteOverflow = true ↔
      s.spriteOverflow = true ∨
        ∃ q, hits.getD 7 0 + 1 + q < 64 ∧ inRange row (s.oam.read (4 * (hits.getD 7 0 + 1 + q) + q % 4)) = true)) ∧
    t.sec = (evalFill s.oam row).sec

/-- After SPR_EVAL for a row, the slots in range of that row are exactly the filled ones, which are the first ones: as many
as there are primary sprites in range, at most eight (43_sprite_evaluator.md R246, derived there; the cleared table is the
spec's decision D19, the row's coordinates D18). -/
def Obligations.FilledSlotsAreTheOnesInRange : Prop :=
  ∀ (s t : State) (p : BitVec 1), s.halted = false →
    s.cfg.vblankLines ≤ s.scanline → s.scanline ≤ s.cfg.vblankLines + s.cfg.visibleLines → s.cfg.visibleLines ≤ 240 →
    exec (.sprEval p) s = .next t →
    let row := if s.scanline = s.cfg.vblankLines then 0 else s.scanline - (s.cfg.vblankLines + 1) + 1
    let hits := (List.range 64).filter (fun i => inRange row (s.oam.read (4 * i)))
    (evalFill s.oam row).n = min 8 hits.length ∧
    ∀ k, k < 8 → ((t.sec.read (4 * k)).toNat ≤ row ∧ row < (t.sec.read (4 * k)).toNat + 8 ↔ k < min 8 hits.length)

/-! ### The pixel compositor -/

/-- PIXEL writes one pixel, the colour of the winning palette index, and may set the sprite-0 hit; every other pixel and
the rest of the state stay. The background nibble is the shift buffer's at the column's place in its group plus fine-X,
or 0 when the layer is off or clipped; the choice is the priority table's (the indexing, the index layout and the priority
bit are the spec's decisions D14, D21, D6). -/
def Obligations.PixelWritesTheWinningColour : Prop :=
  ∀ (s : State) (d : BitVec 9), s.halted = false → s.cfg.mirroring ≠ .fourScreen → Frame.wf s.fb = true →
    1 ≤ d.toNat → d.toNat ≤ 256 →
    s.cfg.vblankLines < s.scanline → s.scanline ≤ s.cfg.vblankLines + s.cfg.visibleLines →
    let col := d.toNat - 1
    let row := s.scanline - (s.cfg.vblankLines + 1)
    let bg : BitVec 4 := if s.mask.getLsbD 3 = false ∨ (col < 8 ∧ s.mask.getLsbD 1 = false) then 0#4
      else s.bgbuf.extractLsb' (60 - 4 * (col % 8 + s.x.toNat)) 4
    ∃ (sp : Option SpritePixel) (t : State), spritePixel s col row = .ok sp ∧ exec (.pixel d) s = .next t ∧
      t.reply = .none ∧
      { t with fb := s.fb, sprite0Hit := s.sprite0Hit, reply := s.reply } = s ∧
      (let idx : BitVec 5 := match sp with
        | none => if bg.extractLsb' 0 2 = 0#2 then 0#5 else bg.setWidth 5
        | some q => if bg.extractLsb' 0 2 = 0#2 ∨ q.attr.getLsbD 5 = false then 1#1 ++ q.attr.extractLsb' 0 2 ++ q.colour
          else bg.setWidth 5
       ∀ y x, t.fb.read y x =
        if y = row ∧ x = col then s.cfg.rgbLut[(s.pal.read idx.toNat).toNat % 64]'(Nat.mod_lt _ (by decide))
        else s.fb.read y x)

/-- The sprite pixel is the first of the eight slots that is active (the pixel's row and column lie within eight of the
slot's Y and X bytes, over the integers) and not transparent, whatever its priority bit; with the layer off or clipped, or
no such slot, there is none (ignoring unfilled slots by their Y is the spec's decision D19). -/
def Obligations.FirstOpaqueSlotWins : Prop :=
  ∀ (s : State) (col row : Nat), s.cfg.mirroring ≠ .fourScreen →
    let opaqueAt (k : Nat) (c : BitVec 2) : Prop :=
      ((s.sec.read (4 * k)).toNat ≤ row ∧ row < (s.sec.read (4 * k)).toNat + 8) ∧
      ((s.sec.read (4 * k + 3)).toNat ≤ col ∧ col < (s.sec.read (4 * k + 3)).toNat + 8) ∧
      slotColour s k col row = .ok c ∧ c ≠ 0#2
    (s.mask.getLsbD 4 = false ∨ (col < 8 ∧ s.mask.getLsbD 2 = false) → spritePixel s col row = .ok none) ∧
    (s.mask.getLsbD 4 = true → (col < 8 → s.mask.getLsbD 2 = true) →
      (spritePixel s col row = .ok none ∧ ∀ k, k < 8 → ∀ c, ¬ opaqueAt k c) ∨
      ∃ q : SpritePixel, spritePixel s col row = .ok (some q) ∧ q.slot < 8 ∧ opaqueAt q.slot q.colour ∧
        q.attr = s.sec.read (4 * q.slot + 2) ∧ ∀ k, k < q.slot → ∀ c, ¬ opaqueAt k c)

/-- The colour of an active slot: its tile's two plane bytes, read from the cartridge at the pixel's own dot, at the row and
the column inside the sprite, each reversed under its flip bit (the time of the read is the spec's decision D20, the bits
of the attribute byte D6). -/
def Obligations.SpriteColourComesFromItsTile : Prop :=
  ∀ (s : State) (k col row : Nat),
    (s.sec.read (4 * k)).toNat ≤ row → row < (s.sec.read (4 * k)).toNat + 8 →
    (s.sec.read (4 * k + 3)).toNat ≤ col → col < (s.sec.read (4 * k + 3)).toNat + 8 →
    let attr := s.sec.read (4 * k + 2)
    let r := row - (s.sec.read (4 * k)).toNat
    let c := col - (s.sec.read (4 * k + 3)).toNat
    let r' := if attr.getLsbD 7 then 7 - r else r
    let c' := if attr.getLsbD 6 then 7 - c else c
    let a := (if s.ctrl.getLsbD 3 then 0x1000 else 0) + 16 * (s.sec.read (4 * k + 1)).toNat + r'
    slotColour s k col row =
      .ok (BitVec.ofBool ((s.chr.read (a + 8)).getLsbD (7 - c')) ++ BitVec.ofBool ((s.chr.read a).getLsbD (7 - c')))

/-- The sprite-0 hit: PIXEL sets it exactly when the background pixel is opaque, the sprite pixel comes from slot 0 and
slot 0 is primary sprite 0, whichever of the two is then shown; it never clears it (no further condition, the spec's
decision D22). -/
def Obligations.SpriteZeroHit : Prop :=
  ∀ (s t : State) (d : BitVec 9) (row : Nat) (sp : Option SpritePixel), s.halted = false → s.screenRow = .ok row →
    1 ≤ d.toNat → d.toNat ≤ 256 → spritePixel s (d.toNat - 1) row = .ok sp → s.cfg.mirroring ≠ .fourScreen →
    exec (.pixel d) s = .next t →
    (t.sprite0Hit = true ↔ s.sprite0Hit = true ∨
      (s.slot0IsSprite0 = true ∧ (bgNibble s (d.toNat - 1)).extractLsb' 0 2 ≠ 0#2 ∧ ∃ q, sp = some q ∧ q.slot = 0))

/-- With rendering disabled every PIXEL writes the colour of palette cell 0 and sets no hit (44_pixel_compositor.md section
4, derived there). -/
def Obligations.DisabledRenderingShowsTheUniversalColour : Prop :=
  ∀ (s : State) (d : BitVec 9), s.halted = false → s.mask.getLsbD 3 = false → s.mask.getLsbD 4 = false →
    1 ≤ d.toNat → d.toNat ≤ 256 →
    s.cfg.vblankLines < s.scanline → s.scanline ≤ s.cfg.vblankLines + s.cfg.visibleLines →
    exec (.pixel d) s = .next { s with
      fb := s.fb.write (s.scanline - (s.cfg.vblankLines + 1)) (d.toNat - 1)
        (s.cfg.rgbLut[(s.pal.read 0).toNat % 64]'(Nat.mod_lt _ (by decide)))
      reply := .none }

/-! ### The whole machine -/

/-- The invariant holds right after reset (that no fault code is held while not halted is the model's choice, log 19). -/
def Obligations.InvariantAtReset : Prop := State.reset.Inv

/-- Every step keeps the invariant: the configuration stays a supported one, the counters in range, bit 5 of Control clear,
the attribute latch `pal ++ 0b00`, the memories in canonical form and of their sizes, a fault code held exactly while
halted (that none is held otherwise is the model's choice, log 19). -/
def Obligations.StepKeepsTheInvariant : Prop :=
  ∀ s t : State, s.Inv → step s = .next t → t.Inv

/-- From every state that meets the invariant, a step never stops in a fault and never raises F4 (60_exceptions.md section
1: F4 is unreachable); it is refused only for a request that does not decode or an ill-formed launch. -/
def Obligations.StepNeverFaultsNorRaisesF4 : Prop :=
  ∀ s : State, s.Inv →
    (∀ f, step s ≠ .fault f) ∧
    (∀ t, step s = .next t → s.faultCode ≠ some .f4 → t.faultCode ≠ some .f4) ∧
    (∀ r, step s = .refused r → r = .illFormedLaunch ∨ ∃ e, r = .undecodable e)

/-- Which operations can change a register (10_state.md, the "Written by" of each): fine-X, the latch, the cursor, the read
buffer, Control, Mask, the temporary address (by WR_CONTROL under `CTRL_NT_TO_T` only, the spec's decision D7), the
configuration, and the primary sprite table. -/
def Obligations.RegistersHaveTheirWriters : Prop :=
  ∀ (i : Instr) (s t : State), exec i s = .next t → (∀ l, i ≠ .reset l) →
    (t.x ≠ s.x → ∃ d, i = .wrScroll1 d) ∧
    (t.w ≠ s.w → i = .rdStatus ∨ ∃ d, i = .wrScroll1 d ∨ i = .wrScroll2 d ∨ i = .wrAddr1 d ∨ i = .wrAddr2 d) ∧
    (t.oamaddr ≠ s.oamaddr → ∃ d, i = .wrOamaddr d ∨ i = .wrOamdata d) ∧
    (t.rbuf ≠ s.rbuf → i = .rdData) ∧
    (t.ctrl ≠ s.ctrl → ∃ d, i = .wrControl d) ∧
    (t.mask ≠ s.mask → ∃ d, i = .wrMask d) ∧
    (t.t ≠ s.t → ∃ d, i = .wrScroll1 d ∨ i = .wrScroll2 d ∨ i = .wrAddr1 d ∨ i = .wrAddr2 d ∨
      (i = .wrControl d ∧ s.cfg.ctrlNtToT = true)) ∧
    t.cfg = s.cfg ∧
    (t.oam ≠ s.oam → (∃ d, i = .wrOamdata d) ∨ ∃ bs, i = .oamdma bs)

/-- Which operations can change the memories, the render registers and the pipeline (10_state.md, the "Written by" of
each; the cartridge's contract is the spec's decision D35): no sequencer step touches the nametables, the palette or the
cartridge. DOT and CYCLE perform the micro-operations. -/
def Obligations.MemoriesHaveTheirWriters : Prop :=
  ∀ (i : Instr) (s t : State), exec i s = .next t → (∀ l, i ≠ .reset l) →
    let stepped := i = .dot ∨ i = .cycle
    (t.nt ≠ s.nt → ∃ d, i = .wrData d) ∧
    (t.pal ≠ s.pal → ∃ d, i = .wrData d) ∧
    (t.chr ≠ s.chr → s.chrWritable = true ∧ ∃ d, i = .wrData d) ∧
    t.chrWritable = s.chrWritable ∧ t.pending = s.pending ∧
    (t.fb ≠ s.fb → stepped ∨ ∃ d, i = .pixel d) ∧
    (t.sec ≠ s.sec ∨ t.slot0IsSprite0 ≠ s.slot0IsSprite0 → stepped ∨ ∃ p, i = .sprEval p) ∧
    (t.bgbuf ≠ s.bgbuf → stepped ∨ ∃ p d, i = .loadIncx p d) ∧
    (t.ntLatch ≠ s.ntLatch → stepped ∨ ∃ p d, i = .fetchNt p d) ∧
    (t.atLatch ≠ s.atLatch → stepped ∨ ∃ p d, i = .fetchAt p d) ∧
    (t.ptLo ≠ s.ptLo → stepped ∨ ∃ p d, i = .fetchLo p d) ∧
    (t.ptHi ≠ s.ptHi → stepped ∨ ∃ p d, i = .fetchHi p d) ∧
    (t.frames ≠ s.frames → stepped ∨ i = .frameDone) ∧
    (t.scanline ≠ s.scanline ∨ t.dot ≠ s.dot → stepped) ∧
    (t.cycMod ≠ s.cycMod → i = .cycle) ∧
    (t.v ≠ s.v → stepped ∨ i = .rdData ∨ (∃ d, i = .wrData d ∨ i = .wrAddr2 d) ∨ (∃ d, i = .copyV d) ∨
      (∃ p d, i = .loadIncx p d) ∨ ∃ p, i = .incY p ∨ i = .copyH p)

/-- What can clear a flag: `nmi_pending` by NMIPOLL and RESET only (the spec's decision D24); `sprite0_hit` and
`sprite_overflow` by FLAGS_CLR and RESET, and by the DOT or CYCLE that performs FLAGS_CLR, which is the one at, or the one
that passes, the pre-render scanline's dot 1; `vblank` by these and RD_STATUS. Nothing clears the halt; that not even RESET
does is the model's reading, log 5. -/
def Obligations.FlagsAreClearedOnlyByTheirClearers : Prop :=
  ∀ (i : Instr) (s t : State), exec i s = .next t →
    let cycMod' := if 0 < s.cfg.extraDotPeriod then (s.cycMod + 1) % s.cfg.extraDotPeriod else s.cycMod
    let n := s.cfg.dotsPerCycle + (if 0 < s.cfg.extraDotPeriod ∧ cycMod' = 0 then 1 else 0)
    let cleared := (s.vblank = true ∧ t.vblank = false) ∨ (s.sprite0Hit = true ∧ t.sprite0Hit = false) ∨
      (s.spriteOverflow = true ∧ t.spriteOverflow = false)
    (s.nmiPending = true → t.nmiPending = false → i = .nmipoll ∨ ∃ l, i = .reset l) ∧
    (s.sprite0Hit = true → t.sprite0Hit = false → i = .flagsClr ∨ i = .dot ∨ i = .cycle ∨ ∃ l, i = .reset l) ∧
    (s.spriteOverflow = true → t.spriteOverflow = false → i = .flagsClr ∨ i = .dot ∨ i = .cycle ∨ ∃ l, i = .reset l) ∧
    (s.vblank = true → t.vblank = false →
      i = .rdStatus ∨ i = .flagsClr ∨ i = .dot ∨ i = .cycle ∨ ∃ l, i = .reset l) ∧
    (s.Inv → i = .dot → cleared → s.scanline = s.cfg.vblankLines ∧ s.dot = 1) ∧
    (s.Inv → i = .cycle → cleared → ∃ k, k < n ∧
      (s.scanline * 341 + s.dot + k) % (s.cfg.totalScanlines * 341) = s.cfg.vblankLines * 341 + 1) ∧
    (s.halted = true → t.halted = true)

/-- What can set a flag (10_state.md sections 3 and 7, 60_exceptions.md section 2), from every state that meets the
invariant: `vblank` VBL_SET, at scanline 0, dot 1; `nmi_pending` VBL_SET with the enable at 1, and WR_CONTROL on an enable
edge while `vblank` is 1; `sprite0_hit` PIXEL, at a visible dot, with both layers enabled; `sprite_overflow` SPR_EVAL, at dot
256 of a rendering scanline with rendering enabled; the halt a fatal access, F2 at WR_CONTROL or RESET, F3 at OAMDMA, and no
DOT or CYCLE. A DOT sets what is set at its position, a CYCLE what is set at a position it passes. (Which bits enable is the
spec's decisions D3, D4; when rendering counts as enabled D10; the edge D23; the halt D28.) -/
def Obligations.FlagsAreSetOnlyByTheirSetters : Prop :=
  ∀ (i : Instr) (s t : State), s.Inv → exec i s = .next t →
    let V := s.cfg.vblankLines
    let L := s.cfg.visibleLines
    let cycMod' := if 0 < s.cfg.extraDotPeriod then (s.cycMod + 1) % s.cfg.extraDotPeriod else s.cycMod
    let n := s.cfg.dotsPerCycle + (if 0 < s.cfg.extraDotPeriod ∧ cycMod' = 0 then 1 else 0)
    let position (k : Nat) := (s.scanline * 341 + s.dot + k) % (s.cfg.totalScanlines * 341)
    let stepped (at_ : Nat → Nat → Prop) : Prop := (i = .dot ∧ at_ s.scanline s.dot) ∨
      (i = .cycle ∧ ∃ k, k < n ∧ at_ (position k / 341) (position k % 341))
    let bg := s.mask.getLsbD 3 = true
    let sprites := s.mask.getLsbD 4 = true
    (s.vblank = false → t.vblank = true → i = .vblSet ∨ stepped (fun l d => 0 < V ∧ l = 0 ∧ d = 1)) ∧
    (s.nmiPending = false → t.nmiPending = true →
      (s.ctrl.getLsbD 7 = true ∧ (i = .vblSet ∨ stepped (fun l d => 0 < V ∧ l = 0 ∧ d = 1))) ∨
      ∃ d, i = .wrControl d ∧ s.ctrl.getLsbD 7 = false ∧ d.getLsbD 7 = true ∧ s.vblank = true) ∧
    (s.sprite0Hit = false → t.sprite0Hit = true → bg ∧ sprites ∧
      ((∃ d, i = .pixel d) ∨ stepped (fun l d => V < l ∧ l ≤ V + L ∧ 1 ≤ d ∧ d ≤ 256))) ∧
    (s.spriteOverflow = false → t.spriteOverflow = true →
      (∃ p, i = .sprEval p) ∨ ((bg ∨ sprites) ∧ stepped (fun l d => V ≤ l ∧ l ≤ V + L ∧ d = 256))) ∧
    (s.halted = false → t.halted = true →
      i ∈ [Instr.rdControl, Instr.rdMask, Instr.rdOamaddr, Instr.rdScroll, Instr.rdAddr] ∨
      (∃ d, i = .wrStatus d ∨ (i = .wrControl d ∧ d.getLsbD 5 = true)) ∨
      (∃ bs, i = .oamdma bs ∧ bs.length ≠ 256) ∨
      ∃ l, i = .reset l ∧ (l.cfg.standard ≠ .std0 ∨ l.cfg.mirroring = .fourScreen))
end

