-- ==== Sys2Proof/Laws/Decode.lean ====
section
/-! SUPPORT. The decoder and the encoder. -/
namespace Sys2Proof

/-- Every BUS word has its row: no transaction inside the window is left undecoded (30_encoding.md R113). -/
theorem decodeBus_total (word : BitVec 5) (data : Byte) : ∃ i, decodeBus word data = .ok i := by
  have h : ∀ w : BitVec 5, (busTable.find? (fun r => w &&& r.mask == r.pattern)).isSome = true := by decide
  obtain ⟨r, hr⟩ := Option.isSome_iff_exists.mp (h word)
  exact ⟨r.make data, by simp [decodeBus, hr]⟩

/-- The rows of the BUS map do not overlap: every word has exactly one (30_encoding.md R113). -/
theorem busTable_one_row (word : BitVec 5) : (busTable.filter (fun r => word &&& r.mask == r.pattern)).length = 1 := by
  revert word
  decide

/-- A BUS word decodes to a bus operation: never to RESET, DOT, CYCLE, OAMDMA, NMIPOLL or a micro-operation. -/
theorem decodeBus_format {word : BitVec 5} {data : Byte} {i : Instr} (h : decodeBus word data = .ok i) :
    ∃ w' d', encode i = .bus w' d' := by
  unfold decodeBus at h
  split at h
  next r hr =>
    cases h
    have hm := List.mem_of_find?_eq_some hr
    simp only [busTable, List.cons_append, List.nil_append, List.mem_cons, List.not_mem_nil, or_false] at hm
    rcases hm with rfl | rfl | rfl | rfl | rfl | rfl | rfl | rfl | rfl | rfl | rfl | rfl | rfl | rfl | rfl | rfl | rfl |
      rfl <;> exact ⟨_, _, rfl⟩
  next => cases h

/-- A HOST code and its operand that decode are those of the operation (30_encoding.md R111). -/
theorem decodeHost_encode {code : BitVec 3} {arg : HostArg} {i : Instr} (h : decodeHost code arg = .ok i) :
    encode i = .host code arg := by
  unfold decodeHost at h
  split at h
  next hc => cases h; exact congrArg (Encoded.host · _) (BitVec.eq_of_toNat_eq hc.symm)
  next hc => cases h; exact congrArg (Encoded.host · _) (BitVec.eq_of_toNat_eq hc.symm)
  next hc => cases h; exact congrArg (Encoded.host · _) (BitVec.eq_of_toNat_eq hc.symm)
  next hc => cases h; exact congrArg (Encoded.host · _) (BitVec.eq_of_toNat_eq hc.symm)
  next hc => cases h; exact congrArg (Encoded.host · _) (BitVec.eq_of_toNat_eq hc.symm)
  next => split at h <;> cases h

end Sys2Proof
end

