-- ==== Sys2Proof/Laws/State.lean ====
section
/-! SUPPORT. One lemma per field for each named update of the state: taking a fatal, the advance of the position, a store
through the translator, the launch state. -/
namespace Sys2Proof.Machine

variable (s : State)

/-! ### Taking a fatal (60_exceptions.md R290) -/

@[simp] theorem raiseFatal_cfg (k : FaultCode) : (s.raiseFatal k).cfg = s.cfg := rfl
@[simp] theorem raiseFatal_v (k : FaultCode) : (s.raiseFatal k).v = s.v := rfl
@[simp] theorem raiseFatal_t (k : FaultCode) : (s.raiseFatal k).t = s.t := rfl
@[simp] theorem raiseFatal_x (k : FaultCode) : (s.raiseFatal k).x = s.x := rfl
@[simp] theorem raiseFatal_w (k : FaultCode) : (s.raiseFatal k).w = s.w := rfl
@[simp] theorem raiseFatal_scanline (k : FaultCode) : (s.raiseFatal k).scanline = s.scanline := rfl
@[simp] theorem raiseFatal_dot (k : FaultCode) : (s.raiseFatal k).dot = s.dot := rfl
@[simp] theorem raiseFatal_cycMod (k : FaultCode) : (s.raiseFatal k).cycMod = s.cycMod := rfl
@[simp] theorem raiseFatal_vblank (k : FaultCode) : (s.raiseFatal k).vblank = s.vblank := rfl
@[simp] theorem raiseFatal_sprite0Hit (k : FaultCode) : (s.raiseFatal k).sprite0Hit = s.sprite0Hit := rfl
@[simp] theorem raiseFatal_spriteOverflow (k : FaultCode) : (s.raiseFatal k).spriteOverflow = s.spriteOverflow := rfl
@[simp] theorem raiseFatal_nmiPending (k : FaultCode) : (s.raiseFatal k).nmiPending = s.nmiPending := rfl
@[simp] theorem raiseFatal_ctrl (k : FaultCode) : (s.raiseFatal k).ctrl = s.ctrl := rfl
@[simp] theorem raiseFatal_mask (k : FaultCode) : (s.raiseFatal k).mask = s.mask := rfl
@[simp] theorem raiseFatal_oamaddr (k : FaultCode) : (s.raiseFatal k).oamaddr = s.oamaddr := rfl
@[simp] theorem raiseFatal_oam (k : FaultCode) : (s.raiseFatal k).oam = s.oam := rfl
@[simp] theorem raiseFatal_sec (k : FaultCode) : (s.raiseFatal k).sec = s.sec := rfl
@[simp] theorem raiseFatal_slot0IsSprite0 (k : FaultCode) : (s.raiseFatal k).slot0IsSprite0 = s.slot0IsSprite0 := rfl
@[simp] theorem raiseFatal_bgbuf (k : FaultCode) : (s.raiseFatal k).bgbuf = s.bgbuf := rfl
@[simp] theorem raiseFatal_ntLatch (k : FaultCode) : (s.raiseFatal k).ntLatch = s.ntLatch := rfl
@[simp] theorem raiseFatal_atLatch (k : FaultCode) : (s.raiseFatal k).atLatch = s.atLatch := rfl
@[simp] theorem raiseFatal_ptLo (k : FaultCode) : (s.raiseFatal k).ptLo = s.ptLo := rfl
@[simp] theorem raiseFatal_ptHi (k : FaultCode) : (s.raiseFatal k).ptHi = s.ptHi := rfl
@[simp] theorem raiseFatal_rbuf (k : FaultCode) : (s.raiseFatal k).rbuf = s.rbuf := rfl
@[simp] theorem raiseFatal_nt (k : FaultCode) : (s.raiseFatal k).nt = s.nt := rfl
@[simp] theorem raiseFatal_pal (k : FaultCode) : (s.raiseFatal k).pal = s.pal := rfl
@[simp] theorem raiseFatal_fb (k : FaultCode) : (s.raiseFatal k).fb = s.fb := rfl
@[simp] theorem raiseFatal_chr (k : FaultCode) : (s.raiseFatal k).chr = s.chr := rfl
@[simp] theorem raiseFatal_chrWritable (k : FaultCode) : (s.raiseFatal k).chrWritable = s.chrWritable := rfl
@[simp] theorem raiseFatal_halted (k : FaultCode) : (s.raiseFatal k).halted = true := rfl
@[simp] theorem raiseFatal_faultCode (k : FaultCode) : (s.raiseFatal k).faultCode = some k := rfl
@[simp] theorem raiseFatal_reply (k : FaultCode) : (s.raiseFatal k).reply = .none := rfl
@[simp] theorem raiseFatal_frames (k : FaultCode) : (s.raiseFatal k).frames = s.frames := rfl
@[simp] theorem raiseFatal_pending (k : FaultCode) : (s.raiseFatal k).pending = s.pending := rfl

/-! ### The reply withdrawn -/

@[simp] theorem noReply_cfg : s.noReply.cfg = s.cfg := rfl
@[simp] theorem noReply_v : s.noReply.v = s.v := rfl
@[simp] theorem noReply_t : s.noReply.t = s.t := rfl
@[simp] theorem noReply_x : s.noReply.x = s.x := rfl
@[simp] theorem noReply_w : s.noReply.w = s.w := rfl
@[simp] theorem noReply_scanline : s.noReply.scanline = s.scanline := rfl
@[simp] theorem noReply_dot : s.noReply.dot = s.dot := rfl
@[simp] theorem noReply_cycMod : s.noReply.cycMod = s.cycMod := rfl
@[simp] theorem noReply_vblank : s.noReply.vblank = s.vblank := rfl
@[simp] theorem noReply_sprite0Hit : s.noReply.sprite0Hit = s.sprite0Hit := rfl
@[simp] theorem noReply_spriteOverflow : s.noReply.spriteOverflow = s.spriteOverflow := rfl
@[simp] theorem noReply_nmiPending : s.noReply.nmiPending = s.nmiPending := rfl
@[simp] theorem noReply_ctrl : s.noReply.ctrl = s.ctrl := rfl
@[simp] theorem noReply_mask : s.noReply.mask = s.mask := rfl
@[simp] theorem noReply_oamaddr : s.noReply.oamaddr = s.oamaddr := rfl
@[simp] theorem noReply_oam : s.noReply.oam = s.oam := rfl
@[simp] theorem noReply_sec : s.noReply.sec = s.sec := rfl
@[simp] theorem noReply_slot0IsSprite0 : s.noReply.slot0IsSprite0 = s.slot0IsSprite0 := rfl
@[simp] theorem noReply_bgbuf : s.noReply.bgbuf = s.bgbuf := rfl
@[simp] theorem noReply_ntLatch : s.noReply.ntLatch = s.ntLatch := rfl
@[simp] theorem noReply_atLatch : s.noReply.atLatch = s.atLatch := rfl
@[simp] theorem noReply_ptLo : s.noReply.ptLo = s.ptLo := rfl
@[simp] theorem noReply_ptHi : s.noReply.ptHi = s.ptHi := rfl
@[simp] theorem noReply_rbuf : s.noReply.rbuf = s.rbuf := rfl
@[simp] theorem noReply_nt : s.noReply.nt = s.nt := rfl
@[simp] theorem noReply_pal : s.noReply.pal = s.pal := rfl
@[simp] theorem noReply_fb : s.noReply.fb = s.fb := rfl
@[simp] theorem noReply_chr : s.noReply.chr = s.chr := rfl
@[simp] theorem noReply_chrWritable : s.noReply.chrWritable = s.chrWritable := rfl
@[simp] theorem noReply_halted : s.noReply.halted = s.halted := rfl
@[simp] theorem noReply_faultCode : s.noReply.faultCode = s.faultCode := rfl
@[simp] theorem noReply_reply : s.noReply.reply = .none := rfl
@[simp] theorem noReply_frames : s.noReply.frames = s.frames := rfl
@[simp] theorem noReply_pending : s.noReply.pending = s.pending := rfl

/-! ### The advance (41_dot_driver.md R182) -/

/-- The advance writes the two counters only. -/
theorem advance_frame : { s.advance with scanline := s.scanline, dot := s.dot } = s := by
  unfold State.advance; split <;> (try split) <;> rfl

@[simp] theorem advance_cfg : s.advance.cfg = s.cfg := by
  unfold State.advance; split <;> (try split) <;> rfl
@[simp] theorem advance_v : s.advance.v = s.v := by
  unfold State.advance; split <;> (try split) <;> rfl
@[simp] theorem advance_t : s.advance.t = s.t := by
  unfold State.advance; split <;> (try split) <;> rfl
@[simp] theorem advance_x : s.advance.x = s.x := by
  unfold State.advance; split <;> (try split) <;> rfl
@[simp] theorem advance_w : s.advance.w = s.w := by
  unfold State.advance; split <;> (try split) <;> rfl
@[simp] theorem advance_cycMod : s.advance.cycMod = s.cycMod := by
  unfold State.advance; split <;> (try split) <;> rfl
@[simp] theorem advance_vblank : s.advance.vblank = s.vblank := by
  unfold State.advance; split <;> (try split) <;> rfl
@[simp] theorem advance_sprite0Hit : s.advance.sprite0Hit = s.sprite0Hit := by
  unfold State.advance; split <;> (try split) <;> rfl
@[simp] theorem advance_spriteOverflow : s.advance.spriteOverflow = s.spriteOverflow := by
  unfold State.advance; split <;> (try split) <;> rfl
@[simp] theorem advance_nmiPending : s.advance.nmiPending = s.nmiPending := by
  unfold State.advance; split <;> (try split) <;> rfl
@[simp] theorem advance_ctrl : s.advance.ctrl = s.ctrl := by
  unfold State.advance; split <;> (try split) <;> rfl
@[simp] theorem advance_mask : s.advance.mask = s.mask := by
  unfold State.advance; split <;> (try split) <;> rfl
@[simp] theorem advance_oamaddr : s.advance.oamaddr = s.oamaddr := by
  unfold State.advance; split <;> (try split) <;> rfl
@[simp] theorem advance_oam : s.advance.oam = s.oam := by
  unfold State.advance; split <;> (try split) <;> rfl
@[simp] theorem advance_sec : s.advance.sec = s.sec := by
  unfold State.advance; split <;> (try split) <;> rfl
@[simp] theorem advance_slot0IsSprite0 : s.advance.slot0IsSprite0 = s.slot0IsSprite0 := by
  unfold State.advance; split <;> (try split) <;> rfl
@[simp] theorem advance_bgbuf : s.advance.bgbuf = s.bgbuf := by
  unfold State.advance; split <;> (try split) <;> rfl
@[simp] theorem advance_ntLatch : s.advance.ntLatch = s.ntLatch := by
  unfold State.advance; split <;> (try split) <;> rfl
@[simp] theorem advance_atLatch : s.advance.atLatch = s.atLatch := by
  unfold State.advance; split <;> (try split) <;> rfl
@[simp] theorem advance_ptLo : s.advance.ptLo = s.ptLo := by
  unfold State.advance; split <;> (try split) <;> rfl
@[simp] theorem advance_ptHi : s.advance.ptHi = s.ptHi := by
  unfold State.advance; split <;> (try split) <;> rfl
@[simp] theorem advance_rbuf : s.advance.rbuf = s.rbuf := by
  unfold State.advance; split <;> (try split) <;> rfl
@[simp] theorem advance_nt : s.advance.nt = s.nt := by
  unfold State.advance; split <;> (try split) <;> rfl
@[simp] theorem advance_pal : s.advance.pal = s.pal := by
  unfold State.advance; split <;> (try split) <;> rfl
@[simp] theorem advance_fb : s.advance.fb = s.fb := by
  unfold State.advance; split <;> (try split) <;> rfl
@[simp] theorem advance_chr : s.advance.chr = s.chr := by
  unfold State.advance; split <;> (try split) <;> rfl
@[simp] theorem advance_chrWritable : s.advance.chrWritable = s.chrWritable := by
  unfold State.advance; split <;> (try split) <;> rfl
@[simp] theorem advance_halted : s.advance.halted = s.halted := by
  unfold State.advance; split <;> (try split) <;> rfl
@[simp] theorem advance_faultCode : s.advance.faultCode = s.faultCode := by
  unfold State.advance; split <;> (try split) <;> rfl
@[simp] theorem advance_reply : s.advance.reply = s.reply := by
  unfold State.advance; split <;> (try split) <;> rfl
@[simp] theorem advance_frames : s.advance.frames = s.frames := by
  unfold State.advance; split <;> (try split) <;> rfl
@[simp] theorem advance_pending : s.advance.pending = s.pending := by
  unfold State.advance; split <;> (try split) <;> rfl

/-! ### A store through the translator (20_memory.md R75) -/

/-- A store through the translator writes the three memories behind it only. -/
theorem writeTarget_frame (b : Byte) (g : Target) :
    { s.writeTarget b g with nt := s.nt, pal := s.pal, chr := s.chr } = s := by
  cases g <;> simp only [State.writeTarget, State.cartWrite] <;> (try split) <;> rfl

@[simp] theorem writeTarget_cfg (b : Byte) (g : Target) : (s.writeTarget b g).cfg = s.cfg := by
  cases g <;> simp only [State.writeTarget, State.cartWrite] <;> (try split) <;> rfl
@[simp] theorem writeTarget_v (b : Byte) (g : Target) : (s.writeTarget b g).v = s.v := by
  cases g <;> simp only [State.writeTarget, State.cartWrite] <;> (try split) <;> rfl
@[simp] theorem writeTarget_t (b : Byte) (g : Target) : (s.writeTarget b g).t = s.t := by
  cases g <;> simp only [State.writeTarget, State.cartWrite] <;> (try split) <;> rfl
@[simp] theorem writeTarget_x (b : Byte) (g : Target) : (s.writeTarget b g).x = s.x := by
  cases g <;> simp only [State.writeTarget, State.cartWrite] <;> (try split) <;> rfl
@[simp] theorem writeTarget_w (b : Byte) (g : Target) : (s.writeTarget b g).w = s.w := by
  cases g <;> simp only [State.writeTarget, State.cartWrite] <;> (try split) <;> rfl
@[simp] theorem writeTarget_scanline (b : Byte) (g : Target) : (s.writeTarget b g).scanline = s.scanline := by
  cases g <;> simp only [State.writeTarget, State.cartWrite] <;> (try split) <;> rfl
@[simp] theorem writeTarget_dot (b : Byte) (g : Target) : (s.writeTarget b g).dot = s.dot := by
  cases g <;> simp only [State.writeTarget, State.cartWrite] <;> (try split) <;> rfl
@[simp] theorem writeTarget_cycMod (b : Byte) (g : Target) : (s.writeTarget b g).cycMod = s.cycMod := by
  cases g <;> simp only [State.writeTarget, State.cartWrite] <;> (try split) <;> rfl
@[simp] theorem writeTarget_vblank (b : Byte) (g : Target) : (s.writeTarget b g).vblank = s.vblank := by
  cases g <;> simp only [State.writeTarget, State.cartWrite] <;> (try split) <;> rfl
@[simp] theorem writeTarget_sprite0Hit (b : Byte) (g : Target) : (s.writeTarget b g).sprite0Hit = s.sprite0Hit := by
  cases g <;> simp only [State.writeTarget, State.cartWrite] <;> (try split) <;> rfl
@[simp] theorem writeTarget_spriteOverflow (b : Byte) (g : Target) : (s.writeTarget b g).spriteOverflow = s.spriteOverflow := by
  cases g <;> simp only [State.writeTarget, State.cartWrite] <;> (try split) <;> rfl
@[simp] theorem writeTarget_nmiPending (b : Byte) (g : Target) : (s.writeTarget b g).nmiPending = s.nmiPending := by
  cases g <;> simp only [State.writeTarget, State.cartWrite] <;> (try split) <;> rfl
@[simp] theorem writeTarget_ctrl (b : Byte) (g : Target) : (s.writeTarget b g).ctrl = s.ctrl := by
  cases g <;> simp only [State.writeTarget, State.cartWrite] <;> (try split) <;> rfl
@[simp] theorem writeTarget_mask (b : Byte) (g : Target) : (s.writeTarget b g).mask = s.mask := by
  cases g <;> simp only [State.writeTarget, State.cartWrite] <;> (try split) <;> rfl
@[simp] theorem writeTarget_oamaddr (b : Byte) (g : Target) : (s.writeTarget b g).oamaddr = s.oamaddr := by
  cases g <;> simp only [State.writeTarget, State.cartWrite] <;> (try split) <;> rfl
@[simp] theorem writeTarget_oam (b : Byte) (g : Target) : (s.writeTarget b g).oam = s.oam := by
  cases g <;> simp only [State.writeTarget, State.cartWrite] <;> (try split) <;> rfl
@[simp] theorem writeTarget_sec (b : Byte) (g : Target) : (s.writeTarget b g).sec = s.sec := by
  cases g <;> simp only [State.writeTarget, State.cartWrite] <;> (try split) <;> rfl
@[simp] theorem writeTarget_slot0IsSprite0 (b : Byte) (g : Target) : (s.writeTarget b g).slot0IsSprite0 = s.slot0IsSprite0 := by
  cases g <;> simp only [State.writeTarget, State.cartWrite] <;> (try split) <;> rfl
@[simp] theorem writeTarget_bgbuf (b : Byte) (g : Target) : (s.writeTarget b g).bgbuf = s.bgbuf := by
  cases g <;> simp only [State.writeTarget, State.cartWrite] <;> (try split) <;> rfl
@[simp] theorem writeTarget_ntLatch (b : Byte) (g : Target) : (s.writeTarget b g).ntLatch = s.ntLatch := by
  cases g <;> simp only [State.writeTarget, State.cartWrite] <;> (try split) <;> rfl
@[simp] theorem writeTarget_atLatch (b : Byte) (g : Target) : (s.writeTarget b g).atLatch = s.atLatch := by
  cases g <;> simp only [State.writeTarget, State.cartWrite] <;> (try split) <;> rfl
@[simp] theorem writeTarget_ptLo (b : Byte) (g : Target) : (s.writeTarget b g).ptLo = s.ptLo := by
  cases g <;> simp only [State.writeTarget, State.cartWrite] <;> (try split) <;> rfl
@[simp] theorem writeTarget_ptHi (b : Byte) (g : Target) : (s.writeTarget b g).ptHi = s.ptHi := by
  cases g <;> simp only [State.writeTarget, State.cartWrite] <;> (try split) <;> rfl
@[simp] theorem writeTarget_rbuf (b : Byte) (g : Target) : (s.writeTarget b g).rbuf = s.rbuf := by
  cases g <;> simp only [State.writeTarget, State.cartWrite] <;> (try split) <;> rfl
@[simp] theorem writeTarget_fb (b : Byte) (g : Target) : (s.writeTarget b g).fb = s.fb := by
  cases g <;> simp only [State.writeTarget, State.cartWrite] <;> (try split) <;> rfl
@[simp] theorem writeTarget_chrWritable (b : Byte) (g : Target) : (s.writeTarget b g).chrWritable = s.chrWritable := by
  cases g <;> simp only [State.writeTarget, State.cartWrite] <;> (try split) <;> rfl
@[simp] theorem writeTarget_halted (b : Byte) (g : Target) : (s.writeTarget b g).halted = s.halted := by
  cases g <;> simp only [State.writeTarget, State.cartWrite] <;> (try split) <;> rfl
@[simp] theorem writeTarget_faultCode (b : Byte) (g : Target) : (s.writeTarget b g).faultCode = s.faultCode := by
  cases g <;> simp only [State.writeTarget, State.cartWrite] <;> (try split) <;> rfl
@[simp] theorem writeTarget_reply (b : Byte) (g : Target) : (s.writeTarget b g).reply = s.reply := by
  cases g <;> simp only [State.writeTarget, State.cartWrite] <;> (try split) <;> rfl
@[simp] theorem writeTarget_frames (b : Byte) (g : Target) : (s.writeTarget b g).frames = s.frames := by
  cases g <;> simp only [State.writeTarget, State.cartWrite] <;> (try split) <;> rfl
@[simp] theorem writeTarget_pending (b : Byte) (g : Target) : (s.writeTarget b g).pending = s.pending := by
  cases g <;> simp only [State.writeTarget, State.cartWrite] <;> (try split) <;> rfl

/-! ### The launch state (10_state.md R48) -/

@[simp] theorem launch_cfg (l : Launch) : (State.launch l).cfg = l.cfg := rfl
@[simp] theorem launch_v (l : Launch) : (State.launch l).v = 0#15 := rfl
@[simp] theorem launch_t (l : Launch) : (State.launch l).t = 0#15 := rfl
@[simp] theorem launch_x (l : Launch) : (State.launch l).x = 0#3 := rfl
@[simp] theorem launch_w (l : Launch) : (State.launch l).w = false := rfl
@[simp] theorem launch_scanline (l : Launch) : (State.launch l).scanline = 0 := rfl
@[simp] theorem launch_dot (l : Launch) : (State.launch l).dot = 0 := rfl
@[simp] theorem launch_cycMod (l : Launch) : (State.launch l).cycMod = 0 := rfl
@[simp] theorem launch_vblank (l : Launch) : (State.launch l).vblank = false := rfl
@[simp] theorem launch_sprite0Hit (l : Launch) : (State.launch l).sprite0Hit = false := rfl
@[simp] theorem launch_spriteOverflow (l : Launch) : (State.launch l).spriteOverflow = false := rfl
@[simp] theorem launch_nmiPending (l : Launch) : (State.launch l).nmiPending = false := rfl
@[simp] theorem launch_ctrl (l : Launch) : (State.launch l).ctrl = 0x00#8 := rfl
@[simp] theorem launch_mask (l : Launch) : (State.launch l).mask = 0x00#8 := rfl
@[simp] theorem launch_oamaddr (l : Launch) : (State.launch l).oamaddr = 0x00#8 := rfl
@[simp] theorem launch_oam (l : Launch) : (State.launch l).oam = l.oam := rfl
@[simp] theorem launch_sec (l : Launch) : (State.launch l).sec = Memory.fromBytes 0 (List.replicate 32 0xFF#8) := rfl
@[simp] theorem launch_slot0IsSprite0 (l : Launch) : (State.launch l).slot0IsSprite0 = false := rfl
@[simp] theorem launch_bgbuf (l : Launch) : (State.launch l).bgbuf = 0#64 := rfl
@[simp] theorem launch_ntLatch (l : Launch) : (State.launch l).ntLatch = 0#8 := rfl
@[simp] theorem launch_atLatch (l : Launch) : (State.launch l).atLatch = 0#4 := rfl
@[simp] theorem launch_ptLo (l : Launch) : (State.launch l).ptLo = 0#8 := rfl
@[simp] theorem launch_ptHi (l : Launch) : (State.launch l).ptHi = 0#8 := rfl
@[simp] theorem launch_rbuf (l : Launch) : (State.launch l).rbuf = 0x00#8 := rfl
@[simp] theorem launch_nt (l : Launch) : (State.launch l).nt = l.nt := rfl
@[simp] theorem launch_pal (l : Launch) : (State.launch l).pal = l.pal := rfl
@[simp] theorem launch_fb (l : Launch) : (State.launch l).fb = l.fb := rfl
@[simp] theorem launch_chr (l : Launch) : (State.launch l).chr = l.chr := rfl
@[simp] theorem launch_chrWritable (l : Launch) : (State.launch l).chrWritable = l.chrWritable := rfl
@[simp] theorem launch_halted (l : Launch) : (State.launch l).halted = false := rfl
@[simp] theorem launch_faultCode (l : Launch) : (State.launch l).faultCode = none := rfl
@[simp] theorem launch_reply (l : Launch) : (State.launch l).reply = .none := rfl
@[simp] theorem launch_frames (l : Launch) : (State.launch l).frames = [] := rfl
@[simp] theorem launch_pending (l : Launch) : (State.launch l).pending = [] := rfl

end Sys2Proof.Machine
end

