-- ==== Sys2Proof/Laws/Store.lean ====
section
/-! SUPPORT. The laws of the sparse memories: reading after writing, and the canonical form. -/
namespace Sys2Proof

variable {α : Type}

@[simp] theorem Store.read_nil (fill : α) (a : Nat) : Store.read fill [] a = fill := rfl

theorem Store.canon_cons [DecidableEq α] {fill : α} {hi lo k : Nat} {x : α} {m : List (Nat × α)} :
    Store.canon fill hi lo ((k, x) :: m) = true ↔
      lo ≤ k ∧ k < hi ∧ x ≠ fill ∧ Store.canon fill hi (k + 1) m = true := by
  simp [Store.canon, and_assoc]

/-- A canonical form with a higher lower bound is one with a lower bound below it. -/
theorem Store.canon_mono [DecidableEq α] {fill : α} {hi lo lo' : Nat} {m : List (Nat × α)}
    (h : Store.canon fill hi lo m = true) (hle : lo' ≤ lo) : Store.canon fill hi lo' m = true := by
  cases m with
  | nil => rfl
  | cons c m =>
    obtain ⟨k, x⟩ := c
    rw [Store.canon_cons] at h ⊢
    exact ⟨Nat.le_trans hle h.1, h.2⟩

/-- Below its lower bound a canonical store lists nothing. -/
theorem Store.read_below [DecidableEq α] {fill : α} {hi : Nat} {m : List (Nat × α)} :
    ∀ {lo a : Nat}, Store.canon fill hi lo m = true → a < lo → Store.read fill m a = fill := by
  induction m with
  | nil => intros; rfl
  | cons c m ih =>
    obtain ⟨k, x⟩ := c
    intro lo a h ha
    rw [Store.canon_cons] at h
    have hne : a ≠ k := by omega
    simp only [Store.read, if_neg hne]
    exact ih h.2.2.2 (by omega)

/-- Reading after writing. -/
theorem Store.read_write [DecidableEq α] {fill : α} {hi a : Nat} {x : α} {m : List (Nat × α)} :
    ∀ {lo b : Nat}, Store.canon fill hi lo m = true →
      Store.read fill (Store.write fill m a x) b = if b = a then x else Store.read fill m b := by
  induction m with
  | nil =>
    intro lo b _
    by_cases hx : x = fill <;> simp [Store.write, Store.read, hx]
  | cons c m ih =>
    obtain ⟨k, y⟩ := c
    intro lo b h
    rw [Store.canon_cons] at h
    obtain ⟨-, -, -, hm⟩ := h
    unfold Store.write
    by_cases h1 : a < k
    · have hak : a ≠ k := by omega
      by_cases hx : x = fill
      · simp only [if_pos h1, if_pos hx]
        by_cases hb : b = a
        · subst hb
          simp [Store.read, hak, hx, Store.read_below hm (Nat.lt_succ_of_lt h1)]
        · simp [hb]
      · simp only [if_pos h1, if_neg hx, Store.read]
    · by_cases h2 : a = k
      · subst h2
        by_cases hx : x = fill
        · simp only [if_neg h1, if_true, if_pos hx]
          by_cases hb : b = a
          · subst hb
            simp [hx, Store.read_below hm (Nat.lt_succ_self b)]
          · simp [Store.read, hb]
        · simp only [if_neg h1, if_true, if_neg hx, Store.read]
          by_cases hb : b = a <;> simp [hb]
      · simp only [if_neg h1, if_neg h2, Store.read]
        by_cases hb : b = k
        · have : b ≠ a := by omega
          simp [hb, Ne.symm h2]
        · simp [hb, ih hm]

/-- Writing keeps the canonical form. -/
theorem Store.canon_write [DecidableEq α] {fill : α} {hi a : Nat} {x : α} {m : List (Nat × α)} :
    ∀ {lo : Nat}, Store.canon fill hi lo m = true → lo ≤ a → a < hi →
      Store.canon fill hi lo (Store.write fill m a x) = true := by
  induction m with
  | nil =>
    intro lo _ hlo hhi
    by_cases hx : x = fill <;> simp [Store.write, Store.canon, hx, hlo, hhi]
  | cons c m ih =>
    obtain ⟨k, y⟩ := c
    intro lo h hlo hhi
    have h' := h
    rw [Store.canon_cons] at h
    obtain ⟨h0, h3, h4, hm⟩ := h
    unfold Store.write
    by_cases h1 : a < k
    · by_cases hx : x = fill
      · simpa only [if_pos h1, if_pos hx] using h'
      · simp only [if_pos h1, if_neg hx, Store.canon_cons]
        exact ⟨hlo, hhi, hx, h1, h3, h4, hm⟩
    · by_cases h2 : a = k
      · subst h2
        by_cases hx : x = fill
        · simp only [if_neg h1, if_true, if_pos hx]
          exact Store.canon_mono hm (by omega)
        · simp only [if_neg h1, if_true, if_neg hx, Store.canon_cons]
          exact ⟨h0, h3, hx, hm⟩
      · simp only [if_neg h1, if_neg h2, Store.canon_cons]
        exact ⟨h0, h3, h4, ih hm (by omega) hhi⟩

/-- Two canonical stores that read alike are equal: equal memories are equal data. -/
theorem Store.ext_of_read [DecidableEq α] {fill : α} {hi : Nat} :
    ∀ {lo : Nat} {m m' : List (Nat × α)}, Store.canon fill hi lo m = true → Store.canon fill hi lo m' = true →
      (∀ a, Store.read fill m a = Store.read fill m' a) → m = m' := by
  intro lo m
  induction m generalizing lo with
  | nil =>
    intro m' _ h' hr
    cases m' with
    | nil => rfl
    | cons c m' =>
      obtain ⟨k, y⟩ := c
      rw [Store.canon_cons] at h'
      have := hr k
      simp [Store.read] at this
      exact absurd this.symm h'.2.2.1
  | cons c m ih =>
    obtain ⟨k, x⟩ := c
    intro m' h h' hr
    rw [Store.canon_cons] at h
    cases m' with
    | nil =>
      have := hr k
      simp [Store.read] at this
      exact absurd this h.2.2.1
    | cons c' m' =>
      obtain ⟨k', y⟩ := c'
      rw [Store.canon_cons] at h'
      have hk : k = k' := by
        rcases Nat.lt_trichotomy k k' with hlt | heq | hgt
        · have hne : k ≠ k' := by omega
          have hh := hr k
          simp only [Store.read, if_true, if_neg hne] at hh
          rw [Store.read_below h'.2.2.2 (by omega)] at hh
          exact absurd hh h.2.2.1
        · exact heq
        · have hne : k' ≠ k := by omega
          have hh := hr k'
          simp only [Store.read, if_true, if_neg hne] at hh
          rw [Store.read_below h.2.2.2 (by omega)] at hh
          exact absurd hh.symm h'.2.2.1
      subst hk
      have hxy : x = y := by simpa [Store.read] using hr k
      subst hxy
      have hm : m = m' := by
        refine ih h.2.2.2 h'.2.2.2 ?_
        intro a
        by_cases ha : a = k
        · subst ha
          rw [Store.read_below h.2.2.2 (Nat.lt_succ_self a), Store.read_below h'.2.2.2 (Nat.lt_succ_self a)]
        · have hh := hr a
          simpa [Store.read, ha] using hh
      rw [hm]

/-! ### Byte memories -/

@[simp] theorem Memory.read_nil (a : Nat) : Memory.read [] a = 0#8 := rfl

theorem Memory.read_write {size a b : Nat} {m : Memory} (x : Byte) (h : Memory.wf size m = true) :
    (m.write a x).read b = if b = a then x else m.read b := Store.read_write h

theorem Memory.read_write_same {size a : Nat} {m : Memory} (x : Byte) (h : Memory.wf size m = true) :
    (m.write a x).read a = x := by simp [Memory.read_write x h]

theorem Memory.read_write_other {size a b : Nat} {m : Memory} (x : Byte) (h : Memory.wf size m = true) (hb : b ≠ a) :
    (m.write a x).read b = m.read b := by simp [Memory.read_write x h, hb]

theorem Memory.wf_write {size a : Nat} {m : Memory} (x : Byte) (h : Memory.wf size m = true) (ha : a < size) :
    Memory.wf size (m.write a x) = true := Store.canon_write h (Nat.zero_le a) ha

/-- Equal memories are equal data. -/
theorem Memory.ext_of_read {size : Nat} {m m' : Memory} (h : Memory.wf size m = true) (h' : Memory.wf size m' = true)
    (hr : ∀ a, m.read a = m'.read a) : m = m' := Store.ext_of_read h h' hr

theorem Memory.canon_fromBytes {hi : Nat} (bs : List Byte) :
    ∀ a, a + bs.length ≤ hi → Store.canon Memory.fill hi a (Memory.fromBytes a bs) = true := by
  induction bs with
  | nil => intros; rfl
  | cons b bs ih =>
    intro a h
    simp only [List.length_cons] at h
    unfold Memory.fromBytes
    by_cases hb : b = Memory.fill
    · rw [if_pos hb]
      exact Store.canon_mono (ih (a + 1) (by omega)) (by omega)
    · rw [if_neg hb, Store.canon_cons]
      exact ⟨by omega, by omega, hb, ih (a + 1) (by omega)⟩

theorem Memory.wf_fromBytes {size : Nat} (bs : List Byte) (h : bs.length ≤ size) :
    Memory.wf size (Memory.fromBytes 0 bs) = true := Memory.canon_fromBytes bs 0 (by omega)

theorem Memory.read_fromBytes_below (bs : List Byte) :
    ∀ a b, b < a → (Memory.fromBytes a bs).read b = 0#8 := by
  intro a b h
  exact Store.read_below (hi := a + bs.length) (Memory.canon_fromBytes bs a (by omega)) h

/-- The bytes of a list, in order. -/
theorem Memory.read_fromBytes (bs : List Byte) :
    ∀ a i, (Memory.fromBytes a bs).read (a + i) = bs.getD i 0#8 := by
  induction bs with
  | nil => intros; rfl
  | cons b bs ih =>
    intro a i
    unfold Memory.fromBytes
    cases i with
    | zero =>
      by_cases hb : b = Memory.fill
      · rw [if_pos hb]
        simpa [hb, Memory.fill] using Memory.read_fromBytes_below bs (a + 1) a (by omega)
      · simp [if_neg hb, Memory.read, Store.read]
    | succ i =>
      have hrec := ih (a + 1) i
      rw [show a + (i + 1) = a + 1 + i by omega]
      by_cases hb : b = Memory.fill
      · simpa [if_pos hb] using hrec
      · have : a + 1 + i ≠ a := by omega
        simpa [if_neg hb, Memory.read, Store.read, this] using hrec

/-! ### The frame buffer -/

theorem Frame.wf_iff {f : Frame} :
    Frame.wf f = true ↔ Store.canon [] 240 0 f = true ∧ ∀ r ∈ f, Store.canon Frame.fill 256 0 r.2 = true := by
  simp [Frame.wf, List.all_eq_true]

theorem Frame.row_canon {f : Frame} (h : Frame.wf f = true) (y : Nat) :
    Store.canon Frame.fill 256 0 (Store.read [] f y) = true := by
  have hr := (Frame.wf_iff.mp h).2
  clear h
  induction f with
  | nil => rfl
  | cons c f ih =>
    obtain ⟨k, row⟩ := c
    by_cases hy : y = k
    · simpa [Store.read, hy] using hr (k, row) (by simp)
    · simpa [Store.read, hy] using ih (fun r hm => hr r (List.mem_cons_of_mem _ hm))

theorem Frame.read_write {f : Frame} (y x y' x' : Nat) (c : Rgb) (h : Frame.wf f = true) :
    (f.write y x c).read y' x' = if y' = y ∧ x' = x then c else f.read y' x' := by
  have hrow := Frame.row_canon h y
  unfold Frame.write Frame.read
  rw [Store.read_write (Frame.wf_iff.mp h).1]
  by_cases hy : y' = y
  · subst hy
    rw [if_pos rfl, Store.read_write hrow]
    by_cases hx : x' = x <;> simp [hx]
  · simp [hy]

theorem Store.mem_write {α : Type} [DecidableEq α] {fill : α} {a : Nat} {x : α} {m : List (Nat × α)} {c : Nat × α}
    (h : c ∈ Store.write fill m a x) : c ∈ m ∨ c = (a, x) := by
  induction m with
  | nil =>
    unfold Store.write at h
    split at h
    · simp at h
    · simp at h; exact .inr h
  | cons d m ih =>
    obtain ⟨k, y⟩ := d
    unfold Store.write at h
    split at h
    · split at h
      · exact .inl h
      · rcases List.mem_cons.mp h with h | h
        · exact .inr h
        · exact .inl h
    · split at h
      · split at h
        · exact .inl (List.mem_cons_of_mem _ h)
        · rcases List.mem_cons.mp h with h | h
          · exact .inr h
          · exact .inl (List.mem_cons_of_mem _ h)
      · rcases List.mem_cons.mp h with h | h
        · exact .inl (by rw [h]; exact List.mem_cons_self)
        · rcases ih h with h | h
          · exact .inl (List.mem_cons_of_mem _ h)
          · exact .inr h

theorem Frame.wf_write {f : Frame} {y x : Nat} (c : Rgb) (h : Frame.wf f = true) (hy : y < 240) (hx : x < 256) :
    Frame.wf (f.write y x c) = true := by
  have hrow := Frame.row_canon h y
  obtain ⟨h1, h2⟩ := Frame.wf_iff.mp h
  refine Frame.wf_iff.mpr ⟨Store.canon_write h1 (Nat.zero_le y) hy, ?_⟩
  intro r hr
  rcases Store.mem_write hr with hm | rfl
  · exact h2 r hm
  · exact Store.canon_write hrow (Nat.zero_le x) hx

end Sys2Proof
end

