-- ==== Sys2Proof/Laws/Ops.lean ====
section
/-! SUPPORT. The laws of the shared operations: the prelude, the translator, the addresses presented to it. -/
namespace Sys2Proof.Machine

/-! ### Except -/

@[simp] theorem except_bind_ok {ε α β : Type} (a : α) (f : α → Except ε β) : (Except.ok a >>= f) = f a := rfl

@[simp] theorem except_bind_error {ε α β : Type} (e : ε) (f : α → Except ε β) :
    ((Except.error e : Except ε α) >>= f) = Except.error e := rfl

/-- Peels a computation apart. -/
theorem bind_eq_ok {ε α β : Type} {a : Except ε α} {f : α → Except ε β} {b : β} (h : (a >>= f) = .ok b) :
    ∃ x, a = .ok x ∧ f x = .ok b := by
  cases a with
  | error e => cases h
  | ok x => exact ⟨x, rfl, h⟩

/-- A computation ends in an error at its first part or at its second. -/
theorem bind_eq_error {ε α β : Type} {a : Except ε α} {f : α → Except ε β} {e : ε} (h : (a >>= f) = .error e) :
    a = .error e ∨ ∃ x, a = .ok x ∧ f x = .error e := by
  cases a with
  | error e' => cases h; exact .inl rfl
  | ok x => exact .inr ⟨x, rfl, h⟩

/-! ### The prelude (40_register_port.md R140) -/

theorem operate_halted {s : State} (body : State → Except Stop State) (h : s.halted = true) :
    operate s body = .next s.noReply := by simp [operate, h]

theorem operate_ok {s s' : State} {body : State → Except Stop State} (h : s.halted = false)
    (hb : body s.noReply = .ok s') : operate s body = .next s' := by
  simp [operate, h, hb, commit]

theorem operate_fatal {s : State} {body : State → Except Stop State} {k : FaultCode} (h : s.halted = false)
    (hb : body s.noReply = .error (.fatal k)) : operate s body = .next (s.raiseFatal k) := by
  simp [operate, h, hb, commit, State.raiseFatal]

/-- Everything an operation that goes on can do: nothing while halted, its body's result, or a fatal. -/
theorem operate_cases {s t : State} {body : State → Except Stop State} (h : operate s body = .next t) :
    (s.halted = true ∧ t = s.noReply) ∨
    (s.halted = false ∧ body s.noReply = .ok t) ∨
    (s.halted = false ∧ ∃ k, body s.noReply = .error (.fatal k) ∧ t = s.raiseFatal k) := by
  unfold operate at h
  split at h
  next hh => cases h; exact .inl ⟨hh, rfl⟩
  next hh =>
    have hf : s.halted = false := by simpa using hh
    unfold commit at h
    split at h
    next s' hb => cases h; exact .inr (.inl ⟨hf, hb⟩)
    next k hb => cases h; exact .inr (.inr ⟨hf, k, hb, rfl⟩)
    next => cases h
    next => cases h

/-- An operation faults only where its body does. -/
theorem operate_fault {s : State} {body : State → Except Stop State} {f : Fault} (h : operate s body = .fault f) :
    body s.noReply = .error (.fault f) := by
  unfold operate at h
  split at h
  · cases h
  · unfold commit at h
    split at h
    next => cases h
    next => cases h
    next f' hb => cases h; exact hb
    next => cases h

/-- An operation refuses only where its body does. -/
theorem operate_refused {s : State} {body : State → Except Stop State} {r : Refusal} (h : operate s body = .refused r) :
    body s.noReply = .error (.refusal r) := by
  unfold operate at h
  split at h
  · cases h
  · unfold commit at h
    split at h
    next => cases h
    next => cases h
    next => cases h
    next r' hb => cases h; exact hb

/-! ### Fields of a word -/

/-- The bits of a word with a field put in (00_scope.md R13). -/
theorem putField_getLsbD {n k : Nat} (r : BitVec n) (lo : Nat) (f : BitVec k) {i : Nat} (hi : i < n) :
    (putField r lo f).getLsbD i = if lo ≤ i ∧ i < lo + k then f.getLsbD (i - lo) else r.getLsbD i := by
  simp only [putField, BitVec.getLsbD_or, BitVec.getLsbD_and, BitVec.getLsbD_not, BitVec.getLsbD_shiftLeft,
    BitVec.getLsbD_setWidth, BitVec.getLsbD_allOnes, hi, decide_true, Bool.true_and]
  have h4 : i - lo < n := by omega
  by_cases h1 : i < lo
  · simp [h1, show ¬ lo ≤ i by omega]
  · by_cases h2 : i < lo + k
    · simp [h1, h2, h4, show lo ≤ i by omega, show i - lo < k by omega]
    · simp [h1, h2, h4, show ¬ i - lo < k by omega, BitVec.getLsbD_of_ge f (i - lo) (by omega)]

/-! ### The addresses presented to the translator (20_memory.md R91) -/

theorem dataAddress_lt (v : VAddr) : dataAddress v < 0x4000#15 := by
  rw [BitVec.lt_def]
  simp only [dataAddress, BitVec.toNat_and, BitVec.toNat_ofNat]
  exact Nat.lt_of_le_of_lt Nat.and_le_right (by decide)

theorem dataAddress_reload_lt (v : VAddr) : dataAddress v - 0x1000#15 < 0x4000#15 ∨ dataAddress v < 0x3F00#15 := by
  have := dataAddress_lt v
  by_cases h : dataAddress v < 0x3F00#15
  · exact .inr h
  · left; bv_omega

theorem ntAddress_lt (v : VAddr) : ntAddress v < 0x4000#15 := by
  rw [BitVec.lt_def]
  simp only [ntAddress, BitVec.toNat_or, BitVec.toNat_and, BitVec.toNat_ofNat]
  exact Nat.or_lt_two_pow (n := 14) (by decide) (Nat.lt_of_le_of_lt Nat.and_le_right (by decide))

theorem atAddress_lt (v : VAddr) : atAddress v < 0x4000#15 := by
  rw [BitVec.lt_def]
  simp only [atAddress, BitVec.toNat_or, BitVec.toNat_and, BitVec.toNat_ofNat]
  refine Nat.or_lt_two_pow (n := 14) (Nat.or_lt_two_pow (Nat.or_lt_two_pow (by decide) ?_) ?_) ?_ <;>
    exact Nat.lt_of_le_of_lt Nat.and_le_right (by decide)

theorem paletteAddress_lt (i : BitVec 5) : paletteAddress i < 0x4000#15 := by
  rw [BitVec.lt_def]
  have hi := i.isLt
  simp only [paletteAddress, BitVec.toNat_or, BitVec.toNat_setWidth, BitVec.toNat_ofNat]
  exact Nat.or_lt_two_pow (n := 14) (by decide) (Nat.lt_of_le_of_lt (Nat.mod_le _ _) (by omega))

/-- A pattern address of row 0..7 lies at most 8 below the end of the cartridge region. -/
theorem patternAddress_lt {base row : VAddr} (tile : Byte) (hb : base = 0#15 ∨ base = 0x1000#15) (hr : row.toNat < 8) :
    (patternAddress base tile row).toNat + 8 < 0x2000 := by
  have ht := tile.isLt
  rcases hb with rfl | rfl <;>
    simp only [patternAddress, BitVec.toNat_add, BitVec.toNat_mul, BitVec.toNat_setWidth, BitVec.toNat_ofNat] <;>
    omega

theorem bgBase_cases (c : Byte) : bgBase c = 0#15 ∨ bgBase c = 0x1000#15 := by
  unfold bgBase; split <;> simp

theorem spriteBase_cases (c : Byte) : spriteBase c = 0#15 ∨ spriteBase c = 0x1000#15 := by
  unfold spriteBase; split <;> simp

theorem bgPatternAddress_lt (c n : Byte) (v : VAddr) : (bgPatternAddress c n v).toNat + 8 < 0x2000 := by
  refine patternAddress_lt n (bgBase_cases c) ?_
  have := (fineY v).isLt
  simp only [BitVec.toNat_setWidth]
  omega

theorem flipped_lt {k : Nat} (f : Bool) (h : k < 8) : flipped f k < 8 := by
  unfold flipped; split <;> omega

theorem inRange_iff {row : Nat} {b : Byte} : inRange row b = true ↔ b.toNat ≤ row ∧ row < b.toNat + 8 := by
  simp [inRange]

/-- The two ranges of an active slot (R262), over the natural numbers. -/
theorem slotActive_iff {sec : Memory} {k col row : Nat} : slotActive sec k col row = true ↔
    ((sec.read (4 * k)).toNat ≤ row ∧ row < (sec.read (4 * k)).toNat + 8) ∧
    ((sec.read (4 * k + 3)).toNat ≤ col ∧ col < (sec.read (4 * k + 3)).toNat + 8) := by
  rw [slotActive, Bool.and_eq_true, inRange_iff, inRange_iff]

/-- The pattern address of an active slot (R263) lies in the cartridge region, 8 below its end at most. -/
theorem slotAddress_lt {s : State} {k col row : Nat} (h : slotActive s.sec k col row = true) :
    (slotAddress s k row).toNat + 8 < 0x2000 := by
  refine patternAddress_lt _ (spriteBase_cases _) ?_
  rw [slotActive_iff] at h
  have := flipped_lt (attrVflip (s.sec.read (4 * k + 2))) (k := row - (s.sec.read (4 * k)).toNat) (by omega)
  simp only [BitVec.toNat_ofNat]
  omega

/-! ### The translator (20_memory.md R70 to R76) -/

theorem ntBank_ok {m : Mirroring} (l : BitVec 2) (hm : m ≠ .fourScreen) : ∃ b, ntBank m l = .ok b ∧ b < 2 := by
  cases m with
  | horizontal => exact ⟨_, rfl, (l.extractLsb' 1 1).isLt⟩
  | vertical => exact ⟨_, rfl, (l.extractLsb' 0 1).isLt⟩
  | fourScreen => exact absurd rfl hm

theorem palIndex_lt (a : VAddr) : palIndex a < 32 := by
  have h : (a &&& 0x1F#15).toNat < 32 := by
    simp only [BitVec.toNat_and, BitVec.toNat_ofNat]
    exact Nat.lt_of_le_of_lt Nat.and_le_right (by decide)
  unfold palIndex
  simp only
  split <;> omega

/-- The cell a target names exists. -/
def Target.inBounds : Target → Prop
  | .cart a => a < 8192
  | .nt i => i < 2048
  | .pal i => i < 32

/-- Every address below 0x4000 resolves, to a cell that exists. -/
theorem translateAddress_ok {c : Cfg} {a : VAddr} (hm : c.mirroring ≠ .fourScreen) (ha : a < 0x4000#15) :
    ∃ g, translateAddress c a = .ok g ∧ g.inBounds := by
  unfold translateAddress
  split
  next h => exact ⟨_, rfl, by simpa [Target.inBounds, BitVec.lt_def] using h⟩
  next h =>
    split
    next h2 =>
      obtain ⟨b, hb, hlt⟩ := ntBank_ok ((ntAlias a).extractLsb' 10 2) hm
      refine ⟨_, by rw [hb]; rfl, ?_⟩
      have := ((ntAlias a).extractLsb' 0 10).isLt
      simp only [Target.inBounds]
      omega
    next h2 =>
      split
      next => exact ⟨_, rfl, palIndex_lt a⟩
      next h3 => exact absurd (by bv_omega : a ≤ 0x3FFF#15) h3

/-- F4 is raised at 0x4000 and above only (R76). -/
theorem translateAddress_f4 {c : Cfg} {a : VAddr} (h : translateAddress c a = .error .f4) : ¬ a < 0x4000#15 := by
  unfold translateAddress at h
  split at h
  · cases h
  · split at h
    · exfalso
      generalize (ntAlias a).extractLsb' 10 2 = l at h
      cases hm : c.mirroring <;> simp [hm, ntBank, Except.map] at h
    · split at h
      · cases h
      · bv_omega

/-- A read goes to the store and index that the translator gives (20_memory.md R74). -/
theorem vramRead_of_translateAddress {s : State} {a : VAddr} {g : Target} (h : translateAddress s.cfg a = .ok g) :
    s.vramRead a = .ok (s.readTarget g) := by
  simp [State.vramRead, h]

theorem vramRead_ok {s : State} {a : VAddr} (hm : s.cfg.mirroring ≠ .fourScreen) (ha : a < 0x4000#15) :
    ∃ b, s.vramRead a = .ok b := by
  obtain ⟨g, hg, -⟩ := translateAddress_ok hm ha
  exact ⟨s.readTarget g, vramRead_of_translateAddress hg⟩

theorem vramWrite_ok {s : State} {a : VAddr} (b : Byte) (hm : s.cfg.mirroring ≠ .fourScreen) (ha : a < 0x4000#15) :
    ∃ g, translateAddress s.cfg a = .ok g ∧ g.inBounds ∧ s.vramWrite a b = .ok (s.writeTarget b g) := by
  obtain ⟨g, hg, hi⟩ := translateAddress_ok hm ha
  exact ⟨g, hg, hi, by simp [State.vramWrite, hg]⟩

/-- What a store through the translator leaves in the nametable RAM. -/
theorem writeTarget_nt_read {s : State} (b : Byte) (g : Target) (k : Nat) (h : Memory.wf 2048 s.nt = true) :
    (s.writeTarget b g).nt.read k = if g = .nt k then b else s.nt.read k := by
  cases g with
  | cart a => cases hc : s.chrWritable <;> simp [State.writeTarget, State.cartWrite, hc]
  | nt i => simp only [State.writeTarget, Memory.read_write b h, Target.nt.injEq, eq_comm]
  | pal i => simp [State.writeTarget]

/-- What it leaves in the palette RAM. -/
theorem writeTarget_pal_read {s : State} (b : Byte) (g : Target) (k : Nat) (h : Memory.wf 32 s.pal = true) :
    (s.writeTarget b g).pal.read k = if g = .pal k then b else s.pal.read k := by
  cases g with
  | cart a => cases hc : s.chrWritable <;> simp [State.writeTarget, State.cartWrite, hc]
  | nt i => simp [State.writeTarget]
  | pal i => simp only [State.writeTarget, Memory.read_write b h, Target.pal.injEq, eq_comm]

/-- What it leaves in the cartridge (20_memory.md R78). -/
theorem writeTarget_chr_read {s : State} (b : Byte) (g : Target) (k : Nat) (h : Memory.wf 8192 s.chr = true) :
    (s.writeTarget b g).chr.read k = if g = .cart k ∧ s.chrWritable = true then b else s.chr.read k := by
  cases g with
  | cart a =>
    cases hc : s.chrWritable
    · simp [State.writeTarget, State.cartWrite, hc]
    · simp only [State.writeTarget, State.cartWrite, hc, if_true, Memory.read_write b h, Target.cart.injEq, and_true,
        eq_comm]
  | nt i => simp [State.writeTarget]
  | pal i => simp [State.writeTarget]

/-- A store through the translator keeps the memories in canonical form. -/
theorem writeTarget_wf {s : State} (b : Byte) {g : Target} (hg : g.inBounds) (hn : Memory.wf 2048 s.nt = true)
    (hp : Memory.wf 32 s.pal = true) (hc : Memory.wf 8192 s.chr = true) :
    Memory.wf 2048 (s.writeTarget b g).nt = true ∧ Memory.wf 32 (s.writeTarget b g).pal = true ∧
      Memory.wf 8192 (s.writeTarget b g).chr = true := by
  cases g with
  | cart a =>
    cases hw : s.chrWritable
    · simp [State.writeTarget, State.cartWrite, hw, hn, hp, hc]
    · simp only [State.writeTarget, State.cartWrite, hw, if_true]
      exact ⟨hn, hp, Memory.wf_write b hc hg⟩
  | nt i => exact ⟨Memory.wf_write b hn hg, hp, hc⟩
  | pal i => exact ⟨hn, Memory.wf_write b hp hg, hc⟩

/-- A read through the translator ends in a fatal if it does not end well. -/
theorem vramRead_error {s : State} {a : VAddr} {e : Stop} (h : s.vramRead a = .error e) :
    ∃ k, e = .fatal k ∧ translateAddress s.cfg a = .error k := by
  unfold State.vramRead at h
  split at h
  · cases h
  next k hk => cases h; exact ⟨k, rfl, hk⟩

/-! ### The position (41_dot_driver.md) -/

theorem mirroring_of_supported {c : Cfg} (h : c.supported = true) : c.standard = .std0 ∧ c.mirroring ≠ .fourScreen := by
  simpa [Cfg.supported] using h

theorem cfg_wf_iff {c : Cfg} : c.wf = true ↔
    c.vblankLines + 1 + c.visibleLines < c.totalScanlines ∧ 1 ≤ c.dotsPerCycle ∧ c.regBase.toNat % 8 = 0 ∧
      c.dotsPerLine = 341 ∧ c.visibleLines = 240 := by
  simp [Cfg.wf, and_assoc]

theorem positionExists_iff {s : State} :
    s.positionExists = true ↔ s.scanline < s.cfg.totalScanlines ∧ s.dot < s.cfg.dotsPerLine := by
  simp [State.positionExists]

theorem phaseOf_visible {c : Cfg} {n : Nat} :
    phaseOf c n = .visibleRender ↔ c.vblankLines < n ∧ n ≤ c.vblankLines + c.visibleLines := by
  unfold phaseOf
  split
  · simp; omega
  · split
    · simp; omega
    · split
      · simp; omega
      · simp; omega

theorem phaseOf_preRender {c : Cfg} {n : Nat} : phaseOf c n = .preRender ↔ n = c.vblankLines := by
  unfold phaseOf
  split
  · simp; omega
  · split
    · simpa
    · split
      · simp; omega
      · simp; omega

/-- A screen row is below the number of visible lines. -/
theorem screenRow_ok {s : State} {y : Nat} (h : s.screenRow = .ok y) : y < s.cfg.visibleLines := by
  unfold State.screenRow at h
  split at h
  next hp =>
    cases h
    have := phaseOf_visible.mp hp
    omega
  next => cases h

/-- The advance keeps the position in range. -/
theorem advance_positionExists {s : State} (h : s.positionExists = true) : s.advance.positionExists = true := by
  rw [positionExists_iff] at h ⊢
  unfold State.advance
  split
  · exact ⟨h.1, by assumption⟩
  · split
    · exact ⟨by assumption, by simp; omega⟩
    · exact ⟨by simp; omega, by simp; omega⟩

end Sys2Proof.Machine
end

