-- ==== Sys2Proof/Laws/PerInstr.lean ====
section
/-! SUPPORT. Statements about every operation as syntax, one lemma per constructor. -/
namespace Sys2Proof.Laws.Format

/-- Only a micro-operation carries a side condition (30_encoding.md R112), and it is then encoded as a SEQ word. -/
def Statement (i : Instr) : Prop := (i.firstLineOnly || i.needsRendering) = true → ∃ word, encode i = .seq word

theorem wrControl (data : Byte) : Statement (.wrControl data) := nofun
theorem wrMask (data : Byte) : Statement (.wrMask data) := nofun
theorem rdStatus : Statement .rdStatus := nofun
theorem wrOamaddr (data : Byte) : Statement (.wrOamaddr data) := nofun
theorem rdOamdata : Statement .rdOamdata := nofun
theorem wrOamdata (data : Byte) : Statement (.wrOamdata data) := nofun
theorem wrScroll1 (data : Byte) : Statement (.wrScroll1 data) := nofun
theorem wrScroll2 (data : Byte) : Statement (.wrScroll2 data) := nofun
theorem wrAddr1 (data : Byte) : Statement (.wrAddr1 data) := nofun
theorem wrAddr2 (data : Byte) : Statement (.wrAddr2 data) := nofun
theorem rdData : Statement .rdData := nofun
theorem wrData (data : Byte) : Statement (.wrData data) := nofun
theorem rdControl : Statement .rdControl := nofun
theorem rdMask : Statement .rdMask := nofun
theorem wrStatus (data : Byte) : Statement (.wrStatus data) := nofun
theorem rdOamaddr : Statement .rdOamaddr := nofun
theorem rdScroll : Statement .rdScroll := nofun
theorem rdAddr : Statement .rdAddr := nofun
theorem reset (launch : Launch) : Statement (.reset launch) := nofun
theorem dot : Statement .dot := nofun
theorem cycle : Statement .cycle := nofun
theorem oamdma (bytes : List Byte) : Statement (.oamdma bytes) := nofun
theorem nmipoll : Statement .nmipoll := nofun
theorem vblSet : Statement .vblSet := fun _ => ⟨_, rfl⟩
theorem flagsClr : Statement .flagsClr := fun _ => ⟨_, rfl⟩
theorem pixel (d : BitVec 9) : Statement (.pixel d) := fun _ => ⟨_, rfl⟩
theorem fetchNt (p : BitVec 1) (d : BitVec 6) : Statement (.fetchNt p d) := fun _ => ⟨_, rfl⟩
theorem fetchAt (p : BitVec 1) (d : BitVec 6) : Statement (.fetchAt p d) := fun _ => ⟨_, rfl⟩
theorem fetchLo (p : BitVec 1) (d : BitVec 6) : Statement (.fetchLo p d) := fun _ => ⟨_, rfl⟩
theorem fetchHi (p : BitVec 1) (d : BitVec 6) : Statement (.fetchHi p d) := fun _ => ⟨_, rfl⟩
theorem loadIncx (p : BitVec 1) (d : BitVec 6) : Statement (.loadIncx p d) := fun _ => ⟨_, rfl⟩
theorem incY (p : BitVec 1) : Statement (.incY p) := fun _ => ⟨_, rfl⟩
theorem sprEval (p : BitVec 1) : Statement (.sprEval p) := fun _ => ⟨_, rfl⟩
theorem copyH (p : BitVec 1) : Statement (.copyH p) := fun _ => ⟨_, rfl⟩
theorem copyV (d : BitVec 9) : Statement (.copyV d) := fun _ => ⟨_, rfl⟩
theorem frameDone : Statement .frameDone := fun _ => ⟨_, rfl⟩
theorem idle (p : BitVec 2) (d : BitVec 9) : Statement (.idle p d) := fun _ => ⟨_, rfl⟩

end Sys2Proof.Laws.Format
end

