-- ==== Sys2Proof/Laws/Step.lean ====
section
/-! SUPPORT. What an operation, a micro-operation and a step can do, said once each. -/
namespace Sys2Proof.Machine

/-- While halted every operation only withdraws the reply (60_exceptions.md R290). -/
theorem exec_halted (i : Instr) {s : State} (h : s.halted = true) : exec i s = .next s.noReply := by
  cases i <;> first | exact operate_halted _ h | simp [exec, execCycle, h]

/-- Everything a micro-operation can change. -/
theorem perform_frame {i : Instr} {s t : State} (h : perform i s = .ok t) :
    { t with v := s.v, vblank := s.vblank, sprite0Hit := s.sprite0Hit, spriteOverflow := s.spriteOverflow,
             nmiPending := s.nmiPending, sec := s.sec, slot0IsSprite0 := s.slot0IsSprite0, bgbuf := s.bgbuf,
             ntLatch := s.ntLatch, atLatch := s.atLatch, ptLo := s.ptLo, ptHi := s.ptHi, fb := s.fb,
             frames := s.frames } = s := by
  cases i <;> simp only [perform] at h <;> try cases h
  case vblSet | flagsClr | loadIncx | incY | copyH | copyV | frameDone | idle => rfl
  case pixel d =>
    obtain ⟨_, -, h⟩ := bind_eq_ok h
    obtain ⟨_, -, h⟩ := bind_eq_ok h
    obtain ⟨_, -, h⟩ := bind_eq_ok h
    obtain ⟨_, -, h⟩ := bind_eq_ok h
    cases h; rfl
  all_goals
    obtain ⟨_, -, h⟩ := bind_eq_ok h
    cases h; rfl

/-- The same for a list of them. -/
theorem performAll_frame {is : List Instr} {s t : State} (h : performAll is s = .ok t) :
    { t with v := s.v, vblank := s.vblank, sprite0Hit := s.sprite0Hit, spriteOverflow := s.spriteOverflow,
             nmiPending := s.nmiPending, sec := s.sec, slot0IsSprite0 := s.slot0IsSprite0, bgbuf := s.bgbuf,
             ntLatch := s.ntLatch, atLatch := s.atLatch, ptLo := s.ptLo, ptHi := s.ptHi, fb := s.fb,
             frames := s.frames } = s := by
  induction is generalizing s with
  | nil => cases h; rfl
  | cons i is ih =>
    obtain ⟨u, hu, h⟩ := bind_eq_ok h
    have h1 := perform_frame hu
    have h2 := ih h
    rw [← h1, ← h2]

/-- What a DOT that is no fatal does: the micro-operations of the position, then the advance (41_dot_driver.md R181). -/
theorem dotBody_ok {s t : State} (h : dotBody s = .ok t) :
    ∃ ops u, s.microOps = .ok ops ∧ performAll ops s = .ok u ∧ t = u.advance := by
  obtain ⟨ops, ho, h⟩ := bind_eq_ok h
  obtain ⟨u, hu, h⟩ := bind_eq_ok h
  cases h
  exact ⟨ops, u, ho, hu, rfl⟩

/-- What every DOT keeps, a run of DOTs keeps. -/
theorem dots_keep {P : State → Prop} (hd : ∀ s t, P s → execDot s = .next t → P t) {n : Nat} {s t : State} (hs : P s)
    (h : dots n s = .next t) : P t := by
  induction n generalizing s with
  | zero => cases h; exact hs
  | succ n ih =>
    unfold dots at h
    split at h
    next u hu => exact ih (hd s u hs hu) h
    next => cases h
    next => cases h

/-- A run of DOTs that goes on is the operation DOT performed so many times (41_dot_driver.md R184). -/
theorem dots_next_iff {n : Nat} {s t : State} :
    dots n s = .next t ↔
      (List.replicate n Instr.dot).foldlM (fun r i => match exec i r with | .next r' => some r' | _ => none) s = some t := by
  induction n generalizing s with
  | zero => simp [dots]
  | succ n ih =>
    have he : exec .dot s = execDot s := rfl
    simp only [dots, List.replicate_succ, List.foldlM_cons, he]
    cases execDot s <;> simp [ih]

/-- What a step that goes on can be: nothing issued, a transaction outside the window, or an operation. -/
theorem step_cases {s t : State} (h : step s = .next t) :
    (s.pending = [] ∧ t = s) ∨
    (∃ write addr data rest, s.pending = .bus write addr data :: rest ∧ s.halted = false ∧
      inWindow s.cfg addr = false ∧ t = State.raiseFatal .f1 { s with pending := rest }) ∨
    (∃ r rest i, s.pending = r :: rest ∧ exec i { s with pending := rest } = .next t) := by
  unfold step at h
  cases hf : fetch s with
  | hold =>
    rw [hf] at h
    cases h
    left
    unfold fetch at hf
    split at hf
    · exact ⟨by assumption, rfl⟩
    · split at hf
      · cases hf
      · unfold runDecoded at hf; split at hf <;> cases hf
    · unfold runDecoded at hf; split at hf <;> cases hf
  | settled s' =>
    rw [hf] at h
    cases h
    right; left
    unfold fetch at hf
    split at hf
    · cases hf
    next write addr data rest hp =>
      split at hf
      next hw => cases hf; exact ⟨write, addr, data, rest, hp, hw.1, hw.2, rfl⟩
      · unfold runDecoded at hf; split at hf <;> cases hf
    · unfold runDecoded at hf; split at hf <;> cases hf
  | run i s' =>
    rw [hf] at h
    right; right
    unfold fetch at hf
    split at hf
    · cases hf
    next write addr data rest hp =>
      split at hf
      · cases hf
      · unfold runDecoded at hf
        split at hf <;> cases hf
        exact ⟨_, rest, i, hp, h⟩
    next code arg rest hp =>
      unfold runDecoded at hf
      split at hf <;> cases hf
      exact ⟨_, rest, i, hp, h⟩
  | reject r => rw [hf] at h; cases h

/-- A step that faults or refuses does so in its operation, or because the request does not decode. -/
theorem step_stops {s : State} :
    (∀ f, step s = .fault f → ∃ r rest i, s.pending = r :: rest ∧ exec i { s with pending := rest } = .fault f) ∧
    (∀ x, step s = .refused x → (∃ e, x = .undecodable e) ∨
      ∃ r rest i, s.pending = r :: rest ∧ exec i { s with pending := rest } = .refused x) := by
  unfold step fetch
  constructor
  · intro f h
    split at h
    next hf => cases h
    next hf => cases h
    next i s' hf =>
      split at hf
      · cases hf
      next hp =>
        split at hf
        · cases hf
        · unfold runDecoded at hf; split at hf <;> cases hf
          exact ⟨_, _, i, hp, h⟩
      next hp =>
        unfold runDecoded at hf; split at hf <;> cases hf
        exact ⟨_, _, i, hp, h⟩
    next hf => cases h
  · intro x h
    split at h
    next hf => cases h
    next hf => cases h
    next i s' hf =>
      right
      split at hf
      · cases hf
      next hp =>
        split at hf
        · cases hf
        · unfold runDecoded at hf; split at hf <;> cases hf
          exact ⟨_, _, i, hp, h⟩
      next hp =>
        unfold runDecoded at hf; split at hf <;> cases hf
        exact ⟨_, _, i, hp, h⟩
    next hf =>
      cases h
      left
      split at hf
      · cases hf
      · split at hf
        · cases hf
        · unfold runDecoded at hf; split at hf <;> cases hf
          exact ⟨_, rfl⟩
      · unfold runDecoded at hf; split at hf <;> cases hf
        exact ⟨_, rfl⟩

end Sys2Proof.Machine
end

