-- ==== Sys2Proof/Laws/Sequencer.lean ====
section
/-! SUPPORT. Which micro-operations a position has, and that they all complete. -/
namespace Sys2Proof.Machine

/-- The micro-operations of a SEQ word: those of the rows that fire, or IDLE alone. -/
theorem mem_decodeSeq {word : BitVec 11} {fl re : Bool} {ops : List Instr} (h : decodeSeq word fl re = .ok ops)
    (i : Instr) :
    i ∈ ops ↔ (∃ r ∈ seqTable, r.fires word fl re = true ∧ r.make word = i) ∨
      ((∀ r ∈ seqTable, r.fires word fl re = false) ∧ i = .idle (word.extractLsb' 9 2) (word.extractLsb' 0 9)) := by
  have hmem : ∀ j, j ∈ (seqTable.filter (fun r => r.fires word fl re)).map (fun r => r.make word) ↔
      ∃ r ∈ seqTable, r.fires word fl re = true ∧ r.make word = j := by
    intro j
    simp only [List.mem_map, List.mem_filter, and_assoc]
  have hnone : (∀ r ∈ seqTable, r.fires word fl re = false) ↔
      (seqTable.filter (fun r => r.fires word fl re)).map (fun r => r.make word) = [] := by
    simp only [List.map_eq_nil_iff, List.filter_eq_nil_iff, Bool.not_eq_true]
  unfold decodeSeq at h
  split at h
  · split at h
    next heq =>
      cases h
      rw [← hmem, hnone, heq]
      simp
    next hne =>
      cases h
      rw [hmem, hnone]
      refine ⟨.inl, ?_⟩
      rintro (hl | ⟨he, -⟩)
      · exact hl
      · exact absurd he hne
  · cases h

/-- Decoding a SEQ word fails at the dots above 340 only. -/
theorem decodeSeq_ok {word : BitVec 11} (fl re : Bool) (h : seqDot word ≤ 340) : ∃ ops, decodeSeq word fl re = .ok ops := by
  unfold decodeSeq
  simp only [dotExists, h, decide_true, if_true]
  split <;> exact ⟨_, rfl⟩

/-! ### The bits of a SEQ word (30_encoding.md R112) -/

/-- What the masks of the SEQ map ask of the phase code and the dot. -/
theorem seq_masks (c : BitVec 2) (d : BitVec 9) :
    ((c ++ d) &&& 0x7FF#11 == 0x001#11) = (decide (c = 0#2) && decide (d.toNat = 1)) ∧
    ((c ++ d) &&& 0x7FF#11 == 0x401#11) = (decide (c = 2#2) && decide (d.toNat = 1)) ∧
    ((c ++ d) &&& 0x7FF#11 == 0x200#11) = (decide (c = 1#2) && decide (d.toNat = 0)) ∧
    ((c ++ d) &&& 0x600#11 == 0x600#11) = decide (c = 3#2) ∧
    ((c ++ d) &&& 0x600#11 == 0x400#11) = decide (c = 2#2) ∧
    ((c ++ d) &&& 0x407#11 == 0x401#11) = (c.getLsbD 1 && decide (d.toNat % 8 = 1)) ∧
    ((c ++ d) &&& 0x407#11 == 0x403#11) = (c.getLsbD 1 && decide (d.toNat % 8 = 3)) ∧
    ((c ++ d) &&& 0x407#11 == 0x405#11) = (c.getLsbD 1 && decide (d.toNat % 8 = 5)) ∧
    ((c ++ d) &&& 0x407#11 == 0x407#11) = (c.getLsbD 1 && decide (d.toNat % 8 = 7)) ∧
    ((c ++ d) &&& 0x407#11 == 0x400#11) = (c.getLsbD 1 && decide (d.toNat % 8 = 0)) ∧
    ((c ++ d) &&& 0x5FF#11 == 0x500#11) = (c.getLsbD 1 && decide (d.toNat = 256)) ∧
    ((c ++ d) &&& 0x5FF#11 == 0x501#11) = (c.getLsbD 1 && decide (d.toNat = 257)) := by
  revert c d
  decide +kernel

/-- The fields of a SEQ word. -/
theorem seq_fields (c : BitVec 2) (d : BitVec 9) :
    (c ++ d).extractLsb' 9 2 = c ∧ (c ++ d).extractLsb' 0 9 = d ∧ seqDot (c ++ d) = d.toNat := by
  have h : (c ++ d).extractLsb' 0 9 = d := by
    apply BitVec.eq_of_getLsbD_eq
    intro i hi
    rw [BitVec.getLsbD_extractLsb', BitVec.getLsbD_append]
    simp [hi]
  refine ⟨?_, h, by rw [seqDot, h]⟩
  apply BitVec.eq_of_getLsbD_eq
  intro i hi
  rw [BitVec.getLsbD_extractLsb', BitVec.getLsbD_append]
  simp [hi]

/-! ### The micro-operations of a position -/

/-- In range, a position has micro-operations: those of its SEQ word. -/
theorem microOps_iff {s : State} {ops : List Instr} :
    s.microOps = .ok ops ↔
      s.positionExists = true ∧ decodeSeq s.seqWord s.onFirstLine (renderingEnabled s.mask) = .ok ops := by
  unfold State.microOps
  split
  next h =>
    simp only [h, true_and]
    split
    next ho => rw [ho]; simp only [Except.ok.injEq]
    next ho => rw [ho]; simp
  next h => simp [h]

theorem seqDot_seqWord {s : State} (h : s.dot ≤ 340) : seqDot s.seqWord = s.dot := by
  rw [State.seqWord, (seq_fields _ _).2.2, BitVec.toNat_ofNat]
  omega

theorem microOps_ok {s : State} (h : s.positionExists = true) (hl : s.cfg.dotsPerLine = 341) :
    ∃ ops, s.microOps = .ok ops := by
  have hd : s.dot ≤ 340 := by have := (positionExists_iff.mp h).2; omega
  obtain ⟨ops, ho⟩ := decodeSeq_ok (word := s.seqWord) s.onFirstLine (renderingEnabled s.mask)
    (by rw [seqDot_seqWord hd]; exact hd)
  exact ⟨ops, microOps_iff.mpr ⟨h, ho⟩⟩

/-- A phase code with bit 1 set is that of a rendering phase (30_encoding.md R112). -/
theorem phase_code_rendering {p : Phase} : p.code.getLsbD 1 = true ↔ p = .preRender ∨ p = .visibleRender := by
  cases p <;> decide

theorem phase_code_visible {p : Phase} : p.code = 3#2 ↔ p = .visibleRender := by cases p <;> decide

theorem phase_code_preRender {p : Phase} : p.code = 2#2 ↔ p = .preRender := by cases p <;> decide

/-- A micro-operation of a position is one that can be performed there: PIXEL has its screen cell, SPR_EVAL its target
row, and all are micro-operations. -/
def performsAt (c : Cfg) (scanline : Nat) : Instr → Prop
  | .pixel d => pixelDot d.toNat = true ∧ phaseOf c scanline = .visibleRender
  | .sprEval _ => phaseOf c scanline = .preRender ∨ phaseOf c scanline = .visibleRender
  | .vblSet | .flagsClr | .fetchNt _ _ | .fetchAt _ _ | .fetchLo _ _ | .fetchHi _ _ | .loadIncx _ _ | .incY _
  | .copyH _ | .copyV _ | .frameDone | .idle _ _ => True
  | _ => False

theorem performsAt_of_mem {s : State} {ops : List Instr} (h : s.microOps = .ok ops) {i : Instr} (hi : i ∈ ops) :
    performsAt s.cfg s.scanline i := by
  obtain ⟨-, hd⟩ := microOps_iff.mp h
  rcases (mem_decodeSeq hd i).mp hi with ⟨r, hr, hf, rfl⟩ | ⟨-, rfl⟩
  · simp only [SeqRow.fires, Bool.and_eq_true, State.seqWord] at hf
    obtain ⟨⟨⟨hm, hdot⟩, -⟩, -⟩ := hf
    simp only [seqTable, List.cons_append, List.nil_append, List.mem_cons, List.not_mem_nil, or_false] at hr
    rcases hr with rfl | rfl | rfl | rfl | rfl | rfl | rfl | rfl | rfl | rfl | rfl | rfl | rfl <;> try trivial
    · rw [(seq_masks _ _).2.2.2.1, decide_eq_true_eq] at hm
      exact ⟨hdot, phase_code_visible.mp hm⟩
    · rw [(seq_masks _ _).2.2.2.2.2.2.2.2.2.2.1, Bool.and_eq_true] at hm
      exact phase_code_rendering.mp hm.1
  · trivial

/-- The phases that rendering takes place in, as scanline numbers (41_dot_driver.md R180). -/
theorem phaseOf_rendering_iff {c : Cfg} {l : Nat} :
    (phaseOf c l = .preRender ∨ phaseOf c l = .visibleRender) ↔
      c.vblankLines ≤ l ∧ l ≤ c.vblankLines + c.visibleLines := by
  unfold phaseOf
  split
  · simp; omega
  · split
    · simp; omega
    · split <;> simp <;> omega

/-- The target row on the rendering scanlines (43_sprite_evaluator.md R241). -/
theorem targetRow_of_rendering {s : State} (h1 : s.cfg.vblankLines ≤ s.scanline)
    (h2 : s.scanline ≤ s.cfg.vblankLines + s.cfg.visibleLines) :
    s.targetRow = .ok (if s.scanline = s.cfg.vblankLines then 0
      else s.scanline - (s.cfg.vblankLines + 1) + 1) := by
  have h0 : ¬ s.scanline < s.cfg.vblankLines := by omega
  by_cases h : s.scanline = s.cfg.vblankLines
  · simp [State.targetRow, phaseOf, h]
  · simp [State.targetRow, phaseOf, h0, h, h2]

/-! ### Completion -/

theorem screenRow_visible {s : State} (h : phaseOf s.cfg s.scanline = .visibleRender) :
    s.screenRow = .ok (s.scanline - (s.cfg.vblankLines + 1)) := by
  simp [State.screenRow, h]

theorem targetRow_rendering {s : State}
    (h : phaseOf s.cfg s.scanline = .preRender ∨ phaseOf s.cfg s.scanline = .visibleRender) :
    ∃ row, s.targetRow = .ok row := by
  rcases h with h | h <;> simp [State.targetRow, h]

theorem slotColour_ok {s : State} {k col row : Nat} (hm : s.cfg.mirroring ≠ .fourScreen)
    (ha : slotActive s.sec k col row = true) : ∃ c, slotColour s k col row = .ok c := by
  have h := slotAddress_lt ha
  obtain ⟨lo, hlo⟩ := vramRead_ok (s := s) (a := slotAddress s k row) hm (by rw [BitVec.lt_def]; simp; omega)
  obtain ⟨hi, hhi⟩ := vramRead_ok (s := s) (a := slotAddress s k row + 8#15) hm (by
    rw [BitVec.lt_def, BitVec.toNat_add]; simp; omega)
  exact ⟨_, by simp only [slotColour, hlo, hhi]; rfl⟩

theorem spriteScan_ok {s : State} (hm : s.cfg.mirroring ≠ .fourScreen) (col row left k : Nat) :
    ∃ sp, spriteScan s col row left k = .ok sp := by
  induction left generalizing k with
  | zero => exact ⟨none, rfl⟩
  | succ left ih =>
    unfold spriteScan
    split
    next ha =>
      obtain ⟨c, hc⟩ := slotColour_ok hm ha
      simp only [hc, except_bind_ok]
      split
      · exact ⟨_, rfl⟩
      · exact ih (k + 1)
    next => exact ih (k + 1)

theorem spritePixel_ok {s : State} (hm : s.cfg.mirroring ≠ .fourScreen) (col row : Nat) :
    ∃ sp, spritePixel s col row = .ok sp := by
  unfold spritePixel
  split
  · exact ⟨none, rfl⟩
  · exact spriteScan_ok hm col row 8 0

/-- The whole of PIXEL at a dot and on a scanline that have a pixel (44_pixel_compositor.md R260). -/
theorem pixelBody_ok {s : State} {d : BitVec 9} {row : Nat} {sp : Option SpritePixel} {b : Byte}
    (hd : pixelDot d.toNat = true) (hr : s.screenRow = .ok row) (hs : spritePixel s (d.toNat - 1) row = .ok sp)
    (hb : s.vramRead (paletteAddress (muxIndex (bgNibble s (d.toNat - 1)) sp)) = .ok b) :
    pixelBody d s = .ok { s with
      sprite0Hit := muxHit s.sprite0Hit s.slot0IsSprite0 (bgNibble s (d.toNat - 1)) sp
      fb := s.fb.write row (d.toNat - 1) (lutColour s.cfg b) } := by
  simp only [pixelBody, screenColumn, hd, if_true, except_bind_ok, hr, hs, hb]

/-- A micro-operation completes wherever it can stand, under a mirroring the hardware supports. -/
theorem perform_ok {s : State} {i : Instr} (hm : s.cfg.mirroring ≠ .fourScreen) (hi : performsAt s.cfg s.scanline i) :
    ∃ t, perform i s = .ok t := by
  cases i <;> try exact hi.elim
  case vblSet | flagsClr | loadIncx | incY | copyH | copyV | frameDone | idle => exact ⟨_, rfl⟩
  case pixel d =>
    obtain ⟨sp, hs⟩ := spritePixel_ok hm (d.toNat - 1) (s.scanline - (s.cfg.vblankLines + 1))
    obtain ⟨b, hb⟩ := vramRead_ok hm (paletteAddress_lt (muxIndex (bgNibble s (d.toNat - 1)) sp))
    exact ⟨_, pixelBody_ok hi.1 (screenRow_visible hi.2) hs hb⟩
  case sprEval =>
    obtain ⟨row, hr⟩ := targetRow_rendering hi
    exact ⟨_, by simp only [perform, sprEvalBody, hr, except_bind_ok]; rfl⟩
  case fetchNt =>
    obtain ⟨b, hb⟩ := vramRead_ok hm (ntAddress_lt s.v)
    exact ⟨_, by simp only [perform, fetchNtBody, hb, except_bind_ok]; rfl⟩
  case fetchAt =>
    obtain ⟨b, hb⟩ := vramRead_ok hm (atAddress_lt s.v)
    exact ⟨_, by simp only [perform, fetchAtBody, hb, except_bind_ok]; rfl⟩
  case fetchLo =>
    have h := bgPatternAddress_lt s.ctrl s.ntLatch s.v
    obtain ⟨b, hb⟩ := vramRead_ok (s := s) (a := bgPatternAddress s.ctrl s.ntLatch s.v) hm (by
      rw [BitVec.lt_def]; simp; omega)
    exact ⟨_, by simp only [perform, fetchLoBody, hb, except_bind_ok]; rfl⟩
  case fetchHi =>
    have h := bgPatternAddress_lt s.ctrl s.ntLatch s.v
    obtain ⟨b, hb⟩ := vramRead_ok (s := s) (a := bgPatternAddress s.ctrl s.ntLatch s.v + 8#15) hm (by
      rw [BitVec.lt_def, BitVec.toNat_add]; simp; omega)
    exact ⟨_, by simp only [perform, fetchHiBody, hb, except_bind_ok]; rfl⟩

theorem performAll_ok {is : List Instr} {s : State} (hm : s.cfg.mirroring ≠ .fourScreen)
    (hi : ∀ i ∈ is, performsAt s.cfg s.scanline i) : ∃ t, performAll is s = .ok t := by
  induction is generalizing s with
  | nil => exact ⟨s, rfl⟩
  | cons i is ih =>
    obtain ⟨u, hu⟩ := perform_ok hm (hi i List.mem_cons_self)
    have hf := perform_frame hu
    have hc : u.cfg = s.cfg := by rw [← hf]
    have hl : u.scanline = s.scanline := by rw [← hf]
    obtain ⟨t, ht⟩ := ih (s := u) (hc ▸ hm) (fun j hj => by rw [hc, hl]; exact hi j (List.mem_cons_of_mem _ hj))
    exact ⟨t, by simp only [performAll, hu, except_bind_ok, ht]⟩

/-- A DOT completes at every position of the counters. -/
theorem dotBody_total {s : State} (hm : s.cfg.mirroring ≠ .fourScreen) (hp : s.positionExists = true)
    (hl : s.cfg.dotsPerLine = 341) : ∃ ops u, s.microOps = .ok ops ∧ performAll ops s = .ok u ∧ dotBody s = .ok u.advance := by
  obtain ⟨ops, ho⟩ := microOps_ok hp hl
  obtain ⟨u, hu⟩ := performAll_ok hm (fun i hi => performsAt_of_mem ho hi)
  exact ⟨ops, u, ho, hu, by simp only [dotBody, ho, hu, except_bind_ok]⟩

end Sys2Proof.Machine
end

