-- ==== Sys2Proof/Laws/Sprites.lean ====
section
/-! SUPPORT. The laws of the two scans over sprites: the evaluator's fill and the compositor's search. -/
namespace Sys2Proof.Machine

theorem clearedSec_wf : Memory.wf 32 clearedSec = true := Memory.wf_fromBytes _ (by simp)

theorem copyEntry_wf {oam sec : Memory} {i n : Nat} (h : Memory.wf 32 sec = true) (hn : n < 8) :
    Memory.wf 32 (copyEntry oam i n sec) = true :=
  Memory.wf_write _ (Memory.wf_write _ (Memory.wf_write _ (Memory.wf_write _ h (by omega)) (by omega)) (by omega))
    (by omega)

/-- What one entry copied leaves in the secondary table: its four bytes in its slot (43_sprite_evaluator.md R244). -/
theorem copyEntry_read {oam sec : Memory} {i n : Nat} (h : Memory.wf 32 sec = true) (hn : n < 8) (a : Nat) :
    (copyEntry oam i n sec).read a =
      if 4 * n ≤ a ∧ a < 4 * n + 4 then oam.read (4 * i + (a - 4 * n)) else sec.read a := by
  have h1 := Memory.wf_write (a := 4 * n) (oam.read (4 * i)) h (by omega)
  have h2 := Memory.wf_write (a := 4 * n + 1) (oam.read (4 * i + 1)) h1 (by omega)
  have h3 := Memory.wf_write (a := 4 * n + 2) (oam.read (4 * i + 2)) h2 (by omega)
  rw [copyEntry, Memory.read_write _ h3, Memory.read_write _ h2, Memory.read_write _ h1, Memory.read_write _ h]
  by_cases ha : 4 * n ≤ a ∧ a < 4 * n + 4
  · obtain ⟨j, rfl⟩ := Nat.exists_eq_add_of_le ha.1
    have hj : j = 0 ∨ j = 1 ∨ j = 2 ∨ j = 3 := by omega
    rcases hj with rfl | rfl | rfl | rfl <;> simp
  · rw [if_neg (by omega), if_neg (by omega), if_neg (by omega), if_neg (by omega), if_neg ha]

/-- The fill keeps the secondary table in canonical form, fills at most eight slots and stops inside the table. -/
theorem fillScan_bounds {oam : Memory} {row left i n : Nat} {sec : Memory} {slot0 : Bool} (h : Memory.wf 32 sec = true)
    (hn : n ≤ 8) :
    Memory.wf 32 (fillScan oam row left i n sec slot0).sec = true ∧ (fillScan oam row left i n sec slot0).n ≤ 8 ∧
      i ≤ (fillScan oam row left i n sec slot0).i ∧ (fillScan oam row left i n sec slot0).i ≤ i + left := by
  induction left generalizing i n sec slot0 with
  | zero => exact ⟨h, hn, Nat.le_refl _, Nat.le_refl _⟩
  | succ left ih =>
    unfold fillScan
    split
    next hlt =>
      split
      · obtain ⟨h1, h2, h3, h4⟩ := ih (i := i + 1) (n := n + 1) (slot0 := slot0 || decide (i = 0))
          (copyEntry_wf (oam := oam) (i := i) h hlt) (by omega)
        exact ⟨h1, h2, by omega, by omega⟩
      · obtain ⟨h1, h2, h3, h4⟩ := ih (i := i + 1) (n := n) (slot0 := slot0)
          (Memory.wf_write (a := 4 * n) (oam.read (4 * i)) h (by omega)) hn
        exact ⟨h1, h2, by omega, by omega⟩
    next => exact ⟨h, hn, Nat.le_refl _, by show i ≤ i + (left + 1); omega⟩

theorem evalFill_wf (oam : Memory) (row : Nat) : Memory.wf 32 (evalFill oam row).sec = true :=
  (fillScan_bounds clearedSec_wf (Nat.zero_le 8)).1

/-- A sprite pixel found is that of an active slot among those searched, and is not transparent (44_pixel_compositor.md
R264). -/
theorem spriteScan_some {s : State} {col row left k : Nat} {p : SpritePixel}
    (h : spriteScan s col row left k = .ok (some p)) :
    k ≤ p.slot ∧ p.slot < k + left ∧ slotActive s.sec p.slot col row = true ∧
      slotColour s p.slot col row = .ok p.colour ∧ p.colour ≠ 0#2 ∧ p.attr = s.sec.read (4 * p.slot + 2) := by
  induction left generalizing k with
  | zero => cases h
  | succ left ih =>
    unfold spriteScan at h
    split at h
    next ha =>
      obtain ⟨c, hc, h⟩ := bind_eq_ok h
      split at h
      next h0 => cases h; exact ⟨Nat.le_refl _, by simp, ha, hc, h0, rfl⟩
      next =>
        obtain ⟨h1, h2, h3⟩ := ih h
        exact ⟨by omega, by omega, h3⟩
    next =>
      obtain ⟨h1, h2, h3⟩ := ih h
      exact ⟨by omega, by omega, h3⟩

end Sys2Proof.Machine
end

