-- ==== Sys2Proof/Tests/Slice0.lean ====
section
/-!
SUPPORT. Tests of one step each, expected results from 95_test_vectors.md (T<n>, X<n>, P<n>) or by hand from the rule named;
words written out from 30_encoding.md; ill-formed terms refused; and a state that meets the hypotheses of each statement.
-/
namespace Sys2Proof.Tests
open Sys2Proof Sys2Proof.Machine
-- One theorem after another: checked side by side, their stacks together pass the memory limit.
set_option Elab.async false

/-! ### Small states -/

/-- A table of colours in which entry `i` has `i` in its red channel. -/
def lut : Vector Rgb 64 := Vector.ofFn (fun i => ⟨BitVec.ofNat 8 i.val, 0#8, 0#8⟩)

/-- The launch of 95_test_vectors.md: OAM all 0xF8, everything else 0. -/
def launchOf (m : Mirroring) : Launch :=
  { Launch.default with cfg := Cfg.tabulated m lut, oam := Memory.fromBytes 0 (List.replicate 256 0xF8#8) }

def s0 : State := State.launch (launchOf .horizontal)

def sV : State := State.launch (launchOf .vertical)

/-- `s0` at a position, with rendering of both layers on. -/
def at_ (scanline dot : Nat) : State := { s0 with scanline := scanline, dot := dot, mask := 0x1E#8 }

/-- Bytes as a memory: pairs of an index and a byte, written one after the other. -/
def mem (cells : List (Nat × Nat)) : Memory := cells.foldl (fun m c => m.write c.1 (BitVec.ofNat 8 c.2)) []

/-- Part of the next state of an outcome. -/
def see {α : Type} (f : State → α) (o : Host.Outcome State Fault Refusal) : Option α :=
  match o with
  | .next t => some (f t)
  | _ => none

/-- The fatal of an outcome (none where the block is not halted). -/
def fatalOf (o : Host.Outcome State Fault Refusal) : Option (Option FaultCode) :=
  see (fun t => if t.halted then t.faultCode else none) o

/-! ### Ill-formed terms are refused -/

theorem test_wf_good_launch : (launchOf .horizontal).wf = true := by decide +kernel
theorem test_wf_no_post_render_line :
    ({ Cfg.default with totalScanlines := 261 } : Cfg).wf = false ∧ Cfg.default.wf = true := by decide +kernel
theorem test_wf_no_dots_per_cycle : ({ Cfg.default with dotsPerCycle := 0 } : Cfg).wf = false := by decide +kernel
theorem test_wf_unaligned_window : ({ Cfg.default with regBase := 0x2004#16 } : Cfg).wf = false := by decide +kernel
theorem test_wf_other_line_length : ({ Cfg.default with dotsPerLine := 342 } : Cfg).wf = false := by decide +kernel
theorem test_wf_other_height :
    ({ Cfg.default with visibleLines := 239, totalScanlines := 300 } : Cfg).wf = false := by decide +kernel
theorem test_supported : Cfg.default.supported = true ∧ ({ Cfg.default with standard := .other } : Cfg).supported = false ∧
    ({ Cfg.default with mirroring := .fourScreen } : Cfg).supported = false := by decide +kernel
theorem test_wf_oam_too_long : ({ launchOf .horizontal with oam := [(256, 1#8)] } : Launch).wf = false := by decide +kernel
theorem test_wf_nt_out_of_order :
    ({ launchOf .horizontal with nt := [(5, 1#8), (3, 1#8)] } : Launch).wf = false := by decide +kernel
theorem test_wf_nt_too_long : ({ launchOf .horizontal with nt := [(2048, 1#8)] } : Launch).wf = false := by decide +kernel
theorem test_wf_pal_lists_fill : ({ launchOf .horizontal with pal := [(3, 0#8)] } : Launch).wf = false := by decide +kernel
theorem test_wf_pal_too_long : ({ launchOf .horizontal with pal := [(32, 1#8)] } : Launch).wf = false := by decide +kernel
theorem test_wf_chr_too_long : ({ launchOf .horizontal with chr := [(8192, 1#8)] } : Launch).wf = false := by decide +kernel
theorem test_wf_fb_row : ({ launchOf .horizontal with fb := [(240, [(0, ⟨1#8, 0#8, 0#8⟩)])] } : Launch).wf = false := by
  decide +kernel
theorem test_wf_fb_column : ({ launchOf .horizontal with fb := [(0, [(256, ⟨1#8, 0#8, 0#8⟩)])] } : Launch).wf = false := by
  decide +kernel
theorem test_wf_reset : (Instr.reset { launchOf .horizontal with pal := [(32, 1#8)] }).wf = false := by decide +kernel
theorem test_wf_pixel_dots : (Instr.pixel 0#9).wf = false ∧ (Instr.pixel 1#9).wf = true ∧ (Instr.pixel 256#9).wf = true ∧
    (Instr.pixel 257#9).wf = false := by decide
/-- Group 32 is dots 256 to 263, of which only 256 is a fetch dot; group 42 is 336 to 343. -/
theorem test_wf_fetch_dots : (Instr.fetchNt 0#1 32#6).wf = false ∧ (Instr.fetchAt 0#1 32#6).wf = false ∧
    (Instr.fetchLo 0#1 39#6).wf = false ∧ (Instr.fetchHi 0#1 42#6).wf = false ∧ (Instr.loadIncx 0#1 0#6).wf = false ∧
    (Instr.loadIncx 0#1 40#6).wf = false ∧ (Instr.loadIncx 1#1 32#6).wf = true ∧ (Instr.loadIncx 1#1 42#6).wf = true ∧
    (Instr.fetchNt 0#1 40#6).wf = true ∧ (Instr.fetchHi 0#1 41#6).wf = true ∧ (Instr.fetchNt 1#1 0#6).wf = true := by
  decide
theorem test_wf_copyV_dots : (Instr.copyV 279#9).wf = false ∧ (Instr.copyV 280#9).wf = true ∧
    (Instr.copyV 304#9).wf = true ∧ (Instr.copyV 305#9).wf = false := by decide
theorem test_wf_idle_dots : (Instr.idle 0#2 341#9).wf = false ∧ (Instr.idle 3#2 1#9).wf = false ∧
    (Instr.idle 2#2 1#9).wf = false ∧ (Instr.idle 0#2 340#9).wf = true ∧ (Instr.idle 3#2 257#9).wf = true := by decide

/-! ### Words written out (bit 4 `w`, bit 3 `rw`, bits 2:0 `rs`, R110; bits 10:9 the phase, 8:0 the dot, R112) -/

theorem test_decode_wrControl : decodeBus 0b01000#5 0x90#8 = .ok (.wrControl 0x90#8) := rfl
theorem test_decode_wrMask : decodeBus 0b11001#5 0x1E#8 = .ok (.wrMask 0x1E#8) := rfl
theorem test_decode_rdStatus : decodeBus 0b10010#5 0x00#8 = .ok .rdStatus := rfl
theorem test_decode_wrOamaddr : decodeBus 0b01011#5 0x10#8 = .ok (.wrOamaddr 0x10#8) := rfl
theorem test_decode_rdOamdata : decodeBus 0b00100#5 0x00#8 = .ok .rdOamdata := rfl
theorem test_decode_wrOamdata : decodeBus 0b11100#5 0x12#8 = .ok (.wrOamdata 0x12#8) := rfl
theorem test_decode_wrScroll1 : decodeBus 0b01101#5 0x1B#8 = .ok (.wrScroll1 0x1B#8) := rfl
theorem test_decode_wrScroll2 : decodeBus 0b11101#5 0x5E#8 = .ok (.wrScroll2 0x5E#8) := rfl
theorem test_decode_wrAddr1 : decodeBus 0b01110#5 0x21#8 = .ok (.wrAddr1 0x21#8) := rfl
theorem test_decode_wrAddr2 : decodeBus 0b11110#5 0x08#8 = .ok (.wrAddr2 0x08#8) := rfl
theorem test_decode_rdData : decodeBus 0b00111#5 0x00#8 = .ok .rdData := rfl
theorem test_decode_wrData : decodeBus 0b01111#5 0xAB#8 = .ok (.wrData 0xAB#8) := rfl
theorem test_decode_rdControl : decodeBus 0b00000#5 0x00#8 = .ok .rdControl := rfl
theorem test_decode_rdMask : decodeBus 0b10001#5 0x00#8 = .ok .rdMask := rfl
theorem test_decode_wrStatus : decodeBus 0b01010#5 0x55#8 = .ok (.wrStatus 0x55#8) := rfl
theorem test_decode_rdOamaddr : decodeBus 0b00011#5 0x00#8 = .ok .rdOamaddr := rfl
theorem test_decode_rdScroll : decodeBus 0b10101#5 0x00#8 = .ok .rdScroll := rfl
theorem test_decode_rdAddr : decodeBus 0b00110#5 0x00#8 = .ok .rdAddr := rfl
/-- R110: the word of a transaction. CPU address 0x3FFA selects slot 2 (T1.26). -/
theorem test_busWord : busWord true false 0x3FFA#16 = 0b10010#5 ∧ busWord false true 0x2006#16 = 0b01110#5 := by decide

theorem test_decode_reset : decodeHost 0#3 (.launch Launch.default) = .ok (.reset Launch.default) := rfl
theorem test_decode_dot : decodeHost 1#3 .none = .ok .dot := rfl
theorem test_decode_cycle : decodeHost 2#3 .none = .ok .cycle := rfl
theorem test_decode_oamdma : decodeHost 3#3 (.bytes [1#8]) = .ok (.oamdma [1#8]) := rfl
theorem test_decode_nmipoll : decodeHost 4#3 .none = .ok .nmipoll := rfl
theorem test_decode_unassigned_host : decodeHost 5#3 .none = .error .unassignedHostCode ∧
    decodeHost 7#3 (.bytes []) = .error .unassignedHostCode := ⟨rfl, rfl⟩
theorem test_decode_operand_mismatch : decodeHost 1#3 (.bytes []) = .error .operandMismatch ∧
    decodeHost 0#3 .none = .error .operandMismatch := ⟨rfl, rfl⟩

theorem test_decode_vblSet : decodeSeq 0b00000000001#11 true false = .ok [.vblSet] := rfl
theorem test_decode_flagsClr : decodeSeq 0b10000000001#11 true false = .ok [.flagsClr] := rfl
theorem test_decode_pixel_alone : decodeSeq 0b11000000001#11 true false = .ok [.pixel 1#9] := rfl
theorem test_decode_fetchNt : decodeSeq 0b10000000001#11 true true = .ok [.flagsClr, .fetchNt 0#1 0#6] := rfl
theorem test_decode_fetchAt : decodeSeq 0b10000000011#11 true true = .ok [.fetchAt 0#1 0#6] := rfl
theorem test_decode_fetchLo : decodeSeq 0b11000000101#11 false true = .ok [.pixel 5#9, .fetchLo 1#1 0#6] := rfl
theorem test_decode_fetchHi : decodeSeq 0b11101000111#11 false true = .ok [.fetchHi 1#1 0b101000#6] := rfl
/-- Dot 328. -/
theorem test_decode_loadIncx : decodeSeq 0b11101001000#11 false true = .ok [.loadIncx 1#1 0b101001#6] := rfl
/-- Dot 256 of a visible scanline (R185's order). -/
theorem test_decode_incY_sprEval : decodeSeq 0b11100000000#11 false true =
    .ok [.pixel 256#9, .loadIncx 1#1 0b100000#6, .incY 1#1, .sprEval 1#1] := rfl
/-- Dot 257. -/
theorem test_decode_copyH : decodeSeq 0b10100000001#11 true true = .ok [.copyH 0#1] := rfl
/-- Dot 280. -/
theorem test_decode_copyV : decodeSeq 0b10100011000#11 true true = .ok [.copyV 280#9] := rfl
theorem test_decode_frameDone : decodeSeq 0b01000000000#11 true false = .ok [.frameDone] ∧
    decodeSeq 0b01000000000#11 false false = .ok [.idle 1#2 0#9] := ⟨rfl, rfl⟩
theorem test_decode_idle : decodeSeq 0b00000000000#11 true true = .ok [.idle 0#2 0#9] ∧
    decodeSeq 0b00000000001#11 false true = .ok [.idle 0#2 1#9] := ⟨rfl, rfl⟩
/-- Dot 341. -/
theorem test_decode_dot_range : decodeSeq 0b00101010101#11 true true = .error .dotOutOfRange := rfl

/-- The words of the table, numbered as the table numbers them, and an operation each that the next step then runs. -/
theorem test_table_words : decodeTableWord 5 0b01110 = some (.wrAddr1 0#8) ∧ decodeTableWord 3 2 = some .cycle ∧
    decodeTableWord 8 1 = some .dot ∧ decodeTableWord 8 0b10001 = some .rdMask ∧
    decodeTableWord 11 0b11101001000 = some (.loadIncx 1#1 0b101001#6) ∧ decodeTableWord 3 5 = none := by
  decide +kernel
theorem test_table_step : fatalOf (step (s0.withFetchWord 8 0b10001)) = some (some .f1) ∧
    see (fun t => (t.t, t.w)) (step (({ s0 with t := 0x6163#15 } : State).withFetchWord 8 0b11101)) =
      some (0x0003#15, false) ∧
    see (fun t => (t.scanline, t.dot, t.v)) (step (s0.withFetchWord 16 0b11101001000)) = some (21, 329, 1#15) := by
  decide +kernel

/-! ### The register port (T1) -/

/-- T1.1, T1.2, T1.3: the NMI edge. -/
theorem test_wrControl_edge :
    see (fun t => (t.ctrl, t.nmiPending)) (exec (.wrControl 0x90#8) { s0 with vblank := true }) = some (0x90#8, true) ∧
    see (·.nmiPending) (exec (.wrControl 0x80#8) { s0 with vblank := true, ctrl := 0x80#8 }) = some false ∧
    see (·.nmiPending) (exec (.wrControl 0x80#8) s0) = some false := by decide +kernel
/-- T1.6, T1.7: 8x16 sprites; the nametable bits. -/
theorem test_wrControl_fatal_and_t :
    fatalOf (exec (.wrControl 0xBF#8) s0) = some (some .f2) ∧ see (·.ctrl) (exec (.wrControl 0xBF#8) s0) = some 0#8 ∧
    see (·.t) (exec (.wrControl 0x03#8) s0) = some 0#15 ∧
    see (·.t) (exec (.wrControl 0x03#8) { s0 with cfg := { s0.cfg with ctrlNtToT := true } }) = some 0x0C00#15 := by
  decide +kernel
theorem test_wrMask : see (·.mask) (exec (.wrMask 0x1E#8) s0) = some 0x1E#8 := by decide +kernel
/-- T1.8, T1.9. -/
theorem test_rdStatus :
    see (fun t => (t.reply, t.vblank, t.w, t.sprite0Hit))
      (exec .rdStatus { s0 with vblank := true, sprite0Hit := true, w := true }) = some (.byte 0xC0#8, false, false, true) ∧
    see (·.reply) (exec .rdStatus { s0 with sprite0Hit := true, spriteOverflow := true }) = some (.byte 0x60#8) := by
  decide +kernel
theorem test_wrOamaddr : see (·.oamaddr) (exec (.wrOamaddr 0xFE#8) s0) = some 0xFE#8 := by decide +kernel
/-- T1.11. -/
theorem test_rdOamdata : see (fun t => (t.reply, t.oamaddr))
    (exec .rdOamdata { s0 with oamaddr := 0x02#8, oam := mem [(2, 0xE3)] }) = some (.byte 0xE3#8, 0x02#8) := by
  decide +kernel
/-- R147's example, and T1.10's second write. -/
theorem test_wrOamdata :
    see (fun t => (t.oam.read 255, t.oam.read 0, t.oamaddr)) (exec (.wrOamdata 0x12#8) { s0 with oamaddr := 0xFF#8 }) =
      some (0x12#8, 0xF8#8, 0x00#8) ∧
    see (fun t => (t.oam.read 0xFE, t.oamaddr)) (exec (.wrOamdata 0x00#8) { s0 with oamaddr := 0xFE#8 }) =
      some (0x00#8, 0xFF#8) := by decide +kernel
/-- X5, T1.12. -/
theorem test_wrScroll1 :
    see (fun t => (t.x, t.t, t.w)) (exec (.wrScroll1 0x1B#8) s0) = some (3#3, 0x0003#15, true) ∧
    see (fun t => (t.x, t.t, t.w)) (exec (.wrScroll1 0x00#8) { s0 with t := 0x7FFF#15 }) = some (0#3, 0x7FE0#15, true) := by
  decide +kernel
/-- X5, T1.13, T1.14. -/
theorem test_wrScroll2 :
    see (fun t => (t.t, t.w)) (exec (.wrScroll2 0x5E#8) { s0 with t := 0x0003#15, w := true }) = some (0x6163#15, false) ∧
    see (·.t) (exec (.wrScroll2 0x00#8) { s0 with t := 0x7FFF#15, w := true }) = some 0x0C1F#15 ∧
    see (·.t) (exec (.wrScroll2 0xFF#8) { s0 with w := true }) = some 0x73E0#15 := by decide +kernel
/-- R150's example, T1.15. -/
theorem test_wrAddr1 :
    see (fun t => (t.t, t.v, t.w)) (exec (.wrAddr1 0x3F#8) { s0 with t := 0x6163#15 }) = some (0x3F63#15, 0#15, true) ∧
    see (·.t) (exec (.wrAddr1 0xFF#8) { s0 with t := 0x7FFF#15 }) = some 0x3FFF#15 := by decide +kernel
/-- T1.16. -/
theorem test_wrAddr2 : see (fun t => (t.t, t.v, t.w)) (exec (.wrAddr2 0x34#8) { s0 with t := 0x7F00#15, w := true }) =
    some (0x7F34#15, 0x7F34#15, false) := by decide +kernel
/-- T1.18, both reads: buffered just below the palette, immediate in it. -/
theorem test_rdData_boundary :
    see (fun t => (t.reply, t.rbuf, t.v))
      (exec .rdData { s0 with v := 0x3EFF#15, rbuf := 0x55#8, nt := mem [(1791, 0x66)] }) =
        some (.byte 0x55#8, 0x66#8, 0x3F00#15) ∧
    see (fun t => (t.reply, t.rbuf, t.v))
      (exec .rdData { s0 with v := 0x3F00#15, rbuf := 0x66#8, nt := mem [(1792, 0x77)], pal := mem [(0, 0x2A)] }) =
        some (.byte 0x2A#8, 0x77#8, 0x3F01#15) := by decide +kernel
/-- T1.21, T1.22. -/
theorem test_rdData_alias_and_cartridge :
    see (fun t => (t.reply, t.v)) (exec .rdData { s0 with v := 0x3FF0#15, ctrl := 0x04#8, pal := mem [(0, 0x2A), (16, 0x15)] }) =
      some (.byte 0x2A#8, 0x4010#15) ∧
    see (fun t => (t.reply, t.rbuf)) (exec .rdData { s0 with v := 0x0FFF#15, chr := mem [(0xFFF, 0x9C)] }) =
      some (.byte 0#8, 0x9C#8) := by decide +kernel
/-- T1.19, T1.20. -/
theorem test_wrData :
    see (fun t => (t.pal.read 0x1F, t.v)) (exec (.wrData 0x5A#8) { s0 with v := 0x7FFF#15 }) = some (0x5A#8, 0#15) ∧
    see (fun t => (t.nt.read 0xFF, t.v)) (exec (.wrData 0x5A#8) { s0 with v := 0x70FF#15 }) = some (0x5A#8, 0x7100#15) := by
  decide +kernel
/-- R154's example; R78: a pattern write is stored only in a writable pattern memory. -/
theorem test_wrData_alias_and_cartridge :
    see (fun t => (t.pal.read 0, t.pal.read 16)) (exec (.wrData 0x2A#8) { s0 with v := 0x3F10#15 }) = some (0x2A#8, 0#8) ∧
    see (fun t => t.chr.read 5) (exec (.wrData 0x2A#8) { s0 with v := 5#15 }) = some 0#8 ∧
    see (fun t => t.chr.read 5) (exec (.wrData 0x2A#8) { s0 with v := 5#15, chrWritable := true }) = some 0x2A#8 := by
  decide +kernel
/-- T1.24, T1.25. -/
theorem test_violations :
    [Instr.rdControl, .rdMask, .wrStatus 0#8, .rdOamaddr, .rdScroll, .rdAddr].map (fun i => fatalOf (exec i s0)) =
      List.replicate 6 (some (some .f1)) ∧ see (·.w) (exec .rdScroll s0) = some false := by decide +kernel
/-- T1.26. -/
theorem test_window :
    fatalOf (step { s0 with pending := [.bus true 0x4000#16 0#8] }) = some (some .f1) ∧
    fatalOf (step { s0 with pending := [.bus false 0x1FFF#16 0#8] }) = some (some .f1) ∧
    see (·.reply) (step { s0 with vblank := true, pending := [.bus false 0x3FFA#16 0#8] }) = some (.byte 0x80#8) := by
  decide +kernel

/-! ### The translator (T2), the out-of-band operations, the fatals (T7) -/

/-- T2.1 to T2.11. -/
theorem test_translator :
    translateAddress s0.cfg 0x1FFF#15 = .ok (.cart 0x1FFF) ∧ translateAddress s0.cfg 0x2400#15 = .ok (.nt 0) ∧
    translateAddress sV.cfg 0x2400#15 = .ok (.nt 1024) ∧ translateAddress s0.cfg 0x2800#15 = .ok (.nt 1024) ∧
    translateAddress sV.cfg 0x2800#15 = .ok (.nt 0) ∧ translateAddress sV.cfg 0x2FFF#15 = .ok (.nt 2047) ∧
    translateAddress s0.cfg 0x3EFF#15 = .ok (.nt 1791) ∧ translateAddress s0.cfg 0x3FF0#15 = .ok (.pal 0) ∧
    translateAddress s0.cfg 0x3F18#15 = .ok (.pal 8) ∧ translateAddress s0.cfg 0x3F11#15 = .ok (.pal 0x11) ∧
    translateAddress s0.cfg 0x4000#15 = .error .f4 := by decide +kernel
/-- T7.7: a good launch gives the reset values. -/
theorem test_reset : see (fun t => (t.ctrl, t.v, t.sec.read 31, t.halted)) (exec (.reset (launchOf .vertical))
    { s0 with ctrl := 0x80#8, v := 5#15, sec := [] }) = some (0#8, 0#15, 0xFF#8, false) := by decide +kernel
/-- T7.4, T7.5, and R321's ill-formed launch. -/
theorem test_reset_checks :
    fatalOf (exec (.reset (launchOf .fourScreen)) s0) = some (some .f2) ∧
    fatalOf (exec (.reset { launchOf .horizontal with cfg := { s0.cfg with standard := .other } }) s0) = some (some .f2) ∧
    exec (.reset { launchOf .horizontal with cfg := { s0.cfg with dotsPerCycle := 0 } }) s0 = .refused .illFormedLaunch := by
  refine ⟨by decide +kernel, by decide +kernel, rfl⟩
/-- X8, T7.3. -/
theorem test_oamdma :
    see (fun t => (t.oam.read 7, t.oam.read 255, t.oamaddr))
      (exec (.oamdma ((List.range 256).map (BitVec.ofNat 8))) { s0 with oamaddr := 0x40#8 }) =
        some (7#8, 255#8, 0x40#8) ∧
    [0, 255, 257].map (fun n => fatalOf (exec (.oamdma (List.replicate n 0#8)) s0)) =
      List.replicate 3 (some (some .f3)) := by decide +kernel
/-- T1.23. -/
theorem test_nmipoll : see (fun t => (t.reply, t.nmiPending)) (exec .nmipoll { s0 with nmiPending := true }) =
    some (.bit true, false) := by decide +kernel
/-- T7.1: nothing after a fatal. -/
theorem test_halted :
    see (fun t => (t.reply, t.w)) (exec .rdStatus { s0 with halted := true, faultCode := some .f1, w := true }) =
      some (.none, true) ∧
    see (·.dot) (exec .cycle { s0 with halted := true, faultCode := some .f1 }) = some 0 := by decide +kernel

/-! ### The driver (T3) -/

/-- T3.1, T3.2 (its second DOT), T3.4, T3.5. -/
theorem test_dot :
    see (fun t => (t.scanline, t.dot, t.vblank)) (exec .dot s0) = some (0, 1, false) ∧
    see (fun t => (t.dot, t.vblank, t.nmiPending)) (exec .dot { s0 with dot := 1 }) = some (2, true, false) ∧
    see (fun t => (t.scanline, t.dot)) (exec .dot { s0 with dot := 340 }) = some (1, 0) ∧
    see (fun t => (t.scanline, t.dot)) (exec .dot { s0 with scanline := 261, dot := 340 }) = some (0, 0) := by
  decide +kernel
/-- T3.8, T3.11. -/
theorem test_dot_flags :
    see (fun t => (t.vblank, t.sprite0Hit, t.spriteOverflow, t.nmiPending)) (exec .dot { s0 with
      scanline := 20, dot := 1, vblank := true, sprite0Hit := true, spriteOverflow := true, nmiPending := true }) =
        some (false, false, false, true) ∧
    see (·.vblank) (exec .dot { s0 with ctrl := 0x80#8, scanline := 1, dot := 1 }) = some false := by decide +kernel
/-- T3.3; R184's extra dot on every second CYCLE. -/
theorem test_cycle :
    see (fun t => (t.dot, t.vblank, t.cycMod)) (exec .cycle s0) = some (3, true, 0) ∧
    see (fun t => (t.dot, t.cycMod)) (exec .cycle { s0 with cfg := { s0.cfg with extraDotPeriod := 2 } }) = some (3, 1) ∧
    see (fun t => (t.dot, t.cycMod)) (exec .cycle { s0 with cfg := { s0.cfg with extraDotPeriod := 2 }, cycMod := 1 }) =
      some (4, 0) := by decide +kernel
theorem test_vblSet : see (fun t => (t.vblank, t.nmiPending)) (exec .vblSet { s0 with ctrl := 0x80#8 }) =
    some (true, true) := by decide +kernel
theorem test_flagsClr : see (fun t => (t.vblank, t.nmiPending)) (exec .flagsClr { s0 with vblank := true, nmiPending := true }) =
    some (false, true) := by decide +kernel
/-- T3.6: the last DOT. -/
theorem test_frameDone :
    see (fun t => t.frames.map (fun f => f.read 3 4))
      (exec .dot { s0 with scanline := 261, fb := [(3, [(4, ⟨1#8, 2#8, 3#8⟩)])] }) = some [⟨1#8, 2#8, 3#8⟩] ∧
    see (·.frames.length) (exec .frameDone s0) = some 1 := by decide +kernel
theorem test_idle : see (fun t => (t.v, t.dot)) (exec (.idle 0#2 7#9) { s0 with v := 9#15 }) = some (9#15, 0) := by
  decide +kernel

/-! ### The background pipeline (T4) -/

/-- T4.1. -/
theorem test_fetchNt :
    see (·.ntLatch) (exec (.fetchNt 0#1 0#6) { s0 with v := 0x2965#15, nt := mem [(0x565, 0x41)] }) = some 0x41#8 ∧
    see (·.ntLatch) (exec (.fetchNt 0#1 0#6) { s0 with v := 0x03C0#15, nt := mem [(0x3C0, 0x42)] }) = some 0x42#8 := by
  decide +kernel
/-- T4.2, T4.5 (address 0x2BD1, shift 4); T4.3 (`v = 0x0042`: shift 6). -/
theorem test_fetchAt :
    see (·.atLatch) (exec (.fetchAt 0#1 0#6) { s0 with v := 0x2965#15, nt := mem [(0x7D1, 0b10011100)] }) = some 0x4#4 ∧
    see (·.atLatch) (exec (.fetchAt 0#1 0#6) { s0 with v := 0x0042#15, nt := mem [(0x3C0, 0b10011100)] }) = some 0x8#4 := by
  decide +kernel
/-- T4.6. -/
theorem test_fetchLo :
    see (·.ptLo) (exec (.fetchLo 0#1 0#6) { s0 with
      ctrl := 0x10#8, ntLatch := 0x01#8, v := 0x2000#15, chr := mem [(0x1012, 0x7E)] }) = some 0x7E#8 ∧
    see (·.ptLo) (exec (.fetchLo 0#1 0#6) { s0 with
      ntLatch := 0xFF#8, v := 0x7000#15, chr := mem [(0x0FF7, 0x7D)] }) = some 0x7D#8 := by decide +kernel
/-- T4.6. -/
theorem test_fetchHi :
    see (·.ptHi) (exec (.fetchHi 0#1 0#6) { s0 with
      ctrl := 0x10#8, ntLatch := 0x01#8, v := 0x2000#15, chr := mem [(0x101A, 0x7E)] }) = some 0x7E#8 ∧
    see (·.ptHi) (exec (.fetchHi 0#1 0#6) { s0 with
      ctrl := 0x10#8, ntLatch := 0xFF#8, v := 0x7000#15, chr := mem [(0x1FFF, 0x7D)] }) = some 0x7D#8 := by decide +kernel
/-- T4.7, T4.8, T4.9, X6. -/
theorem test_loadIncx :
    see (fun t => (t.bgbuf, t.v)) (exec (.loadIncx 0#1 1#6) { s0 with
      atLatch := 0x8#4, ptLo := 0x81#8, ptHi := 0x03#8, bgbuf := 0x11111111#64, v := 0x001F#15 }) =
        some (0x11111111988888AB#64, 0x0400#15) ∧
    see (fun t => (t.bgbuf, t.v)) (exec (.loadIncx 0#1 1#6) { s0 with
      ptLo := 0xF0#8, ptHi := 0x3C#8, bgbuf := 0x0123456789ABCDEF#64, v := 0x2965#15 }) =
        some (0x89ABCDEF11332200#64, 0x2966#15) := by decide +kernel
/-- T4.10. -/
theorem test_incY : [0x0000#15, 0x7000#15, 0x73A5#15, 0x7BA5#15, 0x73C0#15, 0x73E0#15, 0x7BE0#15, 0x2965#15].map
    (fun v => see (·.v) (exec (.incY 0#1) { s0 with v := v })) =
    [0x1000#15, 0x0020#15, 0x0805#15, 0x0005#15, 0x03E0#15, 0x0000#15, 0x0800#15, 0x3965#15].map some := by
  decide +kernel
/-- T4.11. -/
theorem test_copyH :
    see (·.v) (exec (.copyH 0#1) { s0 with v := 0x3D72#15, t := 0x0403#15 }) = some 0x3D63#15 ∧
    see (·.v) (exec (.copyH 0#1) { s0 with t := 0x7FFF#15 }) = some 0x041F#15 := by decide +kernel
/-- T4.12. -/
theorem test_copyV :
    see (·.v) (exec (.copyV 280#9) { s0 with v := 0x0C1F#15, t := 0x6163#15 }) = some 0x657F#15 ∧
    see (·.v) (exec (.copyV 280#9) { s0 with t := 0x7FFF#15 }) = some 0x7BE0#15 := by decide +kernel

/-! ### The sprite evaluator (T5) -/

/-- A primary table: the entries named, every other `[0xF8, 0, 0, 0]`. -/
def sprites (l : List (Nat × List Nat)) : Memory :=
  Memory.fromBytes 0 ((List.range 64).flatMap fun i => ((l.lookup i).getD [0xF8, 0, 0, 0]).map (BitVec.ofNat 8))

/-- Sprites `lo` to `hi - 1`, each `[48, 2, 0, 8i]`. -/
def row48 (lo hi : Nat) : List (Nat × List Nat) := (List.range' lo (hi - lo)).map fun i => (i, [48, 2, 0, 8 * i])

/-- The evaluation of T5: at scanline 68, for row 48. -/
def evaluate (l : List (Nat × List Nat)) : Host.Outcome State Fault Refusal :=
  exec (.sprEval 1#1) { at_ 68 256 with oam := sprites l }

/-- T5.1, T5.2, T5.3, T5.4: the overflow bug. -/
theorem test_sprEval_overflow :
    see (·.spriteOverflow) (evaluate (row48 0 9)) = some true ∧
    see (·.spriteOverflow) (evaluate (row48 0 8 ++ [(9, [48, 0x80, 0, 0])])) = some false ∧
    see (·.spriteOverflow) (evaluate (row48 0 8 ++ [(9, [0xF8, 45, 0, 0])])) = some true ∧
    see (fun t => (t.spriteOverflow, t.slot0IsSprite0, t.sec.read 3)) (evaluate (row48 1 9)) = some (false, false, 8#8) := by
  decide +kernel
/-- T5.5: row 12, scanline 32. -/
theorem test_sprEval_partial :
    see (fun t => ((List.range 14).map t.sec.read, t.slot0IsSprite0)) (exec (.sprEval 1#1) { at_ 32 256 with
      oam := sprites [(0, [10, 1, 2, 3]), (5, [12, 4, 5, 6]), (63, [0xEE, 9, 9, 9])] }) =
      some ([10#8, 1#8, 2#8, 3#8, 12#8, 4#8, 5#8, 6#8, 0xEE#8, 0xFF#8, 0xFF#8, 0xFF#8, 0xFF#8, 0xFF#8], true) := by
  decide +kernel
/-- T5.6, T5.7, T5.8. -/
theorem test_sprEval_rows :
    see (·.slot0IsSprite0) (exec (.sprEval 0#1) { at_ 20 256 with oam := sprites [(0, [0, 0, 0, 0])] }) = some true ∧
    see (·.slot0IsSprite0) (exec (.sprEval 0#1) { at_ 20 256 with oam := sprites [(0, [1, 0, 0, 0])] }) = some false ∧
    see (·.slot0IsSprite0) (exec (.sprEval 1#1) { at_ 260 256 with oam := sprites [(0, [0xF0, 0, 0, 0])] }) = some true ∧
    see (·.slot0IsSprite0) (exec .dot { at_ 260 256 with oam := sprites [(0, [0xF0, 0, 0, 0])], mask := 0#8 }) =
      some false := by decide +kernel

/-! ### The compositor (T6) -/

/-- T6.1 to T6.9. -/
theorem test_mux :
    [muxIndex 0x0#4 none, muxIndex 0x8#4 none, muxIndex 0x9#4 none, muxIndex 0xC#4 (some ⟨0, 1#2, 0x00#8⟩),
      muxIndex 0x0#4 (some ⟨3, 3#2, 0x23#8⟩), muxIndex 0x6#4 (some ⟨0, 2#2, 0x01#8⟩),
      muxIndex 0x6#4 (some ⟨0, 2#2, 0x21#8⟩)] = [0x00#5, 0x00#5, 0x09#5, 0x11#5, 0x1F#5, 0x16#5, 0x06#5] ∧
    muxHit false true 0xC#4 (some ⟨0, 1#2, 0x00#8⟩) = false ∧ muxHit false true 0x6#4 (some ⟨0, 2#2, 0x21#8⟩) = true ∧
    muxHit false true 0x6#4 (some ⟨1, 2#2, 0x01#8⟩) = false ∧ muxHit false false 0x6#4 (some ⟨0, 2#2, 0x01#8⟩) = false := by
  decide
/-- T6's BgNibble line. -/
theorem test_bgNibble :
    [(0, 0#3), (7, 0#3), (0, 7#3), (7, 7#3), (13, 2#3)].map
      (fun c => bgNibble { at_ 21 1 with bgbuf := 0x0123456789ABCDEF#64, x := c.2 } c.1) =
        [0x0#4, 0x7#4, 0x7#4, 0xE#4, 0x7#4] ∧
    bgNibble { at_ 21 1 with bgbuf := 0x0123456789ABCDEF#64, mask := 0x08#8 } 7 = 0x0#4 ∧
    bgNibble { at_ 21 1 with bgbuf := 0xF#64 <<< 60, mask := 0x08#8 } 8 = 0xF#4 := by decide +kernel
/-- T6's sprite colour line: slot 0 at (20, 10), tile 4, under the four flips. -/
theorem test_slotColour :
    [(0x00, 20, 10), (0x00, 27, 17), (0x40, 27, 10), (0x80, 20, 17), (0xC0, 27, 17), (0xC0, 20, 10), (0x00, 21, 10)].map
      (fun c => (slotColour { s0 with
        sec := mem [(0, 10), (1, 4), (2, c.1), (3, 20)]
        chr := mem [(0x40, 0x80), (0x48, 0x80), (0x47, 1)] } 0 c.2.1 c.2.2).toOption) =
      [3#2, 1#2, 3#2, 3#2, 3#2, 1#2, 0#2].map some := by decide +kernel
/-- P5's first pixel: nibble 0x9, palette byte 0x16; and a sprite of slot 0 over it, which hits. -/
theorem test_pixel :
    see (fun t => (t.fb.read 0 0, t.sprite0Hit)) (exec (.pixel 1#9) { at_ 21 1 with
      bgbuf := 0x8889888888888888#64, x := 3#3, pal := mem [(0, 0x0F), (9, 0x16)] }) =
        some (⟨0x16#8, 0#8, 0#8⟩, false) ∧
    see (fun t => (t.fb.read 0 0, t.sprite0Hit)) (exec (.pixel 1#9) { at_ 21 1 with
      bgbuf := 0x8889888888888888#64, x := 3#3, pal := mem [(0, 0x0F), (9, 0x16), (0x11, 0x51)], chr := mem [(0x20, 0x80)],
      sec := mem [(0, 0), (1, 2), (2, 0), (3, 0)], slot0IsSprite0 := true }) =
        some (⟨0x11#8, 0#8, 0#8⟩, true) := by decide +kernel

/-! ### Each statement's hypotheses are met: `witness_<Name>` for `Obligations.<Name>` -/

/-- What is seen of an outcome is seen of its next state. -/
theorem see_some {α : Type} {f : State → α} {o : Host.Outcome State Fault Refusal} {a : α} (h : see f o = some a) :
    ∃ t, o = .next t ∧ f t = a := by
  unfold see at h
  split at h
  next t => cases h; exact ⟨t, rfl, rfl⟩
  next => cases h

theorem see_true {p : State → Prop} [DecidablePred p] {o : Host.Outcome State Fault Refusal}
    (h : see (fun t => decide (p t)) o = some true) : ∃ t, o = .next t ∧ p t := by
  obtain ⟨t, h1, h2⟩ := see_some h
  exact ⟨t, h1, of_decide_eq_true h2⟩

/-- The invariant at the positions where the sequencer does something, at the ends of their ranges, and at idle ones. -/
theorem witness_positions :
    [(0, 0), (0, 1), (0, 2), (1, 1), (19, 340), (20, 1), (20, 256), (20, 257), (20, 280), (20, 304), (20, 336), (21, 1),
      (21, 8), (260, 256), (260, 321), (261, 0), (261, 340)].all
      (fun p => decide ((at_ p.1 p.2).Inv ∧ (at_ p.1 p.2).halted = false)) = true := by decide +kernel

theorem witness_DecodeInvertsEncode :
    [Instr.reset (launchOf .vertical), .oamdma [], .pixel 1#9, .pixel 256#9, .fetchNt 0#1 0#6, .fetchHi 1#1 41#6,
      .loadIncx 1#1 32#6, .loadIncx 0#1 42#6, .copyV 280#9, .copyV 304#9, .idle 0#2 340#9].all Instr.wf = true := by
  decide +kernel
theorem witness_BusMapIsComplete : ∀ k : BitVec 3, (0x2000#16 + k.setWidth 16).extractLsb' 0 3 = k ∧
    (0x3FF8#16 + k.setWidth 16).extractLsb' 0 3 = k := by decide
theorem witness_SequencerMap : (at_ 260 256).Inv ∧
    ({ s0 with cfg := { s0.cfg with vblankLines := 0, totalScanlines := 242 } } : State).Inv := by decide +kernel
theorem witness_StepRunsTheDecodedOperation :
    (∃ s : State, s.pending = Request.bus true 0x2000#16 0#8 :: [] ∧ s.halted = false ∧ s.cfg.regBase.toNat ≤ 0x2000 ∧
      0x2000 < s.cfg.regBase.toNat + s.cfg.regSize ∧
      decodeBus (busWord s.w true 0x2000#16) 0#8 = .ok (.wrControl 0#8)) ∧
    (∃ s : State, s.pending = Request.bus false 0x3FFF#16 0#8 :: [] ∧ s.halted = false ∧ s.cfg.regBase.toNat ≤ 0x3FFF ∧
      0x3FFF < s.cfg.regBase.toNat + s.cfg.regSize ∧ decodeBus (busWord s.w false 0x3FFF#16) 0#8 = .ok .rdData) ∧
    (∃ s : State, s.pending = Request.host 4#3 .none :: [] ∧ decodeHost 4#3 .none = .ok .nmipoll) ∧ s0.pending = [] :=
  ⟨⟨{ s0 with pending := [.bus true 0x2000#16 0#8] }, by decide +kernel⟩,
    ⟨{ s0 with pending := [.bus false 0x3FFF#16 0#8] }, by decide +kernel⟩,
    ⟨{ s0 with pending := [.host 4#3 .none] }, by decide +kernel⟩, rfl⟩
theorem witness_ProtocolViolationsAreF1 :
    s0.halted = false ∧ (∀ k : BitVec 3, (0x2000#16 + k.setWidth 16).extractLsb' 0 3 = k) ∧
    ({ s0 with pending := [.bus true 0x1FFF#16 0#8] } : State).pending = Request.bus true 0x1FFF#16 0#8 :: [] ∧
    0x1FFF < s0.cfg.regBase.toNat ∧
    ({ s0 with pending := [.bus false 0x4000#16 0#8] } : State).pending = Request.bus false 0x4000#16 0#8 :: [] ∧
    s0.cfg.regBase.toNat + s0.cfg.regSize ≤ 0x4000 := by decide +kernel
theorem witness_UnassignedHostCodesAreRefused : ∃ s : State, s.pending = Request.host 5#3 .none :: [] ∧ 5 ≤ (5#3).toNat :=
  ⟨{ s0 with pending := [.host 5#3 .none] }, by decide +kernel⟩
/-- A halted block whose host issues a RESET and a transaction outside the window. -/
theorem witness_HaltedBlockDoesNothing : ∃ s : State, s.halted = true ∧
    ∃ t, step s = .next t ∧ t.pending = [Request.bus true 0x0000#16 0#8] :=
  ⟨{ s0 with halted := true, faultCode := some .f3,
             pending := [.host 0#3 (.launch (launchOf .vertical)), .bus true 0x0000#16 0#8] },
    rfl, see_true (by decide +kernel)⟩

theorem witness_ControlWriteStoresAndRaisesOnTheEdge : s0.halted = false ∧ (0xDF#8).getLsbD 5 = false ∧
    s0.cfg.ctrlNtToT = false ∧ ({ s0 with cfg := { s0.cfg with ctrlNtToT := true } } : State).cfg.ctrlNtToT = true := by
  decide +kernel
theorem witness_EightBySixteenSpritesAreF2 : s0.halted = false ∧ (0x20#8).getLsbD 5 = true := by decide +kernel
theorem witness_MaskWriteStoresTheByte : s0.halted = false := rfl
theorem witness_StatusReadReturnsThenClears : s0.halted = false ∧
    (∃ t u, exec .rdStatus { s0 with vblank := true, w := true } = .next t ∧ exec .rdStatus t = .next u) ∧
    (0x3FFA#16).extractLsb' 0 3 = 2#3 := ⟨rfl, ⟨_, _, rfl, rfl⟩, rfl⟩
theorem witness_CursorWriteStoresTheByte : s0.halted = false ∧ (0x2003#16).extractLsb' 0 3 = 3#3 := ⟨rfl, rfl⟩
theorem witness_SpriteTableReadReturnsTheByte : s0.halted = false := rfl
theorem witness_SpriteTableWriteStoresAndIncrements : s0.halted = false ∧ Memory.wf 256 s0.oam = true ∧
    (0x2004#16).extractLsb' 0 3 = 4#3 := by decide +kernel
theorem witness_FirstScrollWrite : s0.halted = false := rfl
theorem witness_SecondScrollWrite : ({ s0 with w := true } : State).halted = false := rfl
theorem witness_FirstAddressWrite : s0.halted = false ∧ (0x2006#16).extractLsb' 0 3 = 6#3 := ⟨rfl, rfl⟩
theorem witness_SecondAddressWrite : ({ s0 with w := true } : State).halted = false ∧
    (0x3FFE#16).extractLsb' 0 3 = 6#3 := ⟨rfl, rfl⟩
theorem ports_in_window (c : Cfg) (h1 : c.regBase.toNat = 0x2000) (h2 : c.regSize = 0x2000) :
    ∀ p ∈ [0x2006#16, 0x2005#16, 0x200D#16, 0x3FFE#16],
      c.regBase.toNat ≤ p.toNat ∧ p.toNat < c.regBase.toNat + c.regSize := by
  rw [h1, h2]
  intro p hp
  simp only [List.mem_cons, List.not_mem_nil, or_false] at hp
  rcases hp with rfl | rfl | rfl | rfl <;> decide
/-- P4's four writes. -/
theorem witness_MixedScrollAndAddressWrites : ∃ s : State, s.halted = false ∧ s.w = false ∧
    s.pending = [.bus true 0x2006#16 0x04#8, .bus true 0x2005#16 0x3E#8, .bus true 0x200D#16 0x7D#8,
      .bus true 0x3FFE#16 0xEF#8] ++ [] ∧
    (0x2006#16).extractLsb' 0 3 = 6#3 ∧ (0x2005#16).extractLsb' 0 3 = 5#3 ∧ (0x200D#16).extractLsb' 0 3 = 5#3 ∧
    (0x3FFE#16).extractLsb' 0 3 = 6#3 ∧
    (∀ p ∈ [0x2006#16, 0x2005#16, 0x200D#16, 0x3FFE#16],
      s.cfg.regBase.toNat ≤ p.toNat ∧ p.toNat < s.cfg.regBase.toNat + s.cfg.regSize) :=
  ⟨{ s0 with pending := [.bus true 0x2006#16 0x04#8, .bus true 0x2005#16 0x3E#8, .bus true 0x200D#16 0x7D#8,
      .bus true 0x3FFE#16 0xEF#8] }, rfl, rfl, rfl, rfl, rfl, rfl, rfl,
    ports_in_window s0.cfg (by decide +kernel) (by decide +kernel)⟩
theorem witness_DataReadIsBufferedBelowThePalette : s0.halted = false ∧ s0.cfg.mirroring ≠ .fourScreen ∧
    (0x7EFF#15 &&& 0x3FFF#15).toNat < 0x3F00 ∧ 0x3F00 ≤ (0x3F00#15 &&& 0x3FFF#15).toNat := by decide +kernel
theorem witness_DataWriteStoresThroughTheTranslator : s0.halted = false ∧ s0.cfg.mirroring ≠ .fourScreen ∧
    Memory.wf 2048 s0.nt = true ∧ Memory.wf 32 s0.pal = true ∧ Memory.wf 8192 s0.chr = true ∧
    (0x2007#16).extractLsb' 0 3 = 7#3 := by decide +kernel
/-- A write at 0x3F10 read at 0x3F00 (an alias), and one at 0x3F1F read at 0x3FFF (a mirror). -/
theorem witness_PaletteWriteReadsBackThroughItsMirrors :
    (∃ s t : State, ∃ a : VAddr, s.halted = false ∧ s.cfg.mirroring ≠ .fourScreen ∧ Memory.wf 32 s.pal = true ∧
      0x3F00 ≤ (s.v &&& 0x3FFF#15).toNat ∧ exec (.wrData 0xC5#8) s = .next t ∧ 0x3F00 ≤ a.toNat ∧ a.toNat < 0x4000 ∧
      (a.toNat % 16 = s.v.toNat % 16 ∧ a.toNat % 4 = 0)) ∧
    (∃ s t : State, ∃ a : VAddr, s.halted = false ∧ s.cfg.mirroring ≠ .fourScreen ∧ Memory.wf 32 s.pal = true ∧
      0x3F00 ≤ (s.v &&& 0x3FFF#15).toNat ∧ exec (.wrData 0xC5#8) s = .next t ∧ 0x3F00 ≤ a.toNat ∧ a.toNat < 0x4000 ∧
      a.toNat % 32 = s.v.toNat % 32) := by
  obtain ⟨t, ht, -⟩ := see_true (p := fun _ => True) (o := exec (.wrData 0xC5#8) { s0 with v := 0x3F10#15 })
    (by decide +kernel)
  obtain ⟨u, hu, -⟩ := see_true (p := fun _ => True) (o := exec (.wrData 0xC5#8) { s0 with v := 0x7F1F#15 })
    (by decide +kernel)
  exact ⟨⟨_, t, 0x3F00#15, rfl, by decide, by decide +kernel, by decide, ht, by decide, by decide, by decide⟩,
    ⟨_, u, 0x3FFF#15, rfl, by decide, by decide +kernel, by decide, hu, by decide, by decide, by decide⟩⟩
theorem witness_TranslatorRegions : s0.cfg.mirroring = .horizontal ∧ sV.cfg.mirroring = .vertical ∧
    (0x1FFF#15).toNat < 0x2000 ∧ 0x2000 ≤ (0x2000#15).toNat ∧ (0x2000#15).toNat ≤ 0x3EFF ∧
    0x2000 ≤ (0x3EFF#15).toNat ∧ (0x3EFF#15).toNat ≤ 0x3EFF ∧ 0x3F00 ≤ (0x3F00#15).toNat ∧
    (0x3FFF#15).toNat ≤ 0x3FFF ∧ 0x4000 ≤ (0x4000#15).toNat ∧ 0x4000 ≤ (0x7FFF#15).toNat ∧
    translateAddress s0.cfg 0x1FFF#15 = .ok (.cart 0x1FFF) ∧ translateAddress s0.cfg 0x3EFF#15 = .ok (.nt 0x6FF) ∧
    translateAddress s0.cfg 0x3FFF#15 = .ok (.pal 31) ∧ translateAddress s0.cfg 0x4000#15 = .error .f4 := by
  decide +kernel
theorem witness_MirroredAddressesResolveAlike : s0.cfg.mirroring = .horizontal ∧ sV.cfg.mirroring = .vertical ∧
    0x3000 ≤ (0x3000#15).toNat ∧ (0x3EFF#15).toNat ≤ 0x3EFF ∧ 0x2000 ≤ (0x2000#15).toNat ∧
    (0x2FFF#15).toNat ≤ 0x2FFF ∧ 0x3F00 ≤ (0x3F00#15).toNat ∧ (0x3FFF#15).toNat ≤ 0x3FFF := by decide +kernel

theorem witness_BulkTransferReplacesTheTable : s0.halted = false ∧ (List.replicate 256 7#8).length = 256 :=
  ⟨rfl, List.length_replicate⟩
theorem witness_MalformedBulkTransferIsF3 : s0.halted = false ∧ ([] : List Byte).length ≠ 256 ∧
    (List.replicate 257 7#8).length ≠ 256 := ⟨rfl, by decide, by rw [List.length_replicate]; decide⟩
theorem witness_PollReturnsAndClears : s0.halted = false ∧
    ∃ t u, exec .nmipoll { s0 with nmiPending := true } = .next t ∧ exec .nmipoll t = .next u :=
  ⟨rfl, _, _, rfl, rfl⟩
theorem witness_ResetGivesTheResetValues : s0.halted = false ∧ (launchOf .vertical).cfg.standard = .std0 ∧
    (launchOf .vertical).cfg.mirroring ≠ .fourScreen ∧ (launchOf .vertical).wf = true := by decide +kernel
theorem witness_ResetChecksItsConfiguration : s0.halted = false ∧ (launchOf .fourScreen).cfg.mirroring = .fourScreen ∧
    ({ s0.cfg with standard := .other } : Cfg).standard ≠ .std0 ∧
    s0.cfg.standard = .std0 ∧ s0.cfg.mirroring ≠ .fourScreen ∧ ¬ (20 + 1 + s0.cfg.visibleLines < 261) ∧ ¬ 1 ≤ 0 ∧
    ¬ (0x2001#16).toNat % 8 = 0 := by decide +kernel

theorem witness_VblankSetAtScanlineZeroDotOne : s0.halted = false ∧ (at_ 0 1).Inv ∧ 0 < (at_ 0 1).cfg.vblankLines ∧
    (at_ 0 1).microOps = .ok [.vblSet] ∧ (at_ 1 1).Inv ∧ (at_ 1 1).microOps = .ok [.idle 0#2 1#9] := by decide +kernel
theorem witness_VblankLinesOnlySetTheFlag : (at_ 0 1).Inv ∧ (at_ 19 340).Inv ∧ (at_ 19 340).halted = false ∧
    (at_ 19 340).scanline < (at_ 19 340).cfg.vblankLines := by decide +kernel
theorem witness_FlagsClearedAtThePreRenderLine : (at_ 20 1).Inv ∧ (at_ 20 1).halted = false ∧
    (at_ 20 1).scanline = (at_ 20 1).cfg.vblankLines ∧ (at_ 20 1).dot = 1 := by decide +kernel
theorem witness_FrameDoneAtTheFirstPostRenderDot : (at_ 261 0).Inv ∧ (at_ 261 340).Inv ∧ (at_ 261 0).halted = false ∧
    (at_ 261 0).cfg.vblankLines + (at_ 261 0).cfg.visibleLines < (at_ 261 0).scanline := by decide +kernel
theorem witness_DotPerformsItsMicroOperationsInOrder : (at_ 260 256).Inv ∧ (at_ 260 256).halted = false ∧
    (at_ 260 256).microOps = .ok [.pixel 256#9, .loadIncx 1#1 32#6, .incY 1#1, .sprEval 1#1] := by decide +kernel
theorem witness_DotAdvancesThePosition : (at_ 261 340).Inv ∧ (at_ 21 1).Inv ∧ (at_ 21 1).halted = false := by
  decide +kernel
theorem witness_CycleRunsItsDots : (at_ 261 340).Inv ∧ (at_ 261 340).halted = false ∧
    ({ at_ 0 0 with cfg := { s0.cfg with extraDotPeriod := 2 }, cycMod := 1 } : State).Inv := by decide +kernel
theorem witness_PixelReadsTheBufferBeforeTheLoad : (at_ 21 8).Inv ∧ (at_ 260 256).Inv ∧ (at_ 260 256).halted = false ∧
    (at_ 21 8).cfg.vblankLines < (at_ 21 8).scanline ∧
    (at_ 260 256).scanline ≤ (at_ 260 256).cfg.vblankLines + (at_ 260 256).cfg.visibleLines ∧
    renderingEnabled (at_ 260 256).mask = true ∧ 1 ≤ (at_ 21 8).dot ∧ (at_ 260 256).dot ≤ 256 ∧
    (at_ 260 256).dot % 8 = 0 := by decide +kernel

theorem witness_NametableFetch : s0.halted = false ∧ s0.cfg.mirroring ≠ .fourScreen ∧
    s0.cfg.mirroring = .horizontal ∧ sV.halted = false ∧ sV.cfg.mirroring = .vertical := by decide +kernel
theorem witness_AttributeFetch : sV.halted = false ∧ sV.cfg.mirroring ≠ .fourScreen := by decide +kernel
theorem witness_PatternFetches : s0.halted = false := rfl
theorem witness_LoadPacksTheFetchedTile : s0.halted = false := rfl
theorem witness_CoarseXIncrement :
    (∃ s t : State, s.halted = false ∧ exec (.loadIncx 0#1 1#6) s = .next t ∧ s.v.extractLsb' 0 5 = 31#5) ∧
    (∃ s t : State, s.halted = false ∧ exec (.loadIncx 0#1 1#6) s = .next t ∧ s.v.extractLsb' 0 5 ≠ 31#5) :=
  ⟨⟨{ s0 with v := 0x041F#15 }, _, rfl, rfl, rfl⟩, ⟨{ s0 with v := 0x041E#15 }, _, rfl, rfl, by decide⟩⟩
/-- Coarse-Y 29, 30 and 31 with fine-Y 7, and fine-Y 6. -/
theorem witness_VerticalIncrement : s0.halted = false ∧
    (0x73A5#15).extractLsb' 12 3 = 7#3 ∧ (0x73A5#15).extractLsb' 5 5 = 29#5 ∧
    (0x73C0#15).extractLsb' 12 3 = 7#3 ∧ (0x73C0#15).extractLsb' 5 5 ≠ 29#5 ∧
    (0x73E0#15).extractLsb' 12 3 = 7#3 ∧ (0x73E0#15).extractLsb' 5 5 ≠ 29#5 ∧ (0x63A5#15).extractLsb' 12 3 ≠ 7#3 := by
  decide +kernel
theorem witness_ScrollCopies : s0.halted = false := rfl

/-- Both cases: eight matches and more, fewer; the first and the last target row. -/
theorem witness_EvaluationSelectsTheFirstEight :
    (at_ 20 256).halted = false ∧ (at_ 20 256).scanline = (at_ 20 256).cfg.vblankLines ∧
    (at_ 260 256).scanline = (at_ 260 256).cfg.vblankLines + (at_ 260 256).cfg.visibleLines ∧
    (at_ 20 256).targetRow = .ok 0 ∧ (at_ 260 256).targetRow = .ok 240 ∧
    ((List.range 64).filter (fun i => inRange 48 ((sprites (row48 0 9)).read (4 * i)))).length = 9 ∧
    ((List.range 64).filter (fun i => inRange 48 ((sprites (row48 0 7)).read (4 * i)))).length = 7 := by decide +kernel
theorem witness_OverflowScanCyclesItsOffset :
    (∃ t, evaluate (row48 0 9) = .next t ∧ t.spriteOverflow = true) ∧
    (∃ t, evaluate (row48 0 7) = .next t ∧ t.spriteOverflow = false) ∧ (at_ 68 256).targetRow = .ok 48 ∧
    8 ≤ ((List.range 64).filter (fun i => inRange 48 ((sprites (row48 0 9)).read (4 * i)))).length ∧
    ((List.range 64).filter (fun i => inRange 48 ((sprites (row48 0 7)).read (4 * i)))).length < 8 :=
  ⟨see_true (by decide +kernel), see_true (by decide +kernel), by decide +kernel, by decide +kernel, by decide +kernel⟩
theorem witness_FilledSlotsAreTheOnesInRange :
    (∃ t, evaluate (row48 1 9) = .next t ∧ inRange 48 (t.sec.read 28) = true) ∧
    (at_ 68 256).cfg.vblankLines ≤ (at_ 68 256).scanline ∧
    (at_ 260 256).scanline ≤ (at_ 260 256).cfg.vblankLines + (at_ 260 256).cfg.visibleLines ∧
    (at_ 260 256).cfg.visibleLines ≤ 240 :=
  ⟨see_true (by decide +kernel), by decide +kernel, by decide +kernel, by decide +kernel⟩

theorem witness_PixelWritesTheWinningColour : (at_ 21 1).halted = false ∧ (at_ 21 1).cfg.mirroring ≠ .fourScreen ∧
    Frame.wf (at_ 21 1).fb = true ∧ 1 ≤ (1#9).toNat ∧ (256#9).toNat ≤ 256 ∧
    (at_ 21 1).cfg.vblankLines < (at_ 21 1).scanline ∧
    (at_ 260 1).scanline ≤ (at_ 260 1).cfg.vblankLines + (at_ 260 1).cfg.visibleLines := by decide +kernel
theorem witness_FirstOpaqueSlotWins : s0.cfg.mirroring ≠ .fourScreen ∧ s0.mask.getLsbD 4 = false ∧
    (at_ 21 1).mask.getLsbD 4 = true ∧ (at_ 21 1).mask.getLsbD 2 = true ∧ (0x10#8).getLsbD 2 = false := by decide +kernel
/-- The corners of the slot of `test_slotColour`. -/
theorem witness_SpriteColourComesFromItsTile : ∃ s : State,
    (s.sec.read 0).toNat ≤ 10 ∧ 17 < (s.sec.read 0).toNat + 8 ∧ (s.sec.read 3).toNat ≤ 20 ∧
    27 < (s.sec.read 3).toNat + 8 ∧ slotActive s.sec 0 20 10 = true ∧ slotActive s.sec 0 27 17 = true :=
  ⟨{ s0 with sec := mem [(0, 10), (1, 4), (3, 20)] }, by decide +kernel⟩
/-- A state for `test_pixel`'s hit. -/
def hitState : State :=
  { at_ 21 1 with
    bgbuf := 0x8889888888888888#64
    x := 3#3
    chr := mem [(0x20, 0x80)]
    sec := mem [(1, 2)]
    slot0IsSprite0 := true }
theorem witness_SpriteZeroHit : hitState.halted = false ∧ hitState.screenRow = .ok 0 ∧ 1 ≤ (1#9).toNat ∧
    (1#9).toNat ≤ 256 ∧ spritePixel hitState 0 0 = .ok (some ⟨0, 1#2, 0#8⟩) ∧ hitState.cfg.mirroring ≠ .fourScreen ∧
    ∃ t, exec (.pixel 1#9) hitState = .next t ∧ t.sprite0Hit = true :=
  ⟨rfl, rfl, by decide, by decide, by decide +kernel, by decide, see_true (by decide +kernel)⟩
theorem witness_DisabledRenderingShowsTheUniversalColour :
    ({ at_ 21 1 with mask := 0x06#8 } : State).halted = false ∧ (0x06#8).getLsbD 3 = false ∧ (0x06#8).getLsbD 4 = false ∧
    1 ≤ (1#9).toNat ∧ (256#9).toNat ≤ 256 ∧ (at_ 21 1).cfg.vblankLines < (at_ 21 1).scanline ∧
    (at_ 260 1).scanline ≤ (at_ 260 1).cfg.vblankLines + (at_ 260 1).cfg.visibleLines := by decide +kernel

theorem witness_StepKeepsTheInvariant : ∃ s t : State, s.Inv ∧ step s = .next t ∧ t.dot = 257 := by
  obtain ⟨t, h⟩ := see_true (p := fun t => t.dot = 257) (o := step { at_ 260 256 with pending := [.host 1#3 .none] })
    (by decide +kernel)
  exact ⟨_, t, by decide +kernel, h⟩
theorem witness_StepNeverFaultsNorRaisesF4 :
    (∃ s t : State, s.Inv ∧ step s = .next t ∧ s.faultCode ≠ some .f4) ∧
    (∃ s : State, s.Inv ∧ step s = .refused .illFormedLaunch) ∧
    (∃ s : State, s.Inv ∧ step s = .refused (.undecodable .unassignedHostCode)) := by
  refine ⟨⟨s0, s0, by decide +kernel, rfl, by decide⟩,
    ⟨{ s0 with pending := [.host 0#3 (.launch { launchOf .horizontal with cfg := { s0.cfg with dotsPerCycle := 0 } })] },
      by decide +kernel, rfl⟩, ⟨{ s0 with pending := [.host 6#3 .none] }, by decide +kernel, rfl⟩⟩
/-- Each of the registers does change under its writers. -/
theorem witness_RegistersHaveTheirWriters :
    (∃ t, exec (.wrScroll1 0x1B#8) s0 = .next t ∧ t.x ≠ s0.x ∧ t.w ≠ s0.w ∧ t.t ≠ s0.t) ∧
    (∃ t, exec (.wrOamdata 0x11#8) s0 = .next t ∧ t.oamaddr ≠ s0.oamaddr ∧ t.oam ≠ s0.oam) ∧
    (∃ t, exec .rdData { s0 with v := 0x2000#15, nt := mem [(0, 5)] } = .next t ∧ t.rbuf ≠ s0.rbuf) ∧
    (∃ t, exec (.wrControl 0x80#8) s0 = .next t ∧ t.ctrl ≠ s0.ctrl) ∧
    (∃ t, exec (.wrMask 0x1E#8) s0 = .next t ∧ t.mask ≠ s0.mask) ∧
    (∃ t, exec (.wrControl 0x03#8) { s0 with cfg := { s0.cfg with ctrlNtToT := true } } = .next t ∧ t.t ≠ s0.t) ∧
    (∃ t, exec (.oamdma (List.replicate 256 1#8)) s0 = .next t ∧ t.oam ≠ s0.oam) :=
  ⟨see_true (by decide +kernel), see_true (by decide +kernel), see_true (by decide +kernel),
    see_true (by decide +kernel), see_true (by decide +kernel),
    see_true (by decide +kernel), see_true (by decide +kernel)⟩
/-- The memories and the pipeline do change under their writers; under DOT only the stepped ones. -/
theorem witness_MemoriesHaveTheirWriters :
    (∃ t, exec (.wrData 0x11#8) { s0 with v := 0x2000#15 } = .next t ∧ t.nt ≠ s0.nt ∧ t.v ≠ 0x2000#15) ∧
    (∃ t, exec (.wrData 0x11#8) { s0 with v := 0x3F00#15 } = .next t ∧ t.pal ≠ s0.pal) ∧
    (∃ t, exec (.wrData 0x11#8) { s0 with chrWritable := true } = .next t ∧ t.chr ≠ s0.chr) ∧
    (∃ t, exec .dot { at_ 20 256 with sec := [] } = .next t ∧ t.dot ≠ 256 ∧ t.sec ≠ [] ∧ t.v ≠ (at_ 20 256).v) ∧
    (∃ t, exec (.sprEval 0#1) { at_ 20 256 with sec := [] } = .next t ∧ t.sec ≠ []) ∧
    (∃ t, exec .frameDone s0 = .next t ∧ t.frames ≠ s0.frames) :=
  ⟨see_true (by decide +kernel), see_true (by decide +kernel), see_true (by decide +kernel), see_true (by decide +kernel),
    see_true (by decide +kernel), see_true (by decide +kernel)⟩
/-- A state with every flag set. -/
def flagged : State :=
  { at_ 20 1 with vblank := true, sprite0Hit := true, spriteOverflow := true, nmiPending := true }
theorem witness_FlagsAreClearedOnlyByTheirClearers :
    (∃ t, exec .nmipoll flagged = .next t ∧ t.nmiPending = false) ∧
    (flagged.Inv ∧ ∃ t, exec .dot flagged = .next t ∧ t.sprite0Hit = false ∧ t.spriteOverflow = false ∧ t.vblank = false) ∧
    (∃ t, exec .cycle { flagged with scanline := 19, dot := 340 } = .next t ∧ t.sprite0Hit = false) ∧
    ({ flagged with scanline := 19, dot := 340 } : State).Inv ∧
    (∃ t, exec .rdStatus flagged = .next t ∧ t.vblank = false) ∧
    (∃ t, exec .dot { flagged with halted := true, faultCode := some .f1 } = .next t ∧ t.vblank = true) :=
  ⟨see_true (by decide +kernel), ⟨by decide +kernel, see_true (by decide +kernel)⟩, see_true (by decide +kernel),
    by decide +kernel, see_true (by decide +kernel), see_true (by decide +kernel)⟩
/-- Every flag is set somewhere, by a CYCLE that passes the position and by an operation. -/
theorem witness_FlagsAreSetOnlyByTheirSetters :
    (s0.Inv ∧ ∃ t, exec .cycle s0 = .next t ∧ t.vblank = true) ∧
    (({ s0 with vblank := true } : State).Inv ∧
      ∃ t, exec (.wrControl 0x80#8) { s0 with vblank := true } = .next t ∧ t.nmiPending = true) ∧
    (hitState.Inv ∧ ∃ t, exec .dot hitState = .next t ∧ t.sprite0Hit = true) ∧
    (({ at_ 68 256 with oam := sprites (row48 0 9) } : State).Inv ∧
      ∃ t, exec .dot { at_ 68 256 with oam := sprites (row48 0 9) } = .next t ∧ t.spriteOverflow = true) ∧
    (∃ t, exec .rdMask s0 = .next t ∧ t.halted = true) :=
  ⟨⟨by decide +kernel, see_true (by decide +kernel)⟩, ⟨by decide +kernel, see_true (by decide +kernel)⟩,
    ⟨by decide +kernel, see_true (by decide +kernel)⟩, ⟨by decide +kernel, see_true (by decide +kernel)⟩,
    see_true (by decide +kernel)⟩

end Sys2Proof.Tests
end

section
/-!
The register port, the sprite-table cursor, the address port and the poll of the pending bit (40_register_port.md R145,
R150, R151, R158): what a field put into a word leaves, the word of a slot, and the statements about these operations.
-/
namespace Sys2Proof.Machine

/-! ### Fields of a word -/

/-- The bits of a field put in are the field (00_scope.md R13). -/
theorem putField_extractLsb'_same {n k lo : Nat} (r : BitVec n) (f : BitVec k) (h : lo + k ≤ n) :
    (putField r lo f).extractLsb' lo k = f := by
  ext i hi
  have hin : lo + i < n := by omega
  simp [BitVec.getElem_extractLsb', putField_getLsbD r lo f hin, hi]

/-- The bits beside a field put in stay (00_scope.md R13). -/
theorem putField_extractLsb'_disjoint {n k lo a len : Nat} (r : BitVec n) (f : BitVec k) (h : a + len ≤ n)
    (hd : a + len ≤ lo ∨ lo + k ≤ a) : (putField r lo f).extractLsb' a len = r.extractLsb' a len := by
  ext i hi
  have hin : a + i < n := by omega
  have hout : ¬ (lo ≤ a + i ∧ a + i < lo + k) := by omega
  rw [BitVec.getElem_extractLsb', BitVec.getElem_extractLsb', putField_getLsbD r lo f hin, if_neg hout]

/-! ### The value of `t` after an address write -/

theorem addr1T_high (t : VAddr) (d : Byte) : (addr1T t d).extractLsb' 8 6 = d.extractLsb' 0 6 :=
  (putField_extractLsb'_disjoint _ _ (by decide) (by decide)).trans (putField_extractLsb'_same _ _ (by decide))

theorem addr1T_bit14 (t : VAddr) (d : Byte) : (addr1T t d).getLsbD 14 = false := by
  rw [addr1T, putField_getLsbD _ _ _ (by decide), if_pos (by decide)]
  rfl

theorem addr1T_low (t : VAddr) (d : Byte) : (addr1T t d).extractLsb' 0 8 = t.extractLsb' 0 8 :=
  (putField_extractLsb'_disjoint _ _ (by decide) (by decide)).trans
    (putField_extractLsb'_disjoint _ _ (by decide) (by decide))

theorem addr2T_low (t : VAddr) (d : Byte) : (addr2T t d).extractLsb' 0 8 = d :=
  putField_extractLsb'_same _ _ (by decide)

theorem addr2T_high (t : VAddr) (d : Byte) : (addr2T t d).extractLsb' 8 7 = t.extractLsb' 8 7 :=
  putField_extractLsb'_disjoint _ _ (by decide) (by decide)

/-! ### The word of a slot -/

/-- The word of a transaction depends on its address through the slot only (30_encoding.md R110). -/
theorem busWord_of_slot {a : BitVec 16} {rs : BitVec 3} (w write : Bool) (h : a.extractLsb' 0 3 = rs) :
    busWord w write a = BitVec.ofBool w ++ BitVec.ofBool write ++ rs := by rw [busWord, h]

theorem decodeBus_wrOamaddr {a : BitVec 16} (w : Bool) (d : Byte) (h : a.extractLsb' 0 3 = 3#3) :
    decodeBus (busWord w true a) d = .ok (.wrOamaddr d) := by
  rw [busWord_of_slot w true h]
  cases w <;> rfl

theorem decodeBus_wrAddr1 {a : BitVec 16} (d : Byte) (h : a.extractLsb' 0 3 = 6#3) :
    decodeBus (busWord false true a) d = .ok (.wrAddr1 d) := by
  rw [busWord_of_slot false true h]
  rfl

theorem decodeBus_wrAddr2 {a : BitVec 16} (d : Byte) (h : a.extractLsb' 0 3 = 6#3) :
    decodeBus (busWord true true a) d = .ok (.wrAddr2 d) := by
  rw [busWord_of_slot true true h]
  rfl

/-! ### The operations while not halted -/

theorem exec_wrOamaddr {s : State} (d : Byte) (h : s.halted = false) :
    exec (.wrOamaddr d) s = .next { s with oamaddr := d, reply := .none } := operate_ok h rfl

theorem exec_wrAddr1 {s : State} (d : Byte) (h : s.halted = false) :
    exec (.wrAddr1 d) s = .next { s with t := addr1T s.t d, w := true, reply := .none } := operate_ok h rfl

theorem exec_wrAddr2 {s : State} (d : Byte) (h : s.halted = false) :
    exec (.wrAddr2 d) s = .next { s with t := addr2T s.t d, v := addr2T s.t d, w := false, reply := .none } :=
  operate_ok h rfl

theorem exec_nmipoll {s : State} (h : s.halted = false) :
    exec .nmipoll s = .next { s with nmiPending := false, reply := .bit s.nmiPending } := operate_ok h rfl

/-- What a poll leaves: the pending bit is in the reply and cleared, and the block is still not halted. -/
theorem nmipoll_after {s t : State} (h : s.halted = false) (hp : exec .nmipoll s = .next t) :
    t.reply = .bit s.nmiPending ∧ t.nmiPending = false ∧ t.halted = false := by
  rw [exec_nmipoll h] at hp
  cases hp
  exact ⟨rfl, rfl, h⟩

theorem nmipoll_twice_reply {s t u : State} (h : s.halted = false) (h1 : exec .nmipoll s = .next t)
    (h2 : exec .nmipoll t = .next u) : u.reply = .bit false := by
  obtain ⟨-, hclear, hrun⟩ := nmipoll_after h h1
  obtain ⟨hreply, -, -⟩ := nmipoll_after hrun h2
  rw [hreply, hclear]

/-! ### The statements -/

/-- Settles O13: the body of WR_OAMADDR, and slot 3 under either latch. -/
theorem cursorWriteStoresTheByte : Obligations.CursorWriteStoresTheByte :=
  ⟨fun _ d h => exec_wrOamaddr d h, fun w _ d h => decodeBus_wrOamaddr w d h⟩

/-- Settles O18: the new `t` is `addr1T`, whose three parts are read off its two fields. -/
theorem firstAddressWrite : Obligations.FirstAddressWrite :=
  ⟨fun s d h => ⟨addr1T s.t d, exec_wrAddr1 d h, addr1T_high s.t d, addr1T_bit14 s.t d, addr1T_low s.t d⟩,
    fun _ d h => decodeBus_wrAddr1 d h⟩

/-- Settles O19: the new `t`, and with it `v`, is `addr2T`. -/
theorem secondAddressWrite : Obligations.SecondAddressWrite :=
  ⟨fun s d h => ⟨addr2T s.t d, exec_wrAddr2 d h, addr2T_low s.t d, addr2T_high s.t d⟩,
    fun _ d h => decodeBus_wrAddr2 d h⟩

/-- Settles O28: one poll, two polls, and HOST code 4. -/
theorem pollReturnsAndClears : Obligations.PollReturnsAndClears :=
  ⟨fun _ h => exec_nmipoll h, fun _ _ _ h h1 h2 => nmipoll_twice_reply h h1 h2, rfl⟩

end Sys2Proof.Machine
end

section
/-!
VBL_SET (41_dot_driver.md R186): what it leaves, the row of the SEQ map it comes from, and the one position of that row.
-/
namespace Sys2Proof.Machine

/-! ### The operation while not halted -/

/-- The enable raises the NMI condition; without it the condition stays. -/
theorem nmiAfterVblank_eq_ite (pending : Bool) (ctrl : Byte) :
    nmiAfterVblank pending ctrl = if ctrl.getLsbD 7 = true then true else pending := by
  rw [nmiAfterVblank, ctrlNmiEnable]
  cases ctrl.getLsbD 7
  · exact Bool.or_false pending
  · exact Bool.or_true pending

theorem exec_vblSet {s : State} (h : s.halted = false) :
    exec .vblSet s = .next { s with
      vblank := true
      nmiPending := nmiAfterVblank s.nmiPending s.ctrl
      reply := .none } := operate_ok h rfl

/-! ### The row and its position -/

theorem phase_code_vblank {p : Phase} : p.code = 0#2 ↔ p = .vblank := by cases p <;> decide

theorem phaseOf_vblank {c : Cfg} {n : Nat} : phaseOf c n = .vblank ↔ n < c.vblankLines := by
  by_cases h : n < c.vblankLines
  · simp [phaseOf, h]
  · simp only [phaseOf, h, if_false, iff_false]
    split
    · decide
    · split <;> decide

/-- The first scanline of the vblank phase is scanline 0 (30_encoding.md R112). -/
theorem onFirstLine_of_vblank {s : State} (h : phaseOf s.cfg s.scanline = .vblank) :
    s.onFirstLine = true ↔ s.scanline = 0 := by
  rw [State.onFirstLine, h, decide_eq_true_eq, Phase.firstLine]

/-- No other row of the SEQ map makes VBL_SET (30_encoding.md R114). -/
theorem vblSet_mem_decodeSeq {word : BitVec 11} {fl re : Bool} {ops : List Instr} (h : decodeSeq word fl re = .ok ops) :
    .vblSet ∈ ops ↔ (word &&& 0x7FF#11 == 0x001#11) = true ∧ seqDot word = 1 ∧ fl = true := by
  rw [mem_decodeSeq h]
  simp [seqTable, SeqRow.fires, and_assoc]

theorem vblSet_mem_microOps {s : State} {ops : List Instr} (hd : s.dot ≤ 340) (h : s.microOps = .ok ops) :
    .vblSet ∈ ops ↔ phaseOf s.cfg s.scanline = .vblank ∧ s.dot = 1 ∧ s.onFirstLine = true := by
  obtain ⟨-, hdecode⟩ := microOps_iff.mp h
  have hword : (s.seqWord &&& 0x7FF#11 == 0x001#11) = true ↔ phaseOf s.cfg s.scanline = .vblank ∧ s.dot = 1 := by
    have hdot : (BitVec.ofNat 9 s.dot).toNat = s.dot := Nat.mod_eq_of_lt (by omega)
    rw [State.seqWord, (seq_masks _ _).1, hdot, Bool.and_eq_true, decide_eq_true_eq, decide_eq_true_eq,
      phase_code_vblank]
  rw [vblSet_mem_decodeSeq hdecode, hword, seqDot_seqWord hd, and_assoc, and_self_left]

/-- The dots of a position that meets the invariant (10_state.md R27). -/
theorem dot_le_of_inv {s : State} (h : s.Inv) : s.dot ≤ 340 := by
  obtain ⟨⟨hcfg, -⟩, ⟨hpos, -⟩, -⟩ := h
  obtain ⟨-, -, -, hline, -⟩ := cfg_wf_iff.mp hcfg
  obtain ⟨-, hdot⟩ := positionExists_iff.mp hpos
  omega

/-- With a vblank region, the row's conditions (vblank phase, its first scanline, dot 1) name one position. -/
theorem vblSet_mem_microOps_iff_position {s : State} {ops : List Instr} (hi : s.Inv) (hv : 0 < s.cfg.vblankLines)
    (h : s.microOps = .ok ops) : .vblSet ∈ ops ↔ s.scanline = 0 ∧ s.dot = 1 := by
  rw [vblSet_mem_microOps (dot_le_of_inv hi) h]
  constructor
  · rintro ⟨hphase, hdot, hfirst⟩
    exact ⟨(onFirstLine_of_vblank hphase).mp hfirst, hdot⟩
  · rintro ⟨hline, hdot⟩
    have hphase : phaseOf s.cfg s.scanline = .vblank := phaseOf_vblank.mpr (hline ▸ hv)
    exact ⟨hphase, hdot, (onFirstLine_of_vblank hphase).mpr hline⟩

/-! ### The statement -/

/-- Settles O31: the body of VBL_SET, and the position of its row. -/
theorem vblankSetAtScanlineZeroDotOne : Obligations.VblankSetAtScanlineZeroDotOne :=
  ⟨fun s h => nmiAfterVblank_eq_ite s.nmiPending s.ctrl ▸ exec_vblSet h,
    fun _ _ hi hv h => vblSet_mem_microOps_iff_position hi hv h⟩

end Sys2Proof.Machine
end

section
/-!
SPR_EVAL (43_sprite_evaluator.md): what it leaves, how many slots the fill takes and where it stops (R244), and which bytes
the overflow scan reads (R245).
-/
namespace Sys2Proof.Machine

/-! ### The primary sprites in range -/

/-- The primary sprites in range among the `left` ones from index `i` on, in primary order (43_sprite_evaluator.md R242). -/
def matchesFrom (oam : Memory) (row left i : Nat) : List Nat :=
  (List.range' i left).filter (fun j => inRange row (oam.read (4 * j)))

theorem matchesFrom_whole (oam : Memory) (row : Nat) :
    matchesFrom oam row 64 0 = (List.range 64).filter (fun j => inRange row (oam.read (4 * j))) := by
  rw [matchesFrom, List.range_eq_range']

theorem matchesFrom_of_inRange {oam : Memory} {row i : Nat} (left : Nat) (h : inRange row (oam.read (4 * i)) = true) :
    matchesFrom oam row (left + 1) i = i :: matchesFrom oam row left (i + 1) := by
  rw [matchesFrom, List.range'_succ, List.filter_cons, if_pos h, matchesFrom]

theorem matchesFrom_of_not_inRange {oam : Memory} {row i : Nat} (left : Nat)
    (h : ¬ inRange row (oam.read (4 * i)) = true) :
    matchesFrom oam row (left + 1) i = matchesFrom oam row left (i + 1) := by
  rw [matchesFrom, List.range'_succ, List.filter_cons, if_neg h, matchesFrom]

/-! ### The fill (R244) -/

/-- With eight slots filled the fill stops where it is. -/
theorem fillScan_full (oam : Memory) (row left i : Nat) (sec : Memory) (slot0 : Bool) :
    fillScan oam row left i 8 sec slot0 = ⟨sec, slot0, 8, i⟩ := by
  cases left <;> rfl

theorem fillScan_of_inRange {oam : Memory} {row i n : Nat} (left : Nat) (sec : Memory) (slot0 : Bool) (hn : n < 8)
    (h : inRange row (oam.read (4 * i)) = true) :
    fillScan oam row (left + 1) i n sec slot0 =
      fillScan oam row left (i + 1) (n + 1) (copyEntry oam i n sec) (slot0 || decide (i = 0)) := by
  rw [fillScan, if_pos hn, if_pos h]

theorem fillScan_of_not_inRange {oam : Memory} {row i n : Nat} (left : Nat) (sec : Memory) (slot0 : Bool) (hn : n < 8)
    (h : ¬ inRange row (oam.read (4 * i)) = true) :
    fillScan oam row (left + 1) i n sec slot0 =
      fillScan oam row left (i + 1) n (sec.write (4 * n) (oam.read (4 * i))) slot0 := by
  rw [fillScan, if_pos hn, if_neg h]

/-- The fill takes one slot per primary sprite in range, up to eight. -/
theorem fillScan_n {oam : Memory} {row left i n : Nat} (sec : Memory) (slot0 : Bool) (hn : n ≤ 8) :
    (fillScan oam row left i n sec slot0).n = min 8 (n + (matchesFrom oam row left i).length) := by
  induction left generalizing i n sec slot0 with
  | zero => exact (Nat.min_eq_right hn).symm
  | succ left ih =>
    obtain rfl | hlt := Nat.eq_or_lt_of_le hn
    · rw [fillScan_full, Nat.min_eq_left (Nat.le_add_right _ _)]
    · by_cases h : inRange row (oam.read (4 * i)) = true
      · rw [fillScan_of_inRange left sec slot0 hlt h, ih _ _ hlt, matchesFrom_of_inRange left h, List.length_cons,
          Nat.succ_add_eq_add_succ]
      · rw [fillScan_of_not_inRange left sec slot0 hlt h, ih _ _ hn, matchesFrom_of_not_inRange left h]

/-- With `k + 1` slots free the fill stops right after the match number `k`, counted from 0. -/
theorem fillScan_i {oam : Memory} {row left i n k : Nat} (sec : Memory) (slot0 : Bool) (hfree : n + (k + 1) = 8)
    (hk : k < (matchesFrom oam row left i).length) :
    (fillScan oam row left i n sec slot0).i = (matchesFrom oam row left i).getD k 0 + 1 := by
  induction left generalizing i n k sec slot0 with
  | zero => exact absurd hk (Nat.not_lt_zero k)
  | succ left ih =>
    have hn : n < 8 := by omega
    by_cases h : inRange row (oam.read (4 * i)) = true
    · rw [matchesFrom_of_inRange left h] at hk ⊢
      rw [fillScan_of_inRange left sec slot0 hn h]
      cases k with
      | zero => rw [hfree, fillScan_full, List.getD_cons_zero]
      | succ k => rw [ih _ _ (by omega) (Nat.lt_of_succ_lt_succ hk), List.getD_cons_succ]
    · rw [matchesFrom_of_not_inRange left h] at hk ⊢
      rw [fillScan_of_not_inRange left sec slot0 hn h, ih _ _ hfree hk]

theorem evalFill_n (oam : Memory) (row : Nat) :
    (evalFill oam row).n = min 8 (matchesFrom oam row 64 0).length := by
  rw [evalFill, fillScan_n _ _ (Nat.zero_le 8), Nat.zero_add]

/-- The fill stops right after the eighth match. -/
theorem evalFill_i {oam : Memory} {row : Nat} (h : 8 ≤ (matchesFrom oam row 64 0).length) :
    (evalFill oam row).i = (matchesFrom oam row 64 0).getD 7 0 + 1 := fillScan_i _ _ rfl h

/-! ### The overflow scan (R245) -/

/-- The scan meets a pseudo-Y in range: the byte offset of the entry `q` places on is `m` advanced by `q`, modulo 4. -/
theorem overflowScan_eq_true {oam : Memory} {row left i m : Nat} (hm : m < 4) :
    overflowScan oam row left i m = true ↔
      ∃ q, q < left ∧ inRange row (oam.read (4 * (i + q) + (m + q) % 4)) = true := by
  induction left generalizing i m with
  | zero => simp [overflowScan]
  | succ left ih =>
    have hoffset (q : Nat) : ((m + 1) % 4 + q) % 4 = (m + (q + 1)) % 4 := by omega
    have hentry (q : Nat) : i + 1 + q = i + (q + 1) := by omega
    rw [overflowScan, Bool.if_true_left, Bool.or_eq_true, decide_eq_true_eq, ih (Nat.mod_lt _ (by decide)),
      Nat.exists_lt_succ_left, Nat.add_zero i, Nat.add_zero m, Nat.mod_eq_of_lt hm]
    simp only [hoffset, hentry]

/-- Fewer than eight matches: the overflow scan is not entered. -/
theorem evalOverflow_of_lt_eight {oam : Memory} {row : Nat} (h : (matchesFrom oam row 64 0).length < 8) :
    evalOverflow oam row = false := by
  have hn : (evalFill oam row).n ≠ 8 := by rw [evalFill_n]; omega
  rw [evalOverflow, decide_eq_false hn, Bool.false_and]

/-- Eight matches or more: the overflow is that of the scan from the entry after the eighth match, at offset 0. -/
theorem evalOverflow_of_eight_le {oam : Memory} {row : Nat} (h : 8 ≤ (matchesFrom oam row 64 0).length) :
    evalOverflow oam row = true ↔ ∃ q, (matchesFrom oam row 64 0).getD 7 0 + 1 + q < 64 ∧
      inRange row (oam.read (4 * ((matchesFrom oam row 64 0).getD 7 0 + 1 + q) + q % 4)) = true := by
  have hn : (evalFill oam row).n = 8 := by rw [evalFill_n]; omega
  rw [evalOverflow, decide_eq_true hn, Bool.true_and, evalFill_i h, overflowScan_eq_true (by decide)]
  simp only [Nat.zero_add, Nat.lt_sub_iff_add_lt']

/-! ### The operation while not halted -/

theorem exec_sprEval {s : State} {row : Nat} (p : BitVec 1) (h : s.halted = false) (hr : s.targetRow = .ok row) :
    exec (.sprEval p) s = .next { s with
      sec := (evalFill s.oam row).sec
      slot0IsSprite0 := (evalFill s.oam row).slot0
      spriteOverflow := s.spriteOverflow || evalOverflow s.oam row
      reply := .none } := by
  have hbody : s.noReply.targetRow = .ok row := hr
  refine operate_ok h ?_
  rw [sprEvalBody, hbody]
  rfl

/-! ### The statement -/

/-- Settles O47: SPR_EVAL ors the overflow of the evaluation into the flag, and that overflow is the scan's, entered right
after the eighth match. -/
theorem overflowScanCyclesItsOffset : Obligations.OverflowScanCyclesItsOffset := by
  intro s t p row hrun hrow hexec
  rw [exec_sprEval p hrun hrow] at hexec
  cases hexec
  rw [← matchesFrom_whole]
  refine ⟨fun hfew => ?_, fun hfull => ?_, rfl⟩
  · show (s.spriteOverflow || evalOverflow s.oam row) = s.spriteOverflow
    rw [evalOverflow_of_lt_eight hfew, Bool.or_false]
  · show (s.spriteOverflow || evalOverflow s.oam row) = true ↔ _
    rw [Bool.or_eq_true, evalOverflow_of_eight_le hfull]

end Sys2Proof.Machine
end

section
/-!
The SEQ map row by row (30_encoding.md R112, R114): the rows by name, and when each fires on a word given as a phase code
and a dot.
-/
namespace Sys2Proof.Machine

/-! ### The rows by name -/

def rowVblSet : SeqRow := ⟨0x7FF#11, 0x001#11, (· == 1), true, false, fun _ => .vblSet⟩
def rowFlagsClr : SeqRow := ⟨0x7FF#11, 0x401#11, (· == 1), false, false, fun _ => .flagsClr⟩
def rowPixel : SeqRow := ⟨0x600#11, 0x600#11, pixelDot, false, false, fun w => .pixel (w.extractLsb' 0 9)⟩

/-- A row of the fetch groups, given by its pattern and the micro-operation it makes. -/
def rowFetch (pattern : BitVec 11) (make : BitVec 1 → BitVec 6 → Instr) : SeqRow :=
  ⟨0x407#11, pattern, fetchDot, false, true, fun w => make (seqP w) (seqGroup w)⟩

/-- A row of one dot that the two rendering phases share. -/
def rowShared (pattern : BitVec 11) (dot : Nat) (make : BitVec 1 → Instr) : SeqRow :=
  ⟨0x5FF#11, pattern, (· == dot), false, true, fun w => make (seqP w)⟩

def rowCopyV : SeqRow := ⟨0x600#11, 0x400#11, copyVDot, false, true, fun w => .copyV (w.extractLsb' 0 9)⟩
def rowFrameDone : SeqRow := ⟨0x7FF#11, 0x200#11, (· == 0), true, false, fun _ => .frameDone⟩

/-- The rows named are those of the map, in its order. -/
theorem seqTable_eq : seqTable =
    [rowVblSet, rowFlagsClr, rowPixel, rowFetch 0x401#11 .fetchNt, rowFetch 0x403#11 .fetchAt,
      rowFetch 0x405#11 .fetchLo, rowFetch 0x407#11 .fetchHi, rowFetch 0x400#11 .loadIncx,
      rowShared 0x500#11 256 .incY, rowShared 0x500#11 256 .sprEval, rowShared 0x501#11 257 .copyH, rowCopyV,
      rowFrameDone] := rfl

@[simp] theorem rowVblSet_make (w : BitVec 11) : rowVblSet.make w = .vblSet := rfl
@[simp] theorem rowFlagsClr_make (w : BitVec 11) : rowFlagsClr.make w = .flagsClr := rfl
@[simp] theorem rowPixel_make (w : BitVec 11) : rowPixel.make w = .pixel (w.extractLsb' 0 9) := rfl
@[simp] theorem rowFetch_make (q w : BitVec 11) (f : BitVec 1 → BitVec 6 → Instr) :
    (rowFetch q f).make w = f (seqP w) (seqGroup w) := rfl
@[simp] theorem rowShared_make (q w : BitVec 11) (n : Nat) (f : BitVec 1 → Instr) :
    (rowShared q n f).make w = f (seqP w) := rfl
@[simp] theorem rowCopyV_make (w : BitVec 11) : rowCopyV.make w = .copyV (w.extractLsb' 0 9) := rfl
@[simp] theorem rowFrameDone_make (w : BitVec 11) : rowFrameDone.make w = .frameDone := rfl

/-! ### The parts of a word, and the masks of the rows -/

section
variable (c : BitVec 2) (d : BitVec 9)

theorem seqCode_append : (c ++ d).extractLsb' 9 2 = c := (seq_fields c d).1

theorem seqDotBits_append : (c ++ d).extractLsb' 0 9 = d := (seq_fields c d).2.1

theorem seqDot_append : seqDot (c ++ d) = d.toNat := (seq_fields c d).2.2

theorem mask_vblSet : ((c ++ d) &&& 0x7FF#11 == 0x001#11) = (decide (c = 0#2) && decide (d.toNat = 1)) := by
  obtain ⟨h, -⟩ := seq_masks c d
  exact h

theorem mask_flagsClr : ((c ++ d) &&& 0x7FF#11 == 0x401#11) = (decide (c = 2#2) && decide (d.toNat = 1)) := by
  obtain ⟨-, h, -⟩ := seq_masks c d
  exact h

theorem mask_frameDone : ((c ++ d) &&& 0x7FF#11 == 0x200#11) = (decide (c = 1#2) && decide (d.toNat = 0)) := by
  obtain ⟨-, -, h, -⟩ := seq_masks c d
  exact h

theorem mask_visible : ((c ++ d) &&& 0x600#11 == 0x600#11) = (decide (c = 3#2)) := by
  obtain ⟨-, -, -, h, -⟩ := seq_masks c d
  exact h

theorem mask_preRender : ((c ++ d) &&& 0x600#11 == 0x400#11) = (decide (c = 2#2)) := by
  obtain ⟨-, -, -, -, h, -⟩ := seq_masks c d
  exact h

theorem mask_fetchNt : ((c ++ d) &&& 0x407#11 == 0x401#11) = (c.getLsbD 1 && decide (d.toNat % 8 = 1)) := by
  obtain ⟨-, -, -, -, -, h, -⟩ := seq_masks c d
  exact h

theorem mask_fetchAt : ((c ++ d) &&& 0x407#11 == 0x403#11) = (c.getLsbD 1 && decide (d.toNat % 8 = 3)) := by
  obtain ⟨-, -, -, -, -, -, h, -⟩ := seq_masks c d
  exact h

theorem mask_fetchLo : ((c ++ d) &&& 0x407#11 == 0x405#11) = (c.getLsbD 1 && decide (d.toNat % 8 = 5)) := by
  obtain ⟨-, -, -, -, -, -, -, h, -⟩ := seq_masks c d
  exact h

theorem mask_fetchHi : ((c ++ d) &&& 0x407#11 == 0x407#11) = (c.getLsbD 1 && decide (d.toNat % 8 = 7)) := by
  obtain ⟨-, -, -, -, -, -, -, -, h, -⟩ := seq_masks c d
  exact h

theorem mask_loadIncx : ((c ++ d) &&& 0x407#11 == 0x400#11) = (c.getLsbD 1 && decide (d.toNat % 8 = 0)) := by
  obtain ⟨-, -, -, -, -, -, -, -, -, h, -⟩ := seq_masks c d
  exact h

theorem mask_dot256 : ((c ++ d) &&& 0x5FF#11 == 0x500#11) = (c.getLsbD 1 && decide (d.toNat = 256)) := by
  obtain ⟨-, -, -, -, -, -, -, -, -, -, h, -⟩ := seq_masks c d
  exact h

theorem mask_dot257 : ((c ++ d) &&& 0x5FF#11 == 0x501#11) = (c.getLsbD 1 && decide (d.toNat = 257)) := by
  obtain ⟨-, -, -, -, -, -, -, -, -, -, -, h⟩ := seq_masks c d
  exact h

end

/-! ### When a row fires -/

section
variable {c : BitVec 2} {d : BitVec 9} {fl re : Bool}

theorem rowVblSet_fires : rowVblSet.fires (c ++ d) fl re = true ↔ c = 0#2 ∧ d.toNat = 1 ∧ fl = true := by
  simp only [SeqRow.fires, rowVblSet, mask_vblSet, seqDot_append]
  grind

theorem rowFlagsClr_fires : rowFlagsClr.fires (c ++ d) fl re = true ↔ c = 2#2 ∧ d.toNat = 1 := by
  simp only [SeqRow.fires, rowFlagsClr, mask_flagsClr, seqDot_append]
  grind

theorem rowPixel_fires : rowPixel.fires (c ++ d) fl re = true ↔ c = 3#2 ∧ pixelDot d.toNat = true := by
  simp only [SeqRow.fires, rowPixel, mask_visible, seqDot_append]
  grind

/-- A fetch row fires in the rendering phases, at the fetch dots of its place in the group. -/
theorem rowFetch_fires {q : BitVec 11} {k : Nat} {f : BitVec 1 → BitVec 6 → Instr}
    (h : ((c ++ d) &&& 0x407#11 == q) = (c.getLsbD 1 && decide (d.toNat % 8 = k))) :
    (rowFetch q f).fires (c ++ d) fl re = true ↔
      c.getLsbD 1 = true ∧ d.toNat % 8 = k ∧ fetchDot d.toNat = true ∧ re = true := by
  simp only [SeqRow.fires, rowFetch, h, seqDot_append]
  grind

theorem rowShared_fires {q : BitVec 11} {k : Nat} {f : BitVec 1 → Instr}
    (h : ((c ++ d) &&& 0x5FF#11 == q) = (c.getLsbD 1 && decide (d.toNat = k))) :
    (rowShared q k f).fires (c ++ d) fl re = true ↔ c.getLsbD 1 = true ∧ d.toNat = k ∧ re = true := by
  simp only [SeqRow.fires, rowShared, h, seqDot_append]
  grind

theorem rowCopyV_fires :
    rowCopyV.fires (c ++ d) fl re = true ↔ c = 2#2 ∧ copyVDot d.toNat = true ∧ re = true := by
  simp only [SeqRow.fires, rowCopyV, mask_preRender, seqDot_append]
  grind

theorem rowFrameDone_fires : rowFrameDone.fires (c ++ d) fl re = true ↔ c = 1#2 ∧ d.toNat = 0 ∧ fl = true := by
  simp only [SeqRow.fires, rowFrameDone, mask_frameDone, seqDot_append]
  grind

end

end Sys2Proof.Machine
end

section
/-!
The decoder against the encoder (30_encoding.md R110 to R116, R128).
-/
namespace Sys2Proof.Machine

/-! ### The bits that a row of the SEQ map leaves open -/

/-- The word of a fetch row, its fixed bits last, as a phase code and a dot (30_encoding.md R112). -/
theorem fetchWord_eq_append (p : BitVec 1) (d : BitVec 6) (low : BitVec 3) :
    1#1 ++ p ++ d ++ low = (1#1 ++ p) ++ (d ++ low) := by
  apply BitVec.eq_of_getLsbD_eq
  intro i hi
  simp only [BitVec.getLsbD_append]
  grind

theorem rendering_code (p : BitVec 1) : (1#1 ++ p).getLsbD 1 = true := by
  revert p
  decide

theorem seqP_append (p : BitVec 1) (d : BitVec 9) : seqP ((1#1 ++ p) ++ d) = p := by
  apply BitVec.eq_of_getLsbD_eq
  intro i hi
  rw [seqP, BitVec.getLsbD_extractLsb', BitVec.getLsbD_append, BitVec.getLsbD_append]
  simp [hi]

theorem seqGroup_append (c : BitVec 2) (d : BitVec 6) (low : BitVec 3) : seqGroup (c ++ (d ++ low)) = d := by
  apply BitVec.eq_of_getLsbD_eq
  intro i hi
  rw [seqGroup, BitVec.getLsbD_extractLsb', BitVec.getLsbD_append, BitVec.getLsbD_append]
  simp [hi, show 3 + i < 9 by omega]

theorem groupDot_mod (d : BitVec 6) (low : BitVec 3) : (d ++ low).toNat % 8 = low.toNat := by
  have := low.isLt
  rw [BitVec.toNat_append, Nat.shiftLeft_eq, Nat.mul_comm, ← Nat.two_pow_add_eq_or_of_lt this]
  omega

theorem fetchDot_le {n : Nat} (h : fetchDot n = true) : n ≤ 340 := by
  simp only [fetchDot, pixelDot, Bool.or_eq_true, Bool.and_eq_true, decide_eq_true_eq] at h
  omega

/-! ### The round trip -/

/-- The word of an operation decodes, under the operation's own side conditions, to a list that holds it, and to it alone
for a BUS or HOST operation. -/
def RoundTrips (i : Instr) : Prop :=
  ∃ ops, decode (encode i) i.firstLineOnly i.needsRendering = .ok ops ∧ i ∈ ops ∧
    ((∀ word, encode i ≠ .seq word) → ops = [i])

theorem roundTrips_of_alone {i : Instr}
    (h : decode (encode i) i.firstLineOnly i.needsRendering = .ok [i]) : RoundTrips i :=
  ⟨[i], h, List.mem_singleton_self i, fun _ => rfl⟩

/-- A micro-operation round-trips where a row of the SEQ map fires on its word and makes it. -/
theorem roundTrips_of_row {i : Instr} {word : BitVec 11} (r : SeqRow) (he : encode i = .seq word)
    (hd : seqDot word ≤ 340) (hr : r ∈ seqTable) (hf : r.fires word i.firstLineOnly i.needsRendering = true)
    (hm : r.make word = i) : RoundTrips i := by
  obtain ⟨ops, ho⟩ := decodeSeq_ok i.firstLineOnly i.needsRendering hd
  exact ⟨ops, by rw [he]; exact ho, (mem_decodeSeq ho i).mpr (.inl ⟨r, hr, hf, hm⟩), fun h => absurd he (h _)⟩

/-- A micro-operation of a fetch row round-trips at the fetch dots of its place in the group. -/
theorem roundTrips_fetch {q : BitVec 11} {f : BitVec 1 → BitVec 6 → Instr} {p : BitVec 1} {d : BitVec 6}
    {low : BitVec 3} (he : encode (f p d) = .seq (1#1 ++ p ++ d ++ low)) (hr : rowFetch q f ∈ seqTable)
    (hq : (((1#1 ++ p) ++ (d ++ low)) &&& 0x407#11 == q) =
      ((1#1 ++ p).getLsbD 1 && decide ((d ++ low).toNat % 8 = low.toNat)))
    (hn : (f p d).needsRendering = true) (hdot : fetchDot (groupDot d low) = true) : RoundTrips (f p d) := by
  rw [fetchWord_eq_append] at he
  refine roundTrips_of_row (rowFetch q f) he ?_ hr ?_ ?_
  · rw [seqDot_append]
    exact fetchDot_le hdot
  · rw [hn]
    exact (rowFetch_fires hq).mpr ⟨rendering_code p, groupDot_mod d low, hdot, rfl⟩
  · rw [rowFetch_make, seqP_append, seqGroup_append]

/-- A micro-operation of a row of one dot round-trips. -/
theorem roundTrips_shared {q : BitVec 11} {k : Nat} {f : BitVec 1 → Instr} {p : BitVec 1} {d : BitVec 9}
    (he : encode (f p) = .seq ((1#1 ++ p) ++ d)) (hr : rowShared q k f ∈ seqTable)
    (hq : (((1#1 ++ p) ++ d) &&& 0x5FF#11 == q) = ((1#1 ++ p).getLsbD 1 && decide (d.toNat = k)))
    (hn : (f p).needsRendering = true) (hd : d.toNat = k) (hk : k ≤ 340) : RoundTrips (f p) := by
  refine roundTrips_of_row (rowShared q k f) he ?_ hr ?_ ?_
  · rw [seqDot_append, hd]
    exact hk
  · rw [hn]
    exact (rowShared_fires hq).mpr ⟨rendering_code p, hd, rfl⟩
  · rw [rowShared_make, seqP_append]

theorem roundTrips_pixel {d : BitVec 9} (h : pixelDot d.toNat = true) : RoundTrips (.pixel d) := by
  refine roundTrips_of_row (word := 3#2 ++ d) rowPixel rfl ?_ (by simp [seqTable_eq]) (rowPixel_fires.mpr ⟨rfl, h⟩) ?_
  · rw [seqDot_append]
    exact fetchDot_le (by rw [fetchDot, h, Bool.true_or])
  · rw [rowPixel_make, seqDotBits_append]

theorem roundTrips_copyV {d : BitVec 9} (h : copyVDot d.toNat = true) : RoundTrips (.copyV d) := by
  refine roundTrips_of_row (word := 2#2 ++ d) rowCopyV rfl ?_ (by simp [seqTable_eq])
    (rowCopyV_fires.mpr ⟨rfl, h, rfl⟩) ?_
  · simp only [copyVDot, Bool.and_eq_true, decide_eq_true_eq] at h
    rw [seqDot_append]
    omega
  · rw [rowCopyV_make, seqDotBits_append]

/-- IDLE round-trips where neither FLAGS_CLR nor PIXEL stands: every other row has a side condition (R128). -/
theorem roundTrips_idle {p : BitVec 2} {d : BitVec 9} (h : (Instr.idle p d).wf = true) : RoundTrips (.idle p d) := by
  simp only [Instr.wf, dotExists, Bool.and_eq_true, decide_eq_true_eq, Bool.not_eq_true', Bool.and_eq_false_iff,
    decide_eq_false_iff_not] at h
  obtain ⟨⟨hd, hpixel⟩, hclr⟩ := h
  have hdot1 : p = 2#2 → d.toNat ≠ 1 := fun hp h1 => hclr.elim (· hp) (· (BitVec.eq_of_toNat_eq h1))
  have hpix : p = 3#2 → pixelDot d.toNat = false := fun hp => hpixel.resolve_left (· hp)
  obtain ⟨ops, ho⟩ := decodeSeq_ok false false ((seqDot_append p d).symm ▸ hd)
  have hnone : ∀ r ∈ seqTable, ¬ r.fires (p ++ d) false false = true := by
    simp only [seqTable_eq, List.forall_mem_cons, List.not_mem_nil, rowVblSet_fires, rowFlagsClr_fires, rowPixel_fires,
      rowFetch_fires (mask_fetchNt p d), rowFetch_fires (mask_fetchAt p d), rowFetch_fires (mask_fetchLo p d),
      rowFetch_fires (mask_fetchHi p d), rowFetch_fires (mask_loadIncx p d), rowShared_fires (mask_dot256 p d),
      rowShared_fires (mask_dot257 p d), rowCopyV_fires, rowFrameDone_fires]
    simpa using ⟨hdot1, hpix⟩
  exact ⟨ops, ho, (mem_decodeSeq ho _).mpr (.inr ⟨fun r hr => Bool.not_eq_true _ ▸ hnone r hr, by
    rw [seqCode_append, seqDotBits_append]⟩),
    fun h => absurd rfl (h _)⟩

/-- Settles O2: a BUS or HOST word by its row, a SEQ word by a row that fires on it, IDLE by all rows that do not. -/
theorem decodeInvertsEncode : Obligations.DecodeInvertsEncode := by
  intro i hi
  show RoundTrips i
  cases i
  case pixel => exact roundTrips_pixel hi
  case fetchNt => exact roundTrips_fetch rfl (by simp [seqTable_eq]) (mask_fetchNt _ _) rfl hi
  case fetchAt => exact roundTrips_fetch rfl (by simp [seqTable_eq]) (mask_fetchAt _ _) rfl hi
  case fetchLo => exact roundTrips_fetch rfl (by simp [seqTable_eq]) (mask_fetchLo _ _) rfl hi
  case fetchHi => exact roundTrips_fetch rfl (by simp [seqTable_eq]) (mask_fetchHi _ _) rfl hi
  case loadIncx => exact roundTrips_fetch rfl (by simp [seqTable_eq]) (mask_loadIncx _ _) rfl hi
  case incY | sprEval =>
    exact roundTrips_shared rfl (by simp [seqTable_eq]) (mask_dot256 _ _) rfl rfl (by decide)
  case copyH =>
    exact roundTrips_shared rfl (by simp [seqTable_eq]) (mask_dot257 _ _) rfl rfl (by decide)
  case copyV => exact roundTrips_copyV hi
  case idle => exact roundTrips_idle hi
  all_goals exact roundTrips_of_alone rfl

end Sys2Proof.Machine
end

section
/-!
Every operation is the prelude of 40_register_port.md R140 around its body, CYCLE too: what follows from the body alone.
-/
namespace Sys2Proof.Machine

/-! ### CYCLE as a body -/

/-- The state in which the DOTs of a CYCLE begin: the reply withdrawn, the CYCLE counted (R184). -/
def cycleStart (s : State) : State := { s.noReply with cycMod := cycModAfter s.cfg s.cycMod }

/-- A run of DOTs as the body of an operation. -/
def dotsBody (n : Nat) (s : State) : Except Stop State :=
  match dots n s with
  | .next t => .ok t
  | .fault f => .error (.fault f)
  | .refused r => .error (.refusal r)

/-- A CYCLE as the body of an operation. -/
def cycleBody (s : State) : Except Stop State := dotsBody (cycleDots s.cfg (cycModAfter s.cfg s.cycMod)) (cycleStart s)

theorem dotsBody_ok_iff {n : Nat} {s t : State} : dotsBody n s = .ok t ↔ dots n s = .next t := by
  unfold dotsBody
  cases dots n s <;> simp

theorem commit_dotsBody (s u : State) (n : Nat) : commit s (dotsBody n u) = dots n u := by
  unfold dotsBody
  cases dots n u <;> rfl

theorem execCycle_eq_operate (s : State) : execCycle s = operate s cycleBody := by
  have hbody : commit s.noReply (cycleBody s.noReply) = _ := commit_dotsBody _ _ _
  rw [execCycle, operate, hbody]
  rfl

/-! ### The bodies -/

/-- The body that the prelude runs for an operation. -/
def body : Instr → State → Except Stop State
  | .wrControl d => wrControlBody d
  | .wrMask d => wrMaskBody d
  | .rdStatus => rdStatusBody
  | .wrOamaddr d => wrOamaddrBody d
  | .rdOamdata => rdOamdataBody
  | .wrOamdata d => wrOamdataBody d
  | .wrScroll1 d => wrScroll1Body d
  | .wrScroll2 d => wrScroll2Body d
  | .wrAddr1 d => wrAddr1Body d
  | .wrAddr2 d => wrAddr2Body d
  | .rdData => rdDataBody
  | .wrData d => wrDataBody d
  | .rdControl | .rdMask | .wrStatus _ | .rdOamaddr | .rdScroll | .rdAddr => violation
  | .reset l => resetBody l
  | .dot => dotBody
  | .cycle => cycleBody
  | .oamdma bytes => oamdmaBody bytes
  | .nmipoll => nmipollBody
  | i => perform i

theorem body_eq_perform {i : Instr} {word : BitVec 11} (h : encode i = .seq word) : body i = perform i := by
  cases i
  case vblSet | flagsClr | pixel | fetchNt | fetchAt | fetchLo | fetchHi | loadIncx | incY | sprEval | copyH | copyV |
      frameDone | idle => rfl
  all_goals cases h

/-- Every operation is the prelude around its body. -/
theorem exec_eq_operate (i : Instr) (s : State) : exec i s = operate s (body i) := by
  cases i
  case cycle => exact execCycle_eq_operate s
  all_goals rfl

theorem exec_ok {i : Instr} {s t : State} (h : s.halted = false) (hb : body i s.noReply = .ok t) :
    exec i s = .next t := (exec_eq_operate i s).trans (operate_ok h hb)

theorem exec_fatal {i : Instr} {s : State} {k : FaultCode} (h : s.halted = false)
    (hb : body i s.noReply = .error (.fatal k)) : exec i s = .next (s.raiseFatal k) :=
  (exec_eq_operate i s).trans (operate_fatal h hb)

/-- Everything an operation that goes on can do. -/
theorem exec_cases {i : Instr} {s t : State} (h : exec i s = .next t) :
    (s.halted = true ∧ t = s.noReply) ∨
    (s.halted = false ∧ body i s.noReply = .ok t) ∨
    (s.halted = false ∧ ∃ k, body i s.noReply = .error (.fatal k) ∧ t = s.raiseFatal k) :=
  operate_cases (exec_eq_operate i s ▸ h)

end Sys2Proof.Machine
end

section
/-!
Every step keeps the invariant (10_state.md, 20_memory.md, 60_exceptions.md section 1): the bodies of the operations one by
one, the prelude around them, a DOT and a CYCLE as runs of micro-operations, and the step.
-/
namespace Sys2Proof.Machine

/-! ### The prelude -/

/-- A body that goes on from a state that meets the invariant ends in one. -/
def KeepsInv (body : State → Except Stop State) : Prop := ∀ s t : State, s.Inv → body s = .ok t → t.Inv

/-- A fatal leaves the block halted with its code, and everything else as it was. -/
theorem inv_raiseFatal {s : State} (k : FaultCode) (h : s.Inv) : (s.raiseFatal k).Inv := by
  obtain ⟨hcfg, hpos, hreg, hmem, -⟩ := h
  exact ⟨hcfg, hpos, hreg, hmem, rfl⟩

theorem operate_keeps_inv {body : State → Except Stop State} (hb : KeepsInv body) {s t : State} (h : s.Inv)
    (ht : operate s body = .next t) : t.Inv := by
  have hquiet : s.noReply.Inv := h
  rcases operate_cases ht with ⟨-, rfl⟩ | ⟨-, hok⟩ | ⟨-, k, -, rfl⟩
  · exact hquiet
  · exact hb _ _ hquiet hok
  · exact inv_raiseFatal k h

/-- A body that always goes on. -/
theorem keepsInv_ok {f : State → State} (hf : ∀ s : State, s.Inv → (f s).Inv) : KeepsInv (fun s => .ok (f s)) := by
  intro s t hi h
  cases h
  exact hf s hi

/-! ### The register port -/

theorem keepsInv_wrControl (d : Byte) : KeepsInv (wrControlBody d) := by
  rintro s t ⟨hcfg, hpos, ⟨-, hat⟩, hrest⟩ h
  unfold wrControlBody at h
  split at h
  next => cases h
  next hbit => cases h; exact ⟨hcfg, hpos, ⟨Bool.eq_false_iff.mpr hbit, hat⟩, hrest⟩

theorem keepsInv_wrMask (d : Byte) : KeepsInv (wrMaskBody d) := keepsInv_ok fun _ hi => hi

theorem keepsInv_rdStatus : KeepsInv rdStatusBody := keepsInv_ok fun _ hi => hi

theorem keepsInv_wrOamaddr (d : Byte) : KeepsInv (wrOamaddrBody d) := keepsInv_ok fun _ hi => hi

theorem keepsInv_rdOamdata : KeepsInv rdOamdataBody := keepsInv_ok fun _ hi => hi

theorem keepsInv_wrOamdata (d : Byte) : KeepsInv (wrOamdataBody d) :=
  keepsInv_ok fun s ⟨hcfg, hpos, hreg, ⟨hoam, hmem⟩, hhalt⟩ =>
    ⟨hcfg, hpos, hreg, ⟨Memory.wf_write d hoam s.oamaddr.isLt, hmem⟩, hhalt⟩

theorem keepsInv_wrScroll1 (d : Byte) : KeepsInv (wrScroll1Body d) := keepsInv_ok fun _ hi => hi

theorem keepsInv_wrScroll2 (d : Byte) : KeepsInv (wrScroll2Body d) := keepsInv_ok fun _ hi => hi

theorem keepsInv_wrAddr1 (d : Byte) : KeepsInv (wrAddr1Body d) := keepsInv_ok fun _ hi => hi

theorem keepsInv_wrAddr2 (d : Byte) : KeepsInv (wrAddr2Body d) := keepsInv_ok fun _ hi => hi

theorem keepsInv_rdData : KeepsInv rdDataBody := by
  intro s t hi h
  simp only [rdDataBody] at h
  split at h
  next =>
    obtain ⟨_, -, h⟩ := bind_eq_ok h
    cases h
    exact hi
  next =>
    obtain ⟨_, -, h⟩ := bind_eq_ok h
    obtain ⟨_, -, h⟩ := bind_eq_ok h
    cases h
    exact hi

/-- The mirroring of a configuration that passed RESET's checks. -/
theorem mirroring_of_inv {s : State} (h : s.Inv) : s.cfg.mirroring ≠ .fourScreen := by
  obtain ⟨⟨-, hsup⟩, -⟩ := h
  exact (mirroring_of_supported hsup).2

/-- What WR_DATA does when it goes on: a store through the translator, to a cell that exists, and the increment. -/
theorem wrDataBody_ok {d : Byte} {s t : State} (hm : s.cfg.mirroring ≠ .fourScreen) (h : wrDataBody d s = .ok t) :
    ∃ g, translateAddress s.cfg (dataAddress s.v) = .ok g ∧ g.inBounds ∧
      t = { s.writeTarget d g with v := dataIncrement s.ctrl s.v } := by
  obtain ⟨g, hg, hb, hw⟩ := vramWrite_ok (s := s) d hm (dataAddress_lt s.v)
  obtain ⟨u, hu, h⟩ := bind_eq_ok h
  rw [hw] at hu
  cases hu
  cases h
  exact ⟨g, hg, hb, rfl⟩

theorem keepsInv_wrData (d : Byte) : KeepsInv (wrDataBody d) := by
  intro s t hi h
  obtain ⟨g, -, hb, rfl⟩ := wrDataBody_ok (mirroring_of_inv hi) h
  have hstored := hi
  rw [← writeTarget_frame s d g] at hstored
  obtain ⟨-, -, -, ⟨-, -, hnt, hpal, hchr, -⟩, -⟩ := hi
  obtain ⟨hnt', hpal', hchr'⟩ := writeTarget_wf d hb hnt hpal hchr
  obtain ⟨hcfg, hpos, hreg, ⟨hoam, hsec, -, -, -, hframes⟩, hhalt⟩ := hstored
  have hmem : (s.writeTarget d g).MemoriesOk := ⟨hoam, hsec, hnt', hpal', hchr', hframes⟩
  exact ⟨hcfg, hpos, hreg, hmem, hhalt⟩

theorem keepsInv_violation : KeepsInv violation := by
  intro s t _ h
  cases h

/-! ### The out-of-band operations -/

/-- A well-formed launch of a supported configuration meets the invariant (70_reset_and_hazards.md R320). -/
theorem inv_launch {l : Launch} (hwf : l.wf = true) (hsup : l.cfg.supported = true) : (State.launch l).Inv := by
  simp only [Launch.wf, Launch.contentsWf, Bool.and_eq_true] at hwf
  obtain ⟨hcfg, ⟨⟨⟨hoam, hnt⟩, hpal⟩, hfb⟩, hchr⟩ := hwf
  obtain ⟨hlines, -, -, hline, -⟩ := cfg_wf_iff.mp hcfg
  have hpos : (State.launch l).positionExists = true := by
    rw [positionExists_iff]
    simp only [launch_scanline, launch_cfg, launch_dot]
    omega
  have hctrl : ctrlSpriteSize 0x00#8 = false := by decide
  have hat : (0#4).extractLsb' 0 2 = 0#2 := by decide
  exact ⟨⟨hcfg, hsup⟩, ⟨hpos, by simp⟩, ⟨hctrl, hat⟩, ⟨hoam, clearedSec_wf, hnt, hpal, hchr, hfb, rfl⟩, rfl⟩

/-- What RESET does when it goes on: the launch was supported and well-formed, and the launch state stands, what belongs to
the host kept (log 6). -/
theorem resetBody_eq_ok {l : Launch} {s t : State} (h : resetBody l s = .ok t) :
    l.cfg.standard = .std0 ∧ l.cfg.mirroring ≠ .fourScreen ∧ l.wf = true ∧
      t = { State.launch l with pending := s.pending, frames := s.frames } := by
  unfold resetBody at h
  split at h
  next => cases h
  next hstd =>
    split at h
    next => cases h
    next hm =>
      split at h
      next hwf => cases h; exact ⟨not_not.mp hstd, hm, hwf, rfl⟩
      next => cases h

theorem keepsInv_reset (l : Launch) : KeepsInv (resetBody l) := by
  intro s t hi h
  obtain ⟨hstd, hm, hwf, rfl⟩ := resetBody_eq_ok h
  have hsup : l.cfg.supported = true := by simp [Cfg.supported, hm, hstd]
  obtain ⟨hcfg, hpos, hreg, ⟨hoam, hsec, hnt, hpal, hchr, hfb, -⟩, hhalt⟩ := inv_launch hwf hsup
  obtain ⟨-, -, -, ⟨-, -, -, -, -, -, hframes⟩, -⟩ := hi
  exact ⟨hcfg, hpos, hreg, ⟨hoam, hsec, hnt, hpal, hchr, hfb, hframes⟩, hhalt⟩

theorem keepsInv_oamdma (bytes : List Byte) : KeepsInv (oamdmaBody bytes) := by
  rintro s t ⟨hcfg, hpos, hreg, ⟨-, hmem⟩, hhalt⟩ h
  unfold oamdmaBody at h
  split at h
  next hlen => cases h; exact ⟨hcfg, hpos, hreg, ⟨Memory.wf_fromBytes bytes (Nat.le_of_eq hlen), hmem⟩, hhalt⟩
  next => cases h

theorem keepsInv_nmipoll : KeepsInv nmipollBody := keepsInv_ok fun _ hi => hi

/-! ### The micro-operations -/

theorem keepsInv_fetchNt : KeepsInv fetchNtBody := by
  intro s t hi h
  obtain ⟨_, -, h⟩ := bind_eq_ok h
  cases h
  exact hi

/-- The quadrant's index stands above two zero bits (10_state.md R39). -/
theorem atValue_low (v : VAddr) (b : Byte) : (atValue v b).extractLsb' 0 2 = 0#2 := by
  ext i hi
  rw [BitVec.getElem_extractLsb', atValue, BitVec.getLsbD_append]
  simp [hi]

theorem keepsInv_fetchAt : KeepsInv fetchAtBody := by
  rintro s t ⟨hcfg, hpos, ⟨hctrl, -⟩, hrest⟩ h
  obtain ⟨b, -, h⟩ := bind_eq_ok h
  cases h
  exact ⟨hcfg, hpos, ⟨hctrl, atValue_low s.v b⟩, hrest⟩

theorem keepsInv_fetchLo : KeepsInv fetchLoBody := by
  intro s t hi h
  obtain ⟨_, -, h⟩ := bind_eq_ok h
  cases h
  exact hi

theorem keepsInv_fetchHi : KeepsInv fetchHiBody := by
  intro s t hi h
  obtain ⟨_, -, h⟩ := bind_eq_ok h
  cases h
  exact hi

/-- What PIXEL does when it goes on: it stands at a pixel of the screen, and writes that pixel and the hit flag. -/
theorem pixelBody_eq_ok {d : BitVec 9} {s t : State} (h : pixelBody d s = .ok t) :
    ∃ row sp b, pixelDot d.toNat = true ∧ s.screenRow = .ok row ∧ spritePixel s (d.toNat - 1) row = .ok sp ∧
      s.vramRead (paletteAddress (muxIndex (bgNibble s (d.toNat - 1)) sp)) = .ok b ∧
      t = { s with
        sprite0Hit := muxHit s.sprite0Hit s.slot0IsSprite0 (bgNibble s (d.toNat - 1)) sp
        fb := s.fb.write row (d.toNat - 1) (lutColour s.cfg b) } := by
  obtain ⟨col, hcol, h⟩ := bind_eq_ok h
  obtain ⟨row, hrow, h⟩ := bind_eq_ok h
  obtain ⟨sp, hsp, h⟩ := bind_eq_ok h
  obtain ⟨b, hb, h⟩ := bind_eq_ok h
  unfold screenColumn at hcol
  split at hcol
  next hd => cases hcol; cases h; exact ⟨row, sp, b, hd, hrow, hsp, hb, rfl⟩
  next => cases hcol

theorem pixelDot_iff {n : Nat} : pixelDot n = true ↔ 1 ≤ n ∧ n ≤ 256 := by simp [pixelDot]

theorem keepsInv_pixel (d : BitVec 9) : KeepsInv (pixelBody d) := by
  rintro s t ⟨⟨hcfg, hsup⟩, hpos, hreg, ⟨hoam, hsec, hnt, hpal, hchr, hfb, hframes⟩, hhalt⟩ h
  obtain ⟨row, sp, b, hd, hrow, -, -, rfl⟩ := pixelBody_eq_ok h
  obtain ⟨-, -, -, -, hvisible⟩ := cfg_wf_iff.mp hcfg
  have hcol : d.toNat - 1 < 256 := by have := pixelDot_iff.mp hd; omega
  have hscreen : row < 240 := hvisible ▸ screenRow_ok hrow
  exact ⟨⟨hcfg, hsup⟩, hpos, hreg, ⟨hoam, hsec, hnt, hpal, hchr, Frame.wf_write _ hfb hscreen hcol, hframes⟩, hhalt⟩

theorem keepsInv_sprEval : KeepsInv sprEvalBody := by
  rintro s t ⟨hcfg, hpos, hreg, ⟨hoam, -, hmem⟩, hhalt⟩ h
  obtain ⟨row, -, h⟩ := bind_eq_ok h
  cases h
  exact ⟨hcfg, hpos, hreg, ⟨hoam, evalFill_wf s.oam row, hmem⟩, hhalt⟩

theorem keepsInv_frameDone : KeepsInv frameDoneBody :=
  keepsInv_ok fun s ⟨hcfg, hpos, hreg, ⟨hoam, hsec, hnt, hpal, hchr, hfb, hframes⟩, hhalt⟩ =>
    ⟨hcfg, hpos, hreg, ⟨hoam, hsec, hnt, hpal, hchr, hfb, by rw [List.all_cons, hfb, hframes]; rfl⟩, hhalt⟩

theorem keepsInv_vblSet : KeepsInv vblSetBody := keepsInv_ok fun _ hi => hi

theorem keepsInv_flagsClr : KeepsInv flagsClrBody := keepsInv_ok fun _ hi => hi

theorem keepsInv_loadIncx : KeepsInv loadIncxBody := keepsInv_ok fun _ hi => hi

theorem keepsInv_incY : KeepsInv incYBody := keepsInv_ok fun _ hi => hi

theorem keepsInv_copyH : KeepsInv copyHBody := keepsInv_ok fun _ hi => hi

theorem keepsInv_copyV : KeepsInv copyVBody := keepsInv_ok fun _ hi => hi

theorem keepsInv_idle : KeepsInv idleBody := keepsInv_ok fun _ hi => hi

theorem keepsInv_perform (i : Instr) : KeepsInv (perform i) := by
  cases i
  case vblSet => exact keepsInv_vblSet
  case flagsClr => exact keepsInv_flagsClr
  case pixel d => exact keepsInv_pixel d
  case fetchNt => exact keepsInv_fetchNt
  case fetchAt => exact keepsInv_fetchAt
  case fetchLo => exact keepsInv_fetchLo
  case fetchHi => exact keepsInv_fetchHi
  case loadIncx => exact keepsInv_loadIncx
  case incY => exact keepsInv_incY
  case sprEval => exact keepsInv_sprEval
  case copyH => exact keepsInv_copyH
  case copyV => exact keepsInv_copyV
  case frameDone => exact keepsInv_frameDone
  case idle => exact keepsInv_idle
  all_goals
    intro s t _ h
    cases h

/-! ### DOT and CYCLE -/

theorem keepsInv_performAll (is : List Instr) : KeepsInv (performAll is) := by
  induction is with
  | nil => exact keepsInv_ok fun _ hi => hi
  | cons i is ih =>
    intro s t hi h
    obtain ⟨u, hu, h⟩ := bind_eq_ok h
    exact ih u t (keepsInv_perform i s u hi hu) h

theorem inv_advance {s : State} (h : s.Inv) : s.advance.Inv := by
  have hmoved := h
  rw [← advance_frame s] at hmoved
  obtain ⟨-, ⟨hpos, -⟩, -⟩ := h
  obtain ⟨hcfg, ⟨-, hcyc⟩, hrest⟩ := hmoved
  exact ⟨hcfg, ⟨advance_positionExists hpos, hcyc⟩, hrest⟩

theorem keepsInv_dot : KeepsInv dotBody := by
  intro s t hi h
  obtain ⟨ops, u, -, hu, rfl⟩ := dotBody_ok h
  exact inv_advance (keepsInv_performAll ops s u hi hu)

theorem execDot_keeps_inv {s t : State} (hi : s.Inv) (h : execDot s = .next t) : t.Inv :=
  operate_keeps_inv keepsInv_dot hi h

theorem cycModAfter_lt {c : Cfg} {n : Nat} (h : n < max 1 c.extraDotPeriod) :
    cycModAfter c n < max 1 c.extraDotPeriod := by
  unfold cycModAfter
  split
  next hp => exact Nat.lt_of_lt_of_le (Nat.mod_lt _ hp) (Nat.le_max_right _ _)
  next => exact h

theorem inv_cycleStart {s : State} (h : s.Inv) : (cycleStart s).Inv := by
  obtain ⟨hcfg, ⟨hpos, hcyc⟩, hrest⟩ := h
  exact ⟨hcfg, ⟨hpos, cycModAfter_lt hcyc⟩, hrest⟩

theorem keepsInv_cycle : KeepsInv cycleBody := fun _ _ hi h =>
  dots_keep (fun _ _ hu hd => execDot_keeps_inv hu hd) (inv_cycleStart hi) (dotsBody_ok_iff.mp h)

/-! ### The step -/

theorem keepsInv_body (i : Instr) : KeepsInv (body i) := by
  cases i
  case wrControl d => exact keepsInv_wrControl d
  case wrMask d => exact keepsInv_wrMask d
  case rdStatus => exact keepsInv_rdStatus
  case wrOamaddr d => exact keepsInv_wrOamaddr d
  case rdOamdata => exact keepsInv_rdOamdata
  case wrOamdata d => exact keepsInv_wrOamdata d
  case wrScroll1 d => exact keepsInv_wrScroll1 d
  case wrScroll2 d => exact keepsInv_wrScroll2 d
  case wrAddr1 d => exact keepsInv_wrAddr1 d
  case wrAddr2 d => exact keepsInv_wrAddr2 d
  case rdData => exact keepsInv_rdData
  case wrData d => exact keepsInv_wrData d
  case rdControl | rdMask | wrStatus | rdOamaddr | rdScroll | rdAddr => exact keepsInv_violation
  case reset l => exact keepsInv_reset l
  case dot => exact keepsInv_dot
  case cycle => exact keepsInv_cycle
  case oamdma bytes => exact keepsInv_oamdma bytes
  case nmipoll => exact keepsInv_nmipoll
  all_goals
    rw [body_eq_perform rfl]
    exact keepsInv_perform _

theorem exec_keeps_inv {i : Instr} {s t : State} (hi : s.Inv) (h : exec i s = .next t) : t.Inv :=
  operate_keeps_inv (keepsInv_body i) hi (exec_eq_operate i s ▸ h)

/-- Settles O54: the default launch is well-formed and supported. -/
theorem invariantAtReset : Obligations.InvariantAtReset :=
  inv_launch (l := Launch.default) (by decide) (by decide)

/-- Settles O55: nothing issued, a transaction outside the window, or an operation, each of which keeps it. -/
theorem stepKeepsTheInvariant : Obligations.StepKeepsTheInvariant := by
  intro s t hi h
  rcases step_cases h with ⟨-, rfl⟩ | ⟨_, _, _, rest, -, -, -, rfl⟩ | ⟨_, rest, i, -, hexec⟩
  · exact hi
  · exact inv_raiseFatal .f1 hi
  · exact exec_keeps_inv (s := { s with pending := rest }) hi hexec

end Sys2Proof.Machine
end

section
/-!
The BUS map slot by slot (30_encoding.md R110, R113), and the step's dispatch (40_register_port.md R140): what the next
request is, and the operation it runs.
-/
namespace Sys2Proof.Machine

/-! ### The slots -/

section
variable {a : BitVec 16} (w : Bool) (d : Byte)

theorem decodeBus_slot0 (h : a.extractLsb' 0 3 = 0#3) : decodeBus (busWord w false a) d = .ok .rdControl ∧
    decodeBus (busWord w true a) d = .ok (.wrControl d) := by
  rw [busWord_of_slot w false h, busWord_of_slot w true h]
  cases w <;> exact ⟨rfl, rfl⟩

theorem decodeBus_slot1 (h : a.extractLsb' 0 3 = 1#3) : decodeBus (busWord w false a) d = .ok .rdMask ∧
    decodeBus (busWord w true a) d = .ok (.wrMask d) := by
  rw [busWord_of_slot w false h, busWord_of_slot w true h]
  cases w <;> exact ⟨rfl, rfl⟩

theorem decodeBus_slot2 (h : a.extractLsb' 0 3 = 2#3) : decodeBus (busWord w false a) d = .ok .rdStatus ∧
    decodeBus (busWord w true a) d = .ok (.wrStatus d) := by
  rw [busWord_of_slot w false h, busWord_of_slot w true h]
  cases w <;> exact ⟨rfl, rfl⟩

theorem decodeBus_slot3 (h : a.extractLsb' 0 3 = 3#3) : decodeBus (busWord w false a) d = .ok .rdOamaddr ∧
    decodeBus (busWord w true a) d = .ok (.wrOamaddr d) := by
  rw [busWord_of_slot w false h]
  exact ⟨by cases w <;> rfl, decodeBus_wrOamaddr w d h⟩

theorem decodeBus_slot4 (h : a.extractLsb' 0 3 = 4#3) : decodeBus (busWord w false a) d = .ok .rdOamdata ∧
    decodeBus (busWord w true a) d = .ok (.wrOamdata d) := by
  rw [busWord_of_slot w false h, busWord_of_slot w true h]
  cases w <;> exact ⟨rfl, rfl⟩

theorem decodeBus_slot5 (h : a.extractLsb' 0 3 = 5#3) : decodeBus (busWord w false a) d = .ok .rdScroll ∧
    decodeBus (busWord w true a) d = .ok (if w then .wrScroll2 d else .wrScroll1 d) := by
  rw [busWord_of_slot w false h, busWord_of_slot w true h]
  cases w <;> exact ⟨rfl, rfl⟩

theorem decodeBus_slot6 (h : a.extractLsb' 0 3 = 6#3) : decodeBus (busWord w false a) d = .ok .rdAddr ∧
    decodeBus (busWord w true a) d = .ok (if w then .wrAddr2 d else .wrAddr1 d) := by
  rw [busWord_of_slot w false h, busWord_of_slot w true h]
  cases w <;> exact ⟨rfl, rfl⟩

theorem decodeBus_slot7 (h : a.extractLsb' 0 3 = 7#3) : decodeBus (busWord w false a) d = .ok .rdData ∧
    decodeBus (busWord w true a) d = .ok (.wrData d) := by
  rw [busWord_of_slot w false h, busWord_of_slot w true h]
  cases w <;> exact ⟨rfl, rfl⟩

end

/-! ### The step by its next request -/

theorem inWindow_iff {c : Cfg} {addr : BitVec 16} :
    inWindow c addr = true ↔ c.regBase.toNat ≤ addr.toNat ∧ addr.toNat < c.regBase.toNat + c.regSize := by
  simp [inWindow]

theorem step_hold {s : State} (h : s.pending = []) : step s = .next s := by
  simp [step, fetch, h]

theorem step_bus {s : State} {write : Bool} {addr : BitVec 16} {data : Byte} {rest : List Request} {i : Instr}
    (hp : s.pending = .bus write addr data :: rest) (hw : inWindow s.cfg addr = true)
    (hd : decodeBus (busWord s.w write addr) data = .ok i) : step s = exec i { s with pending := rest } := by
  simp [step, fetch, hp, hw, hd, runDecoded]

theorem step_bus_outside {s : State} {write : Bool} {addr : BitVec 16} {data : Byte} {rest : List Request}
    (hp : s.pending = .bus write addr data :: rest) (h : s.halted = false) (hw : inWindow s.cfg addr = false) :
    step s = .next (State.raiseFatal .f1 { s with pending := rest }) := by
  simp [step, fetch, hp, hw, h]

theorem step_host {s : State} {code : BitVec 3} {arg : HostArg} {rest : List Request}
    (hp : s.pending = .host code arg :: rest) :
    (∀ i, decodeHost code arg = .ok i → step s = exec i { s with pending := rest }) ∧
    (∀ e, decodeHost code arg = .error e → step s = .refused (.undecodable e)) := by
  constructor <;> intro x hx <;> simp [step, fetch, hp, hx, runDecoded]

theorem decodeHost_unassigned {code : BitVec 3} {arg : HostArg} (h : 5 ≤ code.toNat) :
    decodeHost code arg = .error .unassignedHostCode := by
  unfold decodeHost
  split
  case h_6 => rw [if_pos h]
  all_goals omega

/-- An operation that the host can issue: a bus transaction or a HOST code, no micro-operation. -/
def Issued (i : Instr) : Prop := ∀ word, encode i ≠ .seq word

theorem issued_of_decodeBus {word : BitVec 5} {data : Byte} {i : Instr} (h : decodeBus word data = .ok i) : Issued i := by
  obtain ⟨_, _, he⟩ := decodeBus_format h
  intro word hs
  cases he.symm.trans hs

theorem issued_of_decodeHost {code : BitVec 3} {arg : HostArg} {i : Instr} (h : decodeHost code arg = .ok i) :
    Issued i := by
  intro word hs
  cases (decodeHost_encode h).symm.trans hs

/-- What a step is: the state held, the fatal F1, a refusal to decode, or an operation that the host can issue. -/
theorem step_eq (s : State) :
    step s = .next s ∨ (∃ rest, step s = .next (State.raiseFatal .f1 { s with pending := rest })) ∨
    (∃ e, step s = .refused (.undecodable e)) ∨
    ∃ rest i, Issued i ∧ step s = exec i { s with pending := rest } := by
  cases hp : s.pending with
  | nil => exact .inl (step_hold hp)
  | cons r rest =>
    cases r with
    | bus write addr data =>
      obtain ⟨i, hi⟩ := decodeBus_total (busWord s.w write addr) data
      by_cases hw : s.halted = false ∧ inWindow s.cfg addr = false
      · exact .inr (.inl ⟨rest, step_bus_outside hp hw.1 hw.2⟩)
      · refine .inr (.inr (.inr ⟨rest, i, issued_of_decodeBus hi, ?_⟩))
        simp [step, fetch, hp, hw, hi, runDecoded]
    | host code arg =>
      obtain ⟨hok, herror⟩ := step_host hp
      cases hd : decodeHost code arg with
      | ok i => exact .inr (.inr (.inr ⟨rest, i, issued_of_decodeHost hd, hok i hd⟩))
      | error e => exact .inr (.inr (.inl ⟨e, herror e hd⟩))

/-! ### The violations (40_register_port.md R157) -/

theorem exec_violation {i : Instr} {s : State} (h : s.halted = false) (hb : body i = violation) :
    exec i s = .next { s with halted := true, faultCode := some .f1, reply := .none } :=
  exec_fatal (k := .f1) h (by rw [hb]; rfl)

/-! ### The statements -/

/-- Settles O1: each word evaluated. -/
theorem specWordsDecode : Obligations.SpecWordsDecode := by
  unfold Obligations.SpecWordsDecode
  decide

/-- Settles O3: slot by slot. -/
theorem busMapIsComplete : Obligations.BusMapIsComplete := fun w _ d =>
  ⟨decodeBus_slot0 w d, decodeBus_slot1 w d, decodeBus_slot2 w d, decodeBus_slot3 w d, decodeBus_slot4 w d,
    decodeBus_slot5 w d, decodeBus_slot6 w d, decodeBus_slot7 w d⟩

/-- Settles O5: the three kinds of list. -/
theorem stepRunsTheDecodedOperation : Obligations.StepRunsTheDecodedOperation := fun _ =>
  ⟨fun _ _ _ _ _ hp _ hlo hhi hd => step_bus hp (inWindow_iff.mpr ⟨hlo, hhi⟩) hd,
    fun _ _ _ i hp hd => (step_host hp).1 i hd, step_hold⟩

/-- Settles O6: six bodies that are the violation, their words, and the window's test. -/
theorem protocolViolationsAreF1 : Obligations.ProtocolViolationsAreF1 := by
  refine ⟨fun s h i hi => exec_violation h ?_, fun s d h => exec_violation h rfl, fun w a d => ?_, ?_⟩
  · simp only [List.mem_cons, List.not_mem_nil, or_false] at hi
    rcases hi with rfl | rfl | rfl | rfl | rfl <;> rfl
  · exact ⟨fun h => (decodeBus_slot0 w d h).1, fun h => (decodeBus_slot1 w d h).1, fun h => (decodeBus_slot3 w d h).1,
      fun h => (decodeBus_slot5 w d h).1, fun h => (decodeBus_slot6 w d h).1, fun h => (decodeBus_slot2 w d h).2⟩
  · intro s write addr data rest hp h hout
    refine step_bus_outside hp h (Bool.eq_false_iff.mpr fun hin => ?_)
    have := inWindow_iff.mp hin
    omega

/-- Settles O7: the decoder rejects the code before it looks at the operand. -/
theorem unassignedHostCodesAreRefused : Obligations.UnassignedHostCodesAreRefused :=
  fun _ _ _ _ hp h => (step_host hp).2 _ (decodeHost_unassigned h)

/-- Settles O8: the prelude for each operation, and so for the step. -/
theorem haltedBlockDoesNothing : Obligations.HaltedBlockDoesNothing := by
  refine ⟨fun i s h => exec_halted i h, fun s t h hstep => ?_⟩
  rcases step_cases hstep with ⟨hp, rfl⟩ | ⟨_, _, _, _, -, hrun, -⟩ | ⟨_, rest, i, hp, hexec⟩
  · exact ⟨rfl, by rw [hp]; rfl⟩
  · rw [h] at hrun
    cases hrun
  · cases (exec_halted (s := { s with pending := rest }) i h).symm.trans hexec
    exact ⟨rfl, by rw [hp]; rfl⟩

end Sys2Proof.Machine
end

section
/-!
The SEQ map in prose (30_encoding.md R114): the micro-operations of a position that meets the invariant, row by row.
-/
namespace Sys2Proof.Machine

/-! ### Phases and dots -/

theorem phase_code_postRender {p : Phase} : p.code = 1#2 ↔ p = .postRender := by cases p <;> decide

theorem phaseOf_postRender {c : Cfg} {n : Nat} :
    phaseOf c n = .postRender ↔ c.vblankLines + c.visibleLines < n := by
  unfold phaseOf
  split
  · simp; omega
  · split
    · simp; omega
    · split
      · simp; omega
      · simp; omega

theorem onFirstLine_of_postRender {s : State} (h : phaseOf s.cfg s.scanline = .postRender) :
    s.onFirstLine = true ↔ s.scanline = s.cfg.vblankLines + s.cfg.visibleLines + 1 := by
  rw [State.onFirstLine, h, decide_eq_true_eq, Phase.firstLine]

theorem renderingEnabled_iff {m : Byte} : renderingEnabled m = true ↔ m.getLsbD 3 = true ∨ m.getLsbD 4 = true := by
  simp [renderingEnabled, maskBgEnable, maskSprEnable]

theorem fetchDot_iff {n : Nat} : fetchDot n = true ↔ (1 ≤ n ∧ n ≤ 256) ∨ (321 ≤ n ∧ n ≤ 336) := by
  simp [fetchDot, pixelDot]

theorem copyVDot_iff {n : Nat} : copyVDot n = true ↔ 280 ≤ n ∧ n ≤ 304 := by simp [copyVDot]

/-! ### The rows at a position -/

/-- A scanline of the two rendering phases (41_dot_driver.md R180). -/
def State.OnRenderLine (s : State) : Prop :=
  s.cfg.vblankLines ≤ s.scanline ∧ s.scanline ≤ s.cfg.vblankLines + s.cfg.visibleLines

/-- The row fires at the position of `s` (30_encoding.md R112). -/
abbrev SeqRow.FiresAt (r : SeqRow) (s : State) : Prop :=
  r.fires s.seqWord s.onFirstLine (renderingEnabled s.mask) = true

section
variable {s : State} (hd : s.dot ≤ 340)
include hd

theorem dotBits_toNat : (BitVec.ofNat 9 s.dot).toNat = s.dot := Nat.mod_eq_of_lt (by omega)

theorem dotBits_eq_iff (d : BitVec 9) : BitVec.ofNat 9 s.dot = d ↔ d.toNat = s.dot := by
  rw [← BitVec.toNat_inj, dotBits_toNat hd, eq_comm]

theorem rowVblSet_firesAt :
    SeqRow.FiresAt rowVblSet s ↔ 0 < s.cfg.vblankLines ∧ s.scanline = 0 ∧ s.dot = 1 := by
  rw [SeqRow.FiresAt, State.seqWord, rowVblSet_fires, dotBits_toNat hd, phase_code_vblank]
  constructor
  · rintro ⟨hp, hdot, hfirst⟩
    have h0 := (onFirstLine_of_vblank hp).mp hfirst
    exact ⟨h0 ▸ phaseOf_vblank.mp hp, h0, hdot⟩
  · rintro ⟨hv, h0, hdot⟩
    have hp := phaseOf_vblank.mpr (h0 ▸ hv)
    exact ⟨hp, hdot, (onFirstLine_of_vblank hp).mpr h0⟩

theorem rowFlagsClr_firesAt : SeqRow.FiresAt rowFlagsClr s ↔ s.scanline = s.cfg.vblankLines ∧ s.dot = 1 := by
  rw [SeqRow.FiresAt, State.seqWord, rowFlagsClr_fires, dotBits_toNat hd, phase_code_preRender, phaseOf_preRender]

theorem rowPixel_firesAt : SeqRow.FiresAt rowPixel s ↔ (s.cfg.vblankLines < s.scanline ∧
    s.scanline ≤ s.cfg.vblankLines + s.cfg.visibleLines) ∧ 1 ≤ s.dot ∧ s.dot ≤ 256 := by
  rw [SeqRow.FiresAt, State.seqWord, rowPixel_fires, dotBits_toNat hd, phase_code_visible, phaseOf_visible,
    pixelDot_iff]

theorem rowFetch_firesAt {q : BitVec 11} {f : BitVec 1 → BitVec 6 → Instr} {k : Nat}
    (h : ∀ (c : BitVec 2) (d : BitVec 9),
      ((c ++ d) &&& 0x407#11 == q) = (c.getLsbD 1 && decide (d.toNat % 8 = k))) :
    SeqRow.FiresAt (rowFetch q f) s ↔ (s.OnRenderLine ∧ (s.mask.getLsbD 3 = true ∨ s.mask.getLsbD 4 = true) ∧
      ((1 ≤ s.dot ∧ s.dot ≤ 256) ∨ (321 ≤ s.dot ∧ s.dot ≤ 336))) ∧ s.dot % 8 = k := by
  rw [SeqRow.FiresAt, State.seqWord, rowFetch_fires (h _ _), dotBits_toNat hd, phase_code_rendering,
    phaseOf_rendering_iff, fetchDot_iff,
    renderingEnabled_iff, State.OnRenderLine]
  grind

theorem rowShared_firesAt {q : BitVec 11} {f : BitVec 1 → Instr} {k : Nat}
    (h : ∀ (c : BitVec 2) (d : BitVec 9),
      ((c ++ d) &&& 0x5FF#11 == q) = (c.getLsbD 1 && decide (d.toNat = k))) :
    SeqRow.FiresAt (rowShared q k f) s ↔
      s.OnRenderLine ∧ (s.mask.getLsbD 3 = true ∨ s.mask.getLsbD 4 = true) ∧ s.dot = k := by
  rw [SeqRow.FiresAt, State.seqWord, rowShared_fires (h _ _), dotBits_toNat hd, phase_code_rendering,
    phaseOf_rendering_iff,    renderingEnabled_iff, State.OnRenderLine]
  grind

theorem rowCopyV_firesAt : SeqRow.FiresAt rowCopyV s ↔ s.scanline = s.cfg.vblankLines ∧
    (s.mask.getLsbD 3 = true ∨ s.mask.getLsbD 4 = true) ∧ 280 ≤ s.dot ∧ s.dot ≤ 304 := by
  rw [SeqRow.FiresAt, State.seqWord, rowCopyV_fires, dotBits_toNat hd, phase_code_preRender, phaseOf_preRender,
    copyVDot_iff, renderingEnabled_iff]
  grind

theorem rowFrameDone_firesAt : SeqRow.FiresAt rowFrameDone s ↔
    s.scanline = s.cfg.vblankLines + s.cfg.visibleLines + 1 ∧ s.dot = 0 := by
  rw [SeqRow.FiresAt, State.seqWord, rowFrameDone_fires, dotBits_toNat hd, phase_code_postRender]
  constructor
  · rintro ⟨hp, hdot, hfirst⟩
    exact ⟨(onFirstLine_of_postRender hp).mp hfirst, hdot⟩
  · rintro ⟨hl, hdot⟩
    have hp : phaseOf s.cfg s.scanline = .postRender := phaseOf_postRender.mpr (by omega)
    exact ⟨hp, hdot, (onFirstLine_of_postRender hp).mpr hl⟩

end

/-! ### The list of a position -/

/-- Neither a row nor IDLE is left out: the micro-operations of a position are those of the rows that fire there, or IDLE
where none does. -/
theorem mem_microOps {s : State} {ops : List Instr} (h : s.microOps = .ok ops) (i : Instr) :
    i ∈ ops ↔ (∃ r ∈ seqTable, SeqRow.FiresAt r s ∧ r.make s.seqWord = i) ∨
      ((∀ r ∈ seqTable, ¬ SeqRow.FiresAt r s) ∧
        i = .idle (phaseOf s.cfg s.scanline).code (BitVec.ofNat 9 s.dot)) := by
  obtain ⟨-, hdecode⟩ := microOps_iff.mp h
  rw [mem_decodeSeq hdecode, State.seqWord, seqCode_append, seqDotBits_append]
  simp only [SeqRow.FiresAt, State.seqWord, Bool.not_eq_true]

section
variable {s : State} {ops : List Instr} (h : s.microOps = .ok ops)
include h

theorem vblSet_mem_iff : .vblSet ∈ ops ↔ SeqRow.FiresAt rowVblSet s := by
  simp [mem_microOps h, seqTable_eq]

theorem flagsClr_mem_iff : .flagsClr ∈ ops ↔ SeqRow.FiresAt rowFlagsClr s := by
  simp [mem_microOps h, seqTable_eq]

theorem pixel_mem_iff (d : BitVec 9) : .pixel d ∈ ops ↔ SeqRow.FiresAt rowPixel s ∧ BitVec.ofNat 9 s.dot = d := by
  simp [mem_microOps h, seqTable_eq, State.seqWord, seqDotBits_append]

theorem fetchNt_mem_iff : (∃ p d, .fetchNt p d ∈ ops) ↔ SeqRow.FiresAt (rowFetch 0x401#11 .fetchNt) s := by
  simp [mem_microOps h, seqTable_eq]

theorem fetchAt_mem_iff : (∃ p d, .fetchAt p d ∈ ops) ↔ SeqRow.FiresAt (rowFetch 0x403#11 .fetchAt) s := by
  simp [mem_microOps h, seqTable_eq]

theorem fetchLo_mem_iff : (∃ p d, .fetchLo p d ∈ ops) ↔ SeqRow.FiresAt (rowFetch 0x405#11 .fetchLo) s := by
  simp [mem_microOps h, seqTable_eq]

theorem fetchHi_mem_iff : (∃ p d, .fetchHi p d ∈ ops) ↔ SeqRow.FiresAt (rowFetch 0x407#11 .fetchHi) s := by
  simp [mem_microOps h, seqTable_eq]

theorem loadIncx_mem_iff : (∃ p d, .loadIncx p d ∈ ops) ↔ SeqRow.FiresAt (rowFetch 0x400#11 .loadIncx) s := by
  simp [mem_microOps h, seqTable_eq]

theorem incY_mem_iff : (∃ p, .incY p ∈ ops) ↔ SeqRow.FiresAt (rowShared 0x500#11 256 .incY) s := by
  simp [mem_microOps h, seqTable_eq]

theorem sprEval_mem_iff : (∃ p, .sprEval p ∈ ops) ↔ SeqRow.FiresAt (rowShared 0x500#11 256 .sprEval) s := by
  simp [mem_microOps h, seqTable_eq]

theorem copyH_mem_iff : (∃ p, .copyH p ∈ ops) ↔ SeqRow.FiresAt (rowShared 0x501#11 257 .copyH) s := by
  simp [mem_microOps h, seqTable_eq]

theorem copyV_mem_iff : (∃ d, .copyV d ∈ ops) ↔ SeqRow.FiresAt rowCopyV s := by
  simp [mem_microOps h, seqTable_eq]

theorem frameDone_mem_iff : .frameDone ∈ ops ↔ SeqRow.FiresAt rowFrameDone s := by
  simp [mem_microOps h, seqTable_eq]

theorem idle_mem_iff (p : BitVec 2) (d : BitVec 9) : .idle p d ∈ ops ↔ (∀ r ∈ seqTable, ¬ SeqRow.FiresAt r s) ∧
    p = (phaseOf s.cfg s.scanline).code ∧ d = BitVec.ofNat 9 s.dot := by
  simp [mem_microOps h, seqTable_eq]

/-- IDLE stands alone: the list of a position where no row fires is IDLE and nothing else. -/
theorem eq_idle_of_mem {p : BitVec 2} {d : BitVec 9} (hm : .idle p d ∈ ops) : ops = [.idle p d] := by
  obtain ⟨hnone, rfl, rfl⟩ := (idle_mem_iff h p d).mp hm
  obtain ⟨-, hdecode⟩ := microOps_iff.mp h
  have hempty : seqTable.filter (fun r => r.fires s.seqWord s.onFirstLine (renderingEnabled s.mask)) = [] :=
    List.filter_eq_nil_iff.mpr hnone
  rw [decodeSeq, hempty] at hdecode
  split at hdecode
  · cases hdecode
    rw [State.seqWord, seqCode_append, seqDotBits_append]
  · cases hdecode

end

/-! ### The statement -/

/-- Settles O4: each micro-operation by the row that makes it, IDLE by all the rows that do not fire. -/
theorem sequencerMap : Obligations.SequencerMap := by
  intro s hi
  have hd := dot_le_of_inv hi
  obtain ⟨⟨hcfg, -⟩, ⟨hpos, -⟩, -⟩ := hi
  obtain ⟨-, -, -, hline, -⟩ := cfg_wf_iff.mp hcfg
  obtain ⟨ops, hops⟩ := microOps_ok hpos hline
  have hvbl := rowVblSet_firesAt hd
  have hclr := rowFlagsClr_firesAt hd
  have hpixel := rowPixel_firesAt hd
  have hnt := rowFetch_firesAt hd (f := .fetchNt) mask_fetchNt
  have hat := rowFetch_firesAt hd (f := .fetchAt) mask_fetchAt
  have hlo := rowFetch_firesAt hd (f := .fetchLo) mask_fetchLo
  have hhi := rowFetch_firesAt hd (f := .fetchHi) mask_fetchHi
  have hload := rowFetch_firesAt hd (f := .loadIncx) mask_loadIncx
  have hincY := rowShared_firesAt hd (f := .incY) mask_dot256
  have heval := rowShared_firesAt hd (f := .sprEval) mask_dot256
  have hcopyH := rowShared_firesAt hd (f := .copyH) mask_dot257
  have hcopyV := rowCopyV_firesAt hd
  have hdone := rowFrameDone_firesAt hd
  refine ⟨ops, hops, (vblSet_mem_iff hops).trans hvbl, (flagsClr_mem_iff hops).trans hclr, fun d => ?_,
    (fetchNt_mem_iff hops).trans hnt, (fetchAt_mem_iff hops).trans hat, (fetchLo_mem_iff hops).trans hlo,
    (fetchHi_mem_iff hops).trans hhi, (loadIncx_mem_iff hops).trans hload, (incY_mem_iff hops).trans hincY,
    (sprEval_mem_iff hops).trans heval, (copyH_mem_iff hops).trans hcopyH, (copyV_mem_iff hops).trans hcopyV,
    (frameDone_mem_iff hops).trans hdone, ?_, fun p d hm => ⟨eq_idle_of_mem hops hm, ?_⟩⟩
  · rw [pixel_mem_iff hops, hpixel, dotBits_eq_iff hd]
    simp only [and_assoc]
  · simp only [idle_mem_iff hops, exists_and_left, exists_eq, and_true, seqTable_eq, List.forall_mem_cons, hvbl, hclr,
      hpixel, hnt, hat, hlo, hhi, hload, hincY, heval, hcopyH, hcopyV, hdone, State.OnRenderLine,
      List.not_mem_nil, false_imp_iff, implies_true, and_true, and_or_left, not_or, and_assoc, and_self_left]
  · obtain ⟨-, -, rfl⟩ := (idle_mem_iff hops p d).mp hm
    exact dotBits_toNat hd

end Sys2Proof.Machine
end

section
/-!
A DOT and a run of DOTs (41_dot_driver.md R181, R182, R184): what they leave unchanged, where the position goes, and the
operation DOT as its micro-operations performed in turn.
-/
namespace Sys2Proof.Machine

/-! ### The frame of stepping the sequencer -/

/-- `t` with everything that a DOT may write put back to what it is in `s`. -/
def putBackDot (s t : State) : State :=
  { t with
    v := s.v, vblank := s.vblank, sprite0Hit := s.sprite0Hit, spriteOverflow := s.spriteOverflow
    nmiPending := s.nmiPending, sec := s.sec, slot0IsSprite0 := s.slot0IsSprite0, bgbuf := s.bgbuf
    ntLatch := s.ntLatch, atLatch := s.atLatch, ptLo := s.ptLo, ptHi := s.ptHi, fb := s.fb, frames := s.frames
    scanline := s.scanline, dot := s.dot, reply := s.reply, halted := s.halted, faultCode := s.faultCode }

theorem putBackDot_trans {s u t : State} (h1 : putBackDot s u = s) (h2 : putBackDot u t = u) : putBackDot s t = s := by
  rw [← h1, ← h2]
  rfl

theorem dotBody_putBackDot {s t : State} (h : dotBody s = .ok t) : putBackDot s t = s := by
  obtain ⟨ops, u, -, hu, rfl⟩ := dotBody_ok h
  have hperform : putBackDot s u = s := (congrArg (putBackDot s) (performAll_frame hu) :)
  have hadvance : putBackDot u u.advance = u := (congrArg (putBackDot u) (advance_frame u) :)
  exact putBackDot_trans hperform hadvance

theorem execDot_putBackDot {s t : State} (h : execDot s = .next t) : putBackDot s t = s := by
  rcases operate_cases h with ⟨-, rfl⟩ | ⟨-, hok⟩ | ⟨-, _, -, rfl⟩
  · rfl
  · exact putBackDot_trans (u := s.noReply) rfl (dotBody_putBackDot hok)
  · rfl

theorem dots_putBackDot {n : Nat} {s t : State} (h : dots n s = .next t) : putBackDot s t = s :=
  dots_keep (P := fun u => putBackDot s u = s) (fun _ _ hs hd => putBackDot_trans hs (execDot_putBackDot hd)) rfl h

/-! ### The position -/

/-- The number of a position: the dots from the start of the frame. -/
def State.position (s : State) : Nat := s.scanline * 341 + s.dot

/-- What the invariant says of the counters and the numbers of the frame. -/
theorem counters_of_inv {s : State} (h : s.Inv) : s.dot ≤ 340 ∧ s.scanline < s.cfg.totalScanlines ∧
    s.cfg.dotsPerLine = 341 ∧ s.cfg.vblankLines + 1 + s.cfg.visibleLines < s.cfg.totalScanlines := by
  have hdot := dot_le_of_inv h
  obtain ⟨⟨hcfg, -⟩, ⟨hpos, -⟩, -⟩ := h
  obtain ⟨hlines, -, -, hline, -⟩ := cfg_wf_iff.mp hcfg
  exact ⟨hdot, (positionExists_iff.mp hpos).1, hline, hlines⟩

theorem position_div {s : State} (h : s.dot ≤ 340) : s.position / 341 = s.scanline := by
  unfold State.position
  omega

theorem position_mod {s : State} (h : s.dot ≤ 340) : s.position % 341 = s.dot := by
  unfold State.position
  omega

/-- A position lies in the frame. -/
theorem position_lt {s : State} (h : s.Inv) : s.position < s.cfg.totalScanlines * 341 := by
  obtain ⟨hdot, hline, -, -⟩ := counters_of_inv h
  unfold State.position
  omega

/-- The advance in the counters' own terms (41_dot_driver.md R182). -/
theorem advance_eq {s : State} (h : s.Inv) : s.advance = { s with
    dot := if s.dot = 340 then 0 else s.dot + 1
    scanline := if s.dot = 340 then (if s.scanline + 1 = s.cfg.totalScanlines then 0 else s.scanline + 1)
      else s.scanline } := by
  obtain ⟨hdot, hline, hlen, -⟩ := counters_of_inv h
  by_cases hlast : s.dot = 340
  · by_cases hend : s.scanline + 1 = s.cfg.totalScanlines
    · simp [State.advance, hlast, hlen, hend]
    · have hmore : s.scanline + 1 < s.cfg.totalScanlines := by omega
      simp [State.advance, hlast, hlen, hend, hmore]
  · have hmore : s.dot + 1 < 341 := by omega
    simp [State.advance, hlast, hlen, hmore]

/-- The position after the one of scanline `l` and dot `d` in a frame of `n` scanlines. -/
theorem next_position {l d n : Nat} (hd : d ≤ 340) (hl : l < n) :
    (if d = 340 then (if l + 1 = n then 0 else l + 1) else l) * 341 + (if d = 340 then 0 else d + 1) =
      (l * 341 + d + 1) % (n * 341) := by
  by_cases hlast : d = 340
  · by_cases hend : l + 1 = n
    · rw [if_pos hlast, if_pos hlast, if_pos hend, show l * 341 + d + 1 = n * 341 by omega, Nat.mod_self]
    · rw [if_pos hlast, if_pos hlast, if_neg hend, Nat.mod_eq_of_lt (by omega)]
      omega
  · rw [if_neg hlast, if_neg hlast, Nat.mod_eq_of_lt (by omega), Nat.add_assoc]

/-- The advance goes to the next position of the frame, or back to its first. -/
theorem advance_position {s : State} (h : s.Inv) :
    s.advance.position = (s.position + 1) % (s.cfg.totalScanlines * 341) := by
  obtain ⟨hdot, hline, -, -⟩ := counters_of_inv h
  rw [advance_eq h]
  exact next_position hdot hline

/-! ### One DOT -/

/-- A DOT from a state that meets the invariant: the list of its position, performed, then the advance; no fatal. -/
theorem execDot_ok {s : State} (hi : s.Inv) (h : s.halted = false) : ∃ ops u, s.microOps = .ok ops ∧
    performAll ops s.noReply = .ok u ∧ execDot s = .next u.advance := by
  obtain ⟨-, -, hlen, -⟩ := counters_of_inv hi
  have hm := mirroring_of_inv hi
  obtain ⟨-, ⟨hpos, -⟩, -⟩ := hi
  obtain ⟨ops, u, hops, hu, hbody⟩ := dotBody_total (s := s.noReply) hm hpos hlen
  exact ⟨ops, u, hops, hu, operate_ok h hbody⟩

theorem performAll_inv {ops : List Instr} {s u : State} (hi : s.Inv) (hu : performAll ops s.noReply = .ok u) : u.Inv :=
  keepsInv_performAll ops s.noReply u hi hu

/-- What the micro-operations of a DOT leave of the counters, the reply and the halt. -/
theorem performAll_keeps {ops : List Instr} {s u : State} (hu : performAll ops s = .ok u) :
    u.scanline = s.scanline ∧ u.dot = s.dot ∧ u.cfg = s.cfg ∧ u.reply = s.reply ∧ u.halted = s.halted := by
  have hf := performAll_frame hu
  refine ⟨?_, ?_, ?_, ?_, ?_⟩ <;> rw [← hf]

/-- A DOT completes, is no fatal, and goes to the next position. -/
theorem execDot_advances {s : State} (hi : s.Inv) (h : s.halted = false) : ∃ t, execDot s = .next t ∧ t.Inv ∧
    t.halted = false ∧ t.dot = s.advance.dot ∧ t.scanline = s.advance.scanline := by
  obtain ⟨ops, u, -, hu, hexec⟩ := execDot_ok hi h
  obtain ⟨hline, hdot, hcfg, -, hhalt⟩ := performAll_keeps hu
  have hui := performAll_inv hi hu
  refine ⟨u.advance, hexec, inv_advance hui, (advance_halted u).trans (hhalt.trans h), ?_, ?_⟩ <;>
    rw [advance_eq hui, advance_eq hi, hline, hdot, hcfg] <;> rfl

/-! ### A run of DOTs -/

/-- A run of DOTs completes, is no fatal, keeps the invariant and goes on by so many positions. -/
theorem dots_advance {n : Nat} {s : State} (hi : s.Inv) (h : s.halted = false) : ∃ t, dots n s = .next t ∧ t.Inv ∧
    t.halted = false ∧ t.position = (s.position + n) % (s.cfg.totalScanlines * 341) := by
  induction n generalizing s with
  | zero => exact ⟨s, rfl, hi, h, by rw [Nat.add_zero, Nat.mod_eq_of_lt (position_lt hi)]⟩
  | succ n ih =>
    obtain ⟨u, hu, hui, hrun, hdot, hline⟩ := execDot_advances hi h
    obtain ⟨t, ht, hti, hhalt, hpos⟩ := ih hui hrun
    have hcfg : u.cfg = s.cfg := (congrArg State.cfg (execDot_putBackDot hu) :)
    have hstep : u.position = (s.position + 1) % (s.cfg.totalScanlines * 341) := by
      rw [← advance_position hi, State.position, State.position, hdot, hline]
    refine ⟨t, by rw [dots, hu]; exact ht, hti, hhalt, ?_⟩
    rw [hpos, hcfg, hstep, Nat.mod_add_mod, Nat.add_assoc, Nat.add_comm 1 n]

/-- The first DOT of a run at which a property is lost: the run passes its position. -/
theorem dots_lose {P : State → Prop} {n : Nat} {s t : State} (hi : s.Inv) (h : s.halted = false)
    (ht : dots n s = .next t) (hs : P s) (hlost : ¬ P t) : ∃ k u u', k < n ∧ u.Inv ∧ u.halted = false ∧
      putBackDot s u = s ∧ u.position = (s.position + k) % (s.cfg.totalScanlines * 341) ∧ execDot u = .next u' ∧
      P u ∧ ¬ P u' := by
  induction n generalizing s with
  | zero => cases ht; exact absurd hs hlost
  | succ n ih =>
    obtain ⟨u, hu, hui, hrun, hdot, hline⟩ := execDot_advances hi h
    rw [dots, hu] at ht
    by_cases hpu : P u
    · obtain ⟨k, w, w', hk, hwi, hwrun, hframe, hpos, hw⟩ := ih hui hrun ht hpu
      have hcfg : u.cfg = s.cfg := (congrArg State.cfg (execDot_putBackDot hu) :)
      have hstep : u.position = (s.position + 1) % (s.cfg.totalScanlines * 341) := by
        rw [← advance_position hi, State.position, State.position, hdot, hline]
      refine ⟨k + 1, w, w', Nat.succ_lt_succ hk, hwi, hwrun, putBackDot_trans (execDot_putBackDot hu) hframe, ?_, hw⟩
      rw [hpos, hcfg, hstep, Nat.mod_add_mod, Nat.add_assoc, Nat.add_comm 1 k]
    · exact ⟨0, s, u, Nat.succ_pos n, hi, h, rfl, by rw [Nat.add_zero, Nat.mod_eq_of_lt (position_lt hi)], hu, hs,
        hpu⟩

/-! ### DOT as its micro-operations in turn -/

theorem body_of_perform_ok {i : Instr} {s t : State} (h : perform i s = .ok t) : body i = perform i := by
  cases i
  case vblSet | flagsClr | pixel | fetchNt | fetchAt | fetchLo | fetchHi | loadIncx | incY | sprEval | copyH | copyV |
      frameDone | idle => rfl
  all_goals cases h

/-- Performed by themselves while not halted, the micro-operations of a list do what they do inside a DOT. -/
theorem foldlM_exec_of_performAll {ops : List Instr} {s u : State} (h : s.halted = false) (hr : s.reply = .none)
    (hu : performAll ops s = .ok u) :
    ops.foldlM (fun r i => match exec i r with | .next r' => some r' | _ => none) s = some u := by
  induction ops generalizing s with
  | nil => cases hu; rfl
  | cons i is ih =>
    obtain ⟨r, hi, hrest⟩ := bind_eq_ok hu
    have hf := perform_frame hi
    have hquiet : s.noReply = s := by rw [State.noReply, ← hr]
    have hexec : exec i s = .next r := exec_ok h (by rw [body_of_perform_ok hi, hquiet, hi])
    rw [List.foldlM_cons, hexec]
    exact ih ((congrArg State.halted hf :).trans h) ((congrArg State.reply hf :).trans hr) hrest

/-! ### The statements -/

/-- Settles O35: performed alone, each micro-operation does what it does inside the DOT. -/
theorem dotPerformsItsMicroOperationsInOrder : Obligations.DotPerformsItsMicroOperationsInOrder := by
  intro s ops hi h hops
  obtain ⟨ops', u, hops', hu, hexec⟩ := execDot_ok hi h
  cases hops.symm.trans hops'
  exact ⟨u, foldlM_exec_of_performAll (s := s.noReply) h rfl hu, hexec⟩

/-- Settles O36: the micro-operations complete and leave the counters, which the advance moves. -/
theorem dotAdvancesThePosition : Obligations.DotAdvancesThePosition := by
  intro s hi h
  obtain ⟨t, ht, -, hhalt, hdot, hline⟩ := execDot_advances hi h
  rw [advance_eq hi] at hdot hline
  exact ⟨t, ht, hhalt, hdot, hline⟩

theorem cycleDots_eq (c : Cfg) (m : Nat) :
    cycleDots c m = c.dotsPerCycle + (if 0 < c.extraDotPeriod ∧ m = 0 then 1 else 0) := by
  unfold cycleDots
  split <;> rfl

/-- Settles O37: the run of its DOTs, begun with the new count. -/
theorem cycleRunsItsDots : Obligations.CycleRunsItsDots := by
  intro s hi h cycMod' n
  obtain ⟨t, ht, -, hhalt, hpos⟩ := dots_advance (n := cycleDots s.cfg (cycModAfter s.cfg s.cycMod))
    (inv_cycleStart hi) h
  have hbody : cycleBody s.noReply = .ok t := dotsBody_ok_iff.mpr ht
  have hcyc : t.cycMod = cycMod' := (congrArg State.cycMod (dots_putBackDot ht) :)
  rw [cycleDots_eq] at ht hpos
  exact ⟨t, dots_next_iff.mp ht, exec_ok h hbody, hhalt, hcyc, hpos⟩

end Sys2Proof.Machine
end

section
/-!
The frame of every operation (10_state.md, the "Written by" of each piece of state): what it may write, and that it writes
nothing else.
-/
namespace Sys2Proof.Machine

/-- `t` with everything that the operation `i` may write put back to what it is in `s`; RESET may write everything. -/
def putBack (i : Instr) (s t : State) : State :=
  let u : State := { t with reply := s.reply, halted := s.halted, faultCode := s.faultCode }
  match i with
  | .wrControl _ => { u with ctrl := s.ctrl, t := s.t, nmiPending := s.nmiPending }
  | .wrMask _ => { u with mask := s.mask }
  | .rdStatus => { u with vblank := s.vblank, w := s.w }
  | .wrOamaddr _ => { u with oamaddr := s.oamaddr }
  | .wrOamdata _ => { u with oam := s.oam, oamaddr := s.oamaddr }
  | .wrScroll1 _ => { u with x := s.x, t := s.t, w := s.w }
  | .wrScroll2 _ | .wrAddr1 _ => { u with t := s.t, w := s.w }
  | .wrAddr2 _ => { u with t := s.t, v := s.v, w := s.w }
  | .rdData => { u with rbuf := s.rbuf, v := s.v }
  | .wrData _ => { u with nt := s.nt, pal := s.pal, chr := s.chr, v := s.v }
  | .reset _ => s
  | .dot => putBackDot s u
  | .cycle => { putBackDot s u with cycMod := s.cycMod }
  | .oamdma _ => { u with oam := s.oam }
  | .nmipoll => { u with nmiPending := s.nmiPending }
  | .vblSet => { u with vblank := s.vblank, nmiPending := s.nmiPending }
  | .flagsClr => { u with vblank := s.vblank, sprite0Hit := s.sprite0Hit, spriteOverflow := s.spriteOverflow }
  | .pixel _ => { u with sprite0Hit := s.sprite0Hit, fb := s.fb }
  | .fetchNt _ _ => { u with ntLatch := s.ntLatch }
  | .fetchAt _ _ => { u with atLatch := s.atLatch }
  | .fetchLo _ _ => { u with ptLo := s.ptLo }
  | .fetchHi _ _ => { u with ptHi := s.ptHi }
  | .loadIncx _ _ => { u with bgbuf := s.bgbuf, v := s.v }
  | .incY _ | .copyH _ | .copyV _ => { u with v := s.v }
  | .sprEval _ =>
    { u with sec := s.sec, slot0IsSprite0 := s.slot0IsSprite0, spriteOverflow := s.spriteOverflow }
  | .frameDone => { u with frames := s.frames }
  | .rdOamdata | .rdControl | .rdMask | .wrStatus _ | .rdOamaddr | .rdScroll | .rdAddr | .idle _ _ => u

theorem wrDataBody_frame {d : Byte} {s t : State} (h : wrDataBody d s = .ok t) :
    { t with nt := s.nt, pal := s.pal, chr := s.chr, v := s.v } = s := by
  obtain ⟨u, hu, h⟩ := bind_eq_ok h
  cases h
  unfold State.vramWrite at hu
  split at hu
  next g _ =>
    cases hu
    exact (congrArg (fun u : State => { u with v := s.v }) (writeTarget_frame s d g) :)
  next => cases hu

theorem rdDataBody_frame {s t : State} (h : rdDataBody s = .ok t) :
    { t with rbuf := s.rbuf, v := s.v, reply := s.reply } = s := by
  simp only [rdDataBody] at h
  split at h
  next =>
    obtain ⟨_, -, h⟩ := bind_eq_ok h
    cases h
    rfl
  next =>
    obtain ⟨_, -, h⟩ := bind_eq_ok h
    obtain ⟨_, -, h⟩ := bind_eq_ok h
    cases h
    rfl

theorem cycleBody_frame {s t : State} (h : cycleBody s = .ok t) :
    { putBackDot s t with cycMod := s.cycMod } = s := by
  have hd := dots_putBackDot (dotsBody_ok_iff.mp h)
  exact (congrArg (fun u : State => { u with cycMod := s.cycMod, reply := s.reply }) hd :)

/-- A body that goes on writes what its operation may write and nothing else. -/
theorem body_putBack {i : Instr} {s t : State} (h : body i s = .ok t) : putBack i s t = s := by
  cases i
  case wrControl d =>
    simp only [body, wrControlBody] at h
    split at h
    · cases h
    · cases h; rfl
  case wrMask | rdStatus | wrOamaddr | rdOamdata | wrOamdata | wrScroll1 | wrScroll2 | wrAddr1 | wrAddr2 | nmipoll =>
    cases h; rfl
  case rdData => exact (congrArg (putBack .rdData s) (rdDataBody_frame h) :)
  case wrData d => exact (congrArg (putBack (.wrData d) s) (wrDataBody_frame h) :)
  case rdControl | rdMask | wrStatus | rdOamaddr | rdScroll | rdAddr => cases h
  case reset l => rfl
  case dot => exact (congrArg (putBack .dot s) (dotBody_putBackDot h) :)
  case cycle => exact (congrArg (putBack .cycle s) (cycleBody_frame h) :)
  case oamdma bytes =>
    simp only [body, oamdmaBody] at h
    split at h
    · cases h; rfl
    · cases h
  case vblSet | flagsClr | loadIncx | incY | copyH | copyV | frameDone | idle => cases h; rfl
  case pixel d =>
    obtain ⟨_, _, _, -, -, -, -, rfl⟩ := pixelBody_eq_ok h
    rfl
  case fetchNt | fetchAt | fetchLo | fetchHi | sprEval =>
    obtain ⟨_, -, h⟩ := bind_eq_ok h
    cases h
    rfl

/-- An operation writes what it may write and nothing else. -/
theorem exec_putBack {i : Instr} {s t : State} (h : exec i s = .next t) : putBack i s t = s := by
  rcases exec_cases h with ⟨-, rfl⟩ | ⟨-, hok⟩ | ⟨-, k, -, rfl⟩
  · cases i <;> rfl
  · have hquiet : putBack i s t = putBack i s (putBack i s.noReply t) := by cases i <;> rfl
    rw [hquiet, body_putBack hok]
    cases i <;> rfl
  · cases i <;> rfl

theorem perform_putBack {i : Instr} {s t : State} (h : perform i s = .ok t) : putBack i s t = s :=
  body_putBack (by rw [body_of_perform_ok h, h])

/-- What every micro-operation of a list keeps, the list keeps. -/
theorem performAll_keeps_field {α : Type} (f : State → α) {ops : List Instr} {s t : State}
    (hf : ∀ i ∈ ops, ∀ s t : State, perform i s = .ok t → f t = f s) (h : performAll ops s = .ok t) : f t = f s := by
  induction ops generalizing s with
  | nil => cases h; rfl
  | cons i is ih =>
    obtain ⟨u, hu, h⟩ := bind_eq_ok h
    rw [ih (fun j hj => hf j (List.mem_cons_of_mem i hj)) h, hf i List.mem_cons_self s u hu]

end Sys2Proof.Machine
end

section
/-!
Which micro-operation sets and which clears a flag (10_state.md R29, R30), alone and in the list of a position.
-/
namespace Sys2Proof.Machine

/-! ### The sprite-0 hit (44_pixel_compositor.md R266) -/

/-- The hit after a pixel: as before, or an opaque background under an opaque pixel of slot 0, primary sprite 0's. -/
theorem muxHit_iff {hit slot0 : Bool} {bg : BitVec 4} {sp : Option SpritePixel} : muxHit hit slot0 bg sp = true ↔
    hit = true ∨ (slot0 = true ∧ bg.extractLsb' 0 2 ≠ 0#2 ∧ ∃ q, sp = some q ∧ q.slot = 0) := by
  cases sp with
  | none => simp [muxHit]
  | some q =>
    by_cases hbg : bg.extractLsb' 0 2 = 0#2
    · simp [muxHit, hbg]
    · simp [muxHit, hbg, hitAfter, and_comm]

theorem bgNibble_of_disabled {s : State} (col : Nat) (h : s.mask.getLsbD 3 = false) : bgNibble s col = 0#4 :=
  if_pos (.inl h)

theorem spritePixel_of_disabled {s : State} (col row : Nat) (h : s.mask.getLsbD 4 = false) :
    spritePixel s col row = .ok none := if_pos (.inl h)

/-! ### One micro-operation -/

section
variable {i : Instr} {s t : State} (h : perform i s = .ok t)
include h

theorem perform_sets_vblank (hs : s.vblank = false) (ht : t.vblank = true) : i = .vblSet := by
  have hf : (putBack i s t).vblank = s.vblank := by rw [perform_putBack h]
  have hne : t.vblank ≠ s.vblank := by simp [hs, ht]
  cases i
  case vblSet => rfl
  case flagsClr => cases h; cases ht
  case rdStatus | reset | dot | cycle => cases h
  all_goals exact absurd hf hne

theorem perform_clears_vblank (hs : s.vblank = true) (ht : t.vblank = false) : i = .flagsClr := by
  have hf : (putBack i s t).vblank = s.vblank := by rw [perform_putBack h]
  have hne : t.vblank ≠ s.vblank := by simp [hs, ht]
  cases i
  case vblSet => cases h; cases ht
  case flagsClr => rfl
  case rdStatus | reset | dot | cycle => cases h
  all_goals exact absurd hf hne

theorem perform_sets_nmiPending (hs : s.nmiPending = false) (ht : t.nmiPending = true) :
    i = .vblSet ∧ s.ctrl.getLsbD 7 = true := by
  have hf : (putBack i s t).nmiPending = s.nmiPending := by rw [perform_putBack h]
  have hne : t.nmiPending ≠ s.nmiPending := by simp [hs, ht]
  cases i
  case vblSet =>
    cases h
    have hset : nmiAfterVblank s.nmiPending s.ctrl = true := ht
    rw [hs] at hset
    exact ⟨rfl, hset⟩
  case wrControl | nmipoll | reset | dot | cycle => cases h
  all_goals exact absurd hf hne

theorem perform_keeps_nmiPending (hs : s.nmiPending = true) : t.nmiPending = true := by
  have hf : (putBack i s t).nmiPending = s.nmiPending := by rw [perform_putBack h]
  cases i
  case vblSet =>
    cases h
    show nmiAfterVblank s.nmiPending s.ctrl = true
    rw [hs]
    rfl
  case wrControl | nmipoll | reset | dot | cycle => cases h
  all_goals exact hf.trans hs

/-- The hit needs an opaque background pixel and a sprite pixel, and so both layers. -/
theorem perform_sets_sprite0Hit (hs : s.sprite0Hit = false) (ht : t.sprite0Hit = true) :
    (∃ d, i = .pixel d) ∧ s.mask.getLsbD 3 = true ∧ s.mask.getLsbD 4 = true := by
  have hf : (putBack i s t).sprite0Hit = s.sprite0Hit := by rw [perform_putBack h]
  have hne : t.sprite0Hit ≠ s.sprite0Hit := by simp [hs, ht]
  cases i
  case pixel d =>
    obtain ⟨row, sp, b, -, -, hsp, -, rfl⟩ := pixelBody_eq_ok h
    have hhit := (muxHit_iff.mp ht).resolve_left (by rw [hs]; exact Bool.false_ne_true)
    obtain ⟨-, hbg, q, rfl, -⟩ := hhit
    refine ⟨⟨d, rfl⟩, ?_, ?_⟩
    · refine Bool.eq_true_of_not_eq_false fun hoff => hbg ?_
      rw [bgNibble_of_disabled _ hoff]
      rfl
    · refine Bool.eq_true_of_not_eq_false fun hoff => ?_
      cases (spritePixel_of_disabled _ _ hoff).symm.trans hsp
  case flagsClr => cases h; cases ht
  case reset | dot | cycle => cases h
  all_goals exact absurd hf hne

theorem perform_clears_sprite0Hit (hs : s.sprite0Hit = true) (ht : t.sprite0Hit = false) : i = .flagsClr := by
  have hf : (putBack i s t).sprite0Hit = s.sprite0Hit := by rw [perform_putBack h]
  have hne : t.sprite0Hit ≠ s.sprite0Hit := by simp [hs, ht]
  cases i
  case pixel d =>
    obtain ⟨_, _, _, -, -, -, -, rfl⟩ := pixelBody_eq_ok h
    cases (muxHit_iff.mpr (.inl hs)).symm.trans ht
  case flagsClr => rfl
  case reset | dot | cycle => cases h
  all_goals exact absurd hf hne

theorem perform_sets_spriteOverflow (hs : s.spriteOverflow = false) (ht : t.spriteOverflow = true) :
    ∃ p, i = .sprEval p := by
  have hf : (putBack i s t).spriteOverflow = s.spriteOverflow := by rw [perform_putBack h]
  have hne : t.spriteOverflow ≠ s.spriteOverflow := by simp [hs, ht]
  cases i
  case sprEval p => exact ⟨p, rfl⟩
  case flagsClr => cases h; cases ht
  case reset | dot | cycle => cases h
  all_goals exact absurd hf hne

theorem perform_clears_spriteOverflow (hs : s.spriteOverflow = true) (ht : t.spriteOverflow = false) :
    i = .flagsClr := by
  have hf : (putBack i s t).spriteOverflow = s.spriteOverflow := by rw [perform_putBack h]
  have hne : t.spriteOverflow ≠ s.spriteOverflow := by simp [hs, ht]
  cases i
  case sprEval p =>
    obtain ⟨row, -, h⟩ := bind_eq_ok h
    cases h
    have hclear : (s.spriteOverflow || evalOverflow s.oam row) = false := ht
    rw [hs, Bool.true_or] at hclear
    cases hclear
  case flagsClr => rfl
  case reset | dot | cycle => cases h
  all_goals exact absurd hf hne

end

/-! ### A list of them -/

/-- The first micro-operation of a list at which a property is lost. -/
theorem performAll_lose {P : State → Prop} {ops : List Instr} {s t : State} (h : performAll ops s = .ok t) (hs : P s)
    (hlost : ¬ P t) : ∃ i ∈ ops, ∃ u u', putBackDot s u = s ∧ perform i u = .ok u' ∧ P u ∧ ¬ P u' := by
  induction ops generalizing s with
  | nil => cases h; exact absurd hs hlost
  | cons i is ih =>
    obtain ⟨u, hu, h⟩ := bind_eq_ok h
    by_cases hpu : P u
    · obtain ⟨j, hj, w, w', hframe, hw⟩ := ih h hpu
      have hfirst : putBackDot s u = s := (congrArg (putBackDot s) (perform_frame hu) :)
      exact ⟨j, List.mem_cons_of_mem i hj, w, w', putBackDot_trans hfirst hframe, hw⟩
    · exact ⟨i, List.mem_cons_self, s, u, rfl, hu, hs, hpu⟩

theorem performAll_nmiPending {ops : List Instr} {s t : State} (h : performAll ops s = .ok t) (hvbl : .vblSet ∉ ops) :
    t.nmiPending = s.nmiPending := by
  refine performAll_keeps_field State.nmiPending (fun i hm u u' hu => ?_) h
  cases hs : u.nmiPending
  · refine Bool.eq_false_of_not_eq_true fun ht => hvbl ?_
    rw [← (perform_sets_nmiPending hu hs ht).1]
    exact hm
  · exact perform_keeps_nmiPending hu hs

/-! ### A DOT -/

/-- A DOT loses a property of the state that the advance keeps at one of its position's micro-operations. -/
theorem execDot_lose {P : State → Prop} {s t : State} (hi : s.Inv) (h : s.halted = false)
    (hadv : ∀ u : State, P u → P u.advance) (hquiet : P s.noReply) (ht : execDot s = .next t) (hlost : ¬ P t) :
    ∃ ops, s.microOps = .ok ops ∧ ∃ i ∈ ops, ∃ u u', putBackDot s u = s ∧ perform i u = .ok u' ∧ P u ∧ ¬ P u' := by
  obtain ⟨ops, w, hops, hw, hexec⟩ := execDot_ok hi h
  cases hexec.symm.trans ht
  obtain ⟨i, him, u, u', hframe, hu⟩ := performAll_lose hw hquiet (mt (hadv w) hlost)
  exact ⟨ops, hops, i, him, u, u', putBackDot_trans (u := s.noReply) rfl hframe, hu⟩

end Sys2Proof.Machine
end

section
/-!
What the driver does scanline by scanline (41_dot_driver.md sections 3 and 4): the lists of the vblank, pre-render,
post-render and visible positions, and the DOTs there.
-/
namespace Sys2Proof.Machine

/-! ### The list of a position, computed -/

/-- The rows that fire at the position of `s`, in the order of the map. -/
def rowsAt (s : State) : List SeqRow :=
  seqTable.filter (fun r => r.fires s.seqWord s.onFirstLine (renderingEnabled s.mask))

theorem microOps_of_rows {s : State} {r : SeqRow} {rs : List SeqRow} (hi : s.Inv) (h : rowsAt s = r :: rs) :
    s.microOps = .ok (r.make s.seqWord :: rs.map (fun r => r.make s.seqWord)) := by
  have hdot := dot_le_of_inv hi
  obtain ⟨-, ⟨hpos, -⟩, -⟩ := hi
  refine microOps_iff.mpr ⟨hpos, ?_⟩
  have hexists : dotExists (seqDot s.seqWord) = true := by rw [seqDot_seqWord hdot, dotExists, decide_eq_true hdot]
  unfold rowsAt at h
  rw [decodeSeq, if_pos hexists, h]
  rfl

theorem microOps_of_no_rows {s : State} (hi : s.Inv) (h : rowsAt s = []) :
    s.microOps = .ok [.idle (phaseOf s.cfg s.scanline).code (BitVec.ofNat 9 s.dot)] := by
  have hdot := dot_le_of_inv hi
  obtain ⟨-, ⟨hpos, -⟩, -⟩ := hi
  refine microOps_iff.mpr ⟨hpos, ?_⟩
  have hexists : dotExists (seqDot s.seqWord) = true := by rw [seqDot_seqWord hdot, dotExists, decide_eq_true hdot]
  unfold rowsAt at h
  rw [decodeSeq, if_pos hexists, h, State.seqWord, seqCode_append, seqDotBits_append]
  rfl

/-- A row where it fires. -/
def rowAt (r : SeqRow) (s : State) : List SeqRow := if SeqRow.FiresAt r s then [r] else []

theorem rowAt_of_fires {r : SeqRow} {s : State} (h : SeqRow.FiresAt r s) : rowAt r s = [r] := if_pos h

theorem rowAt_of_not_fires {r : SeqRow} {s : State} (h : ¬ SeqRow.FiresAt r s) : rowAt r s = [] := if_neg h

theorem rowsAt_eq (s : State) : rowsAt s = rowAt rowVblSet s ++ rowAt rowFlagsClr s ++ rowAt rowPixel s ++
    (rowAt (rowFetch 0x401#11 .fetchNt) s ++ rowAt (rowFetch 0x403#11 .fetchAt) s ++
      rowAt (rowFetch 0x405#11 .fetchLo) s ++ rowAt (rowFetch 0x407#11 .fetchHi) s ++
      rowAt (rowFetch 0x400#11 .loadIncx) s) ++
    (rowAt (rowShared 0x500#11 256 .incY) s ++ rowAt (rowShared 0x500#11 256 .sprEval) s ++
      rowAt (rowShared 0x501#11 257 .copyH) s) ++ rowAt rowCopyV s ++ rowAt rowFrameDone s := by
  have hcons (r : SeqRow) (rs : List SeqRow) : (r :: rs).filter
      (fun r => r.fires s.seqWord s.onFirstLine (renderingEnabled s.mask)) =
      rowAt r s ++ rs.filter (fun r => r.fires s.seqWord s.onFirstLine (renderingEnabled s.mask)) := by
    rw [List.filter_cons]
    unfold rowAt
    split <;> rfl
  rw [rowsAt, seqTable_eq]
  simp only [hcons, List.filter_nil, List.append_assoc, List.append_nil]

section
variable {s : State} (hi : s.Inv)
include hi

theorem rowsAt_of_no_rendering (h : ¬ s.OnRenderLine) : rowsAt s = rowAt rowVblSet s ++ rowAt rowFrameDone s := by
  have hd := dot_le_of_inv hi
  have hline : s.scanline ≠ s.cfg.vblankLines := fun he => h ⟨Nat.le_of_eq he.symm, by omega⟩
  have hvisible : ¬ (s.cfg.vblankLines < s.scanline ∧ s.scanline ≤ s.cfg.vblankLines + s.cfg.visibleLines) :=
    fun hv => h ⟨Nat.le_of_lt hv.1, hv.2⟩
  simp [rowsAt_eq, rowAt, rowFlagsClr_firesAt hd, rowPixel_firesAt hd, rowFetch_firesAt hd mask_fetchNt,
    rowFetch_firesAt hd mask_fetchAt, rowFetch_firesAt hd mask_fetchLo, rowFetch_firesAt hd mask_fetchHi,
    rowFetch_firesAt hd mask_loadIncx, rowShared_firesAt hd mask_dot256, rowShared_firesAt hd mask_dot257,
    rowCopyV_firesAt hd, h, hline, hvisible]

theorem microOps_vblank (h : s.scanline < s.cfg.vblankLines) : s.microOps = .ok [if s.scanline = 0 ∧ s.dot = 1 then
    .vblSet else .idle (phaseOf s.cfg s.scanline).code (BitVec.ofNat 9 s.dot)] := by
  have hd := dot_le_of_inv hi
  have hrows := rowsAt_of_no_rendering hi fun hr => absurd hr.1 (by omega)
  rw [rowAt_of_not_fires (r := rowFrameDone) (by rw [rowFrameDone_firesAt hd]; omega), List.append_nil] at hrows
  by_cases hset : s.scanline = 0 ∧ s.dot = 1
  · rw [rowAt_of_fires ((rowVblSet_firesAt hd).mpr ⟨by omega, hset⟩)] at hrows
    rw [microOps_of_rows hi hrows, if_pos hset]
    rfl
  · rw [rowAt_of_not_fires (mt (fun hf => ((rowVblSet_firesAt hd).mp hf).2) hset)] at hrows
    rw [microOps_of_no_rows hi hrows, if_neg hset]

theorem microOps_postRender (h : s.cfg.vblankLines + s.cfg.visibleLines < s.scanline) :
    s.microOps = .ok [if s.scanline = s.cfg.vblankLines + s.cfg.visibleLines + 1 ∧ s.dot = 0 then .frameDone
      else .idle (phaseOf s.cfg s.scanline).code (BitVec.ofNat 9 s.dot)] := by
  have hd := dot_le_of_inv hi
  have hrows := rowsAt_of_no_rendering hi fun hr => absurd hr.2 (by omega)
  rw [rowAt_of_not_fires (r := rowVblSet) (by rw [rowVblSet_firesAt hd]; omega), List.nil_append] at hrows
  by_cases hdone : s.scanline = s.cfg.vblankLines + s.cfg.visibleLines + 1 ∧ s.dot = 0
  · rw [rowAt_of_fires ((rowFrameDone_firesAt hd).mpr hdone)] at hrows
    rw [microOps_of_rows hi hrows, if_pos hdone]
    rfl
  · rw [rowAt_of_not_fires (mt (rowFrameDone_firesAt hd).mp hdone)] at hrows
    rw [microOps_of_no_rows hi hrows, if_neg hdone]

theorem microOps_preRender_dot1 (hline : s.scanline = s.cfg.vblankLines) (hdot : s.dot = 1) :
    ∃ ops, s.microOps = .ok (.flagsClr :: ops) := by
  have hd := dot_le_of_inv hi
  have hvbl : ¬ SeqRow.FiresAt rowVblSet s := by rw [rowVblSet_firesAt hd]; omega
  have hclr : SeqRow.FiresAt rowFlagsClr s := (rowFlagsClr_firesAt hd).mpr ⟨hline, hdot⟩
  have hrows := rowsAt_eq s
  rw [rowAt_of_not_fires hvbl, rowAt_of_fires hclr] at hrows
  exact ⟨_, microOps_of_rows hi hrows⟩

end

/-! ### A DOT with one micro-operation -/

theorem execDot_of_single {s u : State} {i : Instr} (h : s.halted = false) (hops : s.microOps = .ok [i])
    (hu : perform i s.noReply = .ok u) : exec .dot s = .next u.advance := by
  have hdot : dotBody s.noReply = .ok u.advance := by
    show (s.microOps >>= _) = _
    rw [hops, except_bind_ok, performAll, hu]
    rfl
  exact exec_ok h hdot

theorem exec_flagsClr {s : State} (h : s.halted = false) : exec .flagsClr s = .next { s with
    vblank := false, sprite0Hit := false, spriteOverflow := false, reply := .none } := exec_ok h rfl

theorem exec_frameDone {s : State} (h : s.halted = false) :
    exec .frameDone s = .next { s with frames := s.fb :: s.frames, reply := .none } := exec_ok h rfl

theorem exec_idle {s : State} (p : BitVec 2) (d : BitVec 9) (h : s.halted = false) :
    exec (.idle p d) s = .next { s with reply := .none } := exec_ok h rfl

/-! ### The visible dot that ends a group -/

/-- At a visible dot that ends a group, with rendering enabled, PIXEL comes first and LOAD_INCX next; what follows, at dot
256, is INC_Y and SPR_EVAL. -/
theorem microOps_groupEnd {s : State} (hi : s.Inv) (h1 : s.cfg.vblankLines < s.scanline)
    (h2 : s.scanline ≤ s.cfg.vblankLines + s.cfg.visibleLines) (hr : renderingEnabled s.mask = true)
    (hd1 : 1 ≤ s.dot) (hd2 : s.dot ≤ 256) (hmod : s.dot % 8 = 0) : ∃ p d ops,
      s.microOps = .ok (.pixel (BitVec.ofNat 9 s.dot) :: .loadIncx p d :: ops) ∧
      ∀ i ∈ ops, ∃ p, i = .incY p ∨ i = .sprEval p := by
  have hd := dot_le_of_inv hi
  have hline : s.OnRenderLine := ⟨by omega, h2⟩
  have hrender := renderingEnabled_iff.mp hr
  have hrows : rowsAt s = rowPixel :: rowFetch 0x400#11 .loadIncx ::
      (rowAt (rowShared 0x500#11 256 .incY) s ++ rowAt (rowShared 0x500#11 256 .sprEval) s) := by
    have hne : s.scanline ≠ s.cfg.vblankLines := by omega
    have h257 : s.dot ≠ 257 := by omega
    have h0 : s.dot ≠ 0 := by omega
    have h01 : s.dot ≠ 1 := by omega
    simp [rowsAt_eq, rowAt, rowVblSet_firesAt hd, rowFlagsClr_firesAt hd, rowPixel_firesAt hd,
      rowFetch_firesAt hd mask_fetchNt, rowFetch_firesAt hd mask_fetchAt, rowFetch_firesAt hd mask_fetchLo,
      rowFetch_firesAt hd mask_fetchHi, rowFetch_firesAt hd mask_loadIncx, rowShared_firesAt hd mask_dot257,
      rowCopyV_firesAt hd, rowFrameDone_firesAt hd, hline, hrender, hne, h257, h0, h01, h1, h2, hd1, hd2, hmod,
      -BitVec.getLsbD_eq_getElem]
  have hops := microOps_of_rows hi hrows
  rw [rowPixel_make, List.map_cons, rowFetch_make, State.seqWord, seqDotBits_append] at hops
  refine ⟨_, _, _, hops, fun i hm => ?_⟩
  obtain ⟨r, hr, rfl⟩ := List.mem_map.mp hm
  have hrow (q : BitVec 11) (k : Nat) (f : BitVec 1 → Instr) (h : r ∈ rowAt (rowShared q k f) s) :
      r = rowShared q k f := by
    unfold rowAt at h
    split at h
    · exact List.mem_singleton.mp h
    · cases h
  rcases List.mem_append.mp hr with h | h
  · rw [hrow _ _ _ h]
    exact ⟨_, .inl rfl⟩
  · rw [hrow _ _ _ h]
    exact ⟨_, .inr rfl⟩

/-- What follows LOAD_INCX there writes neither the screen, the hit nor the shift buffer. -/
theorem performAll_after_load {ops : List Instr} {s t : State} (hops : ∀ i ∈ ops, ∃ p, i = .incY p ∨ i = .sprEval p)
    (h : performAll ops s = .ok t) : t.fb = s.fb ∧ t.sprite0Hit = s.sprite0Hit ∧ t.bgbuf = s.bgbuf := by
  have hkeep := performAll_keeps_field (fun u : State => (u.fb, u.sprite0Hit, u.bgbuf)) (fun i hm u u' hu => by
    have hf := perform_putBack hu
    obtain ⟨p, rfl | rfl⟩ := hops i hm
    · exact (congrArg (fun u : State => (u.fb, u.sprite0Hit, u.bgbuf)) hf :)
    · exact (congrArg (fun u : State => (u.fb, u.sprite0Hit, u.bgbuf)) hf :)) h
  simpa only [Prod.mk.injEq] using hkeep

/-! ### The statements -/

/-- Settles O32: the list is VBL_SET alone or IDLE alone. -/
theorem vblankLinesOnlySetTheFlag : Obligations.VblankLinesOnlySetTheFlag := by
  intro s hi h hv
  obtain ⟨-, -, -, hlines⟩ := counters_of_inv hi
  have hops := microOps_vblank hi hv
  have hmore : s.scanline + 1 ≠ s.cfg.totalScanlines := by omega
  by_cases hset : s.scanline = 0 ∧ s.dot = 1
  · rw [if_pos hset] at hops
    rw [execDot_of_single h hops rfl, advance_eq (s := { s.noReply with vblank := _, nmiPending := _ }) hi]
    simp [hset, nmiAfterVblank_eq_ite, State.noReply]
  · rw [if_neg hset] at hops
    have hnmi : ¬ (s.scanline = 0 ∧ s.dot = 1 ∧ s.ctrl.getLsbD 7 = true) := fun hc => hset ⟨hc.1, hc.2.1⟩
    rw [execDot_of_single h hops rfl, advance_eq (s := s.noReply) hi, if_neg hset, if_neg hnmi]
    have hsame : s.noReply.scanline + 1 ≠ s.noReply.cfg.totalScanlines := hmore
    rw [if_neg hsame]
    rfl

/-- Settles O33: FLAGS_CLR is the first of its position's list, and no other micro-operation there sets a flag again. -/
theorem flagsClearedAtThePreRenderLine : Obligations.FlagsClearedAtThePreRenderLine := by
  refine ⟨fun s h => exec_flagsClr h, fun s hi => microOps_preRender_dot1 hi, fun s hi h hline hdot => ?_⟩
  have hd := dot_le_of_inv hi
  obtain ⟨ops, hops⟩ := microOps_preRender_dot1 hi hline hdot
  obtain ⟨ops', u, hops', hu, hexec⟩ := execDot_ok hi h
  cases hops.symm.trans hops'
  obtain ⟨c, hc, hu⟩ := bind_eq_ok hu
  have hclear : c = { s.noReply with vblank := false, sprite0Hit := false, spriteOverflow := false } := by
    cases hc
    rfl
  have hvbl : .vblSet ∉ ops := fun hm => by
    have := (rowVblSet_firesAt hd).mp ((vblSet_mem_iff hops).mp (List.mem_cons_of_mem _ hm))
    omega
  have hpixel : ∀ d, .pixel d ∉ ops := fun d hm => by
    have := (rowPixel_firesAt hd).mp ((pixel_mem_iff hops d).mp (List.mem_cons_of_mem _ hm)).1
    omega
  have heval : ∀ p, .sprEval p ∉ ops := fun p hm => by
    have := (rowShared_firesAt hd mask_dot256).mp ((sprEval_mem_iff hops).mp ⟨p, List.mem_cons_of_mem _ hm⟩)
    omega
  have hkeep (P : State → Prop) (hP : ∀ i ∈ ops, ∀ r r', perform i r = .ok r' → P r → P r') (hc : P c) : P u :=
    Classical.byContradiction fun hlost => by
      obtain ⟨i, hm, r, r', -, hr, hpr, hpr'⟩ := performAll_lose hu hc hlost
      exact hpr' (hP i hm r r' hr hpr)
  have hvblank : u.vblank = false := hkeep (·.vblank = false) (fun i hm r r' hr hoff =>
    Bool.eq_false_of_not_eq_true fun hon => hvbl (perform_sets_vblank hr hoff hon ▸ hm)) (hclear ▸ rfl)
  have hhit : u.sprite0Hit = false := hkeep (·.sprite0Hit = false) (fun i hm r r' hr hoff =>
    Bool.eq_false_of_not_eq_true fun hon => by
      obtain ⟨⟨d, rfl⟩, -⟩ := perform_sets_sprite0Hit hr hoff hon
      exact hpixel d hm) (hclear ▸ rfl)
  have hover : u.spriteOverflow = false := hkeep (·.spriteOverflow = false) (fun i hm r r' hr hoff =>
    Bool.eq_false_of_not_eq_true fun hon => by
      obtain ⟨p, rfl⟩ := perform_sets_spriteOverflow hr hoff hon
      exact heval p hm) (hclear ▸ rfl)
  have hnmi : u.nmiPending = s.nmiPending := by rw [performAll_nmiPending hu hvbl, hclear]; rfl
  have hw : u.advance.w = s.w := (congrArg State.w (execDot_putBackDot hexec) :)
  exact ⟨u.advance, hexec, by simp [hvblank], by simp [hhit], by simp [hover], by simp [hnmi], hw⟩

/-- Settles O34: the list is FRAME_DONE alone or IDLE alone. -/
theorem frameDoneAtTheFirstPostRenderDot : Obligations.FrameDoneAtTheFirstPostRenderDot := by
  refine ⟨fun s h => exec_frameDone h, fun s p d h => exec_idle p d h, fun s hi h hline => ?_⟩
  have hops := microOps_postRender hi hline
  by_cases hdone : s.scanline = s.cfg.vblankLines + s.cfg.visibleLines + 1 ∧ s.dot = 0
  · rw [if_pos hdone] at hops
    rw [execDot_of_single h hops rfl, advance_eq (keepsInv_frameDone s.noReply _ hi rfl)]
    simp [hdone, State.noReply]
  · rw [if_neg hdone] at hops
    rw [execDot_of_single h hops rfl, advance_eq (s := s.noReply) hi, if_neg hdone]
    rfl

/-- Settles O38: the list begins with PIXEL and LOAD_INCX, and what follows writes none of the three. -/
theorem pixelReadsTheBufferBeforeTheLoad : Obligations.PixelReadsTheBufferBeforeTheLoad := by
  intro s hi h h1 h2 hr hd1 hd2 hmod
  obtain ⟨p, d, ops, hops, hrest⟩ := microOps_groupEnd hi h1 h2 hr hd1 hd2 hmod
  obtain ⟨ops', u, hops', hu, hexec⟩ := execDot_ok hi h
  cases hops.symm.trans hops'
  obtain ⟨c, hc, hu⟩ := bind_eq_ok hu
  obtain ⟨c', hc', hu⟩ := bind_eq_ok hu
  cases hc'
  have hpixel : exec (.pixel (BitVec.ofNat 9 s.dot)) s = .next c := exec_ok h hc
  have hload : exec (.loadIncx 1#1 0#6) s = .next { s.noReply with
      bgbuf := mergeGroup s.bgbuf (packGroup s.atLatch s.ptLo s.ptHi), v := incX s.v } := exec_ok h rfl
  obtain ⟨hfb, hhit, hbuf⟩ := performAll_after_load hrest hu
  obtain ⟨_, _, _, -, -, -, -, rfl⟩ := pixelBody_eq_ok hc
  exact ⟨_, _, u.advance, hpixel, hload, hexec, by rw [advance_fb, hfb], by rw [advance_sprite0Hit, hhit],
    by rw [advance_bgbuf, hbuf]; rfl⟩

end Sys2Proof.Machine
end

section
/-!
How an operation stops (60_exceptions.md section 1): from a state that meets the invariant a body completes, is a fatal
F1, F2 or F3, or refuses an ill-formed launch; only a micro-operation off its positions faults.
-/
namespace Sys2Proof.Machine

/-! ### The bodies that complete -/

theorem wrDataBody_total {s : State} (d : Byte) (hm : s.cfg.mirroring ≠ .fourScreen) : ∃ t, wrDataBody d s = .ok t := by
  obtain ⟨g, -, -, hw⟩ := vramWrite_ok (s := s) d hm (dataAddress_lt s.v)
  exact ⟨_, by rw [wrDataBody, hw]; rfl⟩

theorem rdDataBody_total {s : State} (hm : s.cfg.mirroring ≠ .fourScreen) : ∃ t, rdDataBody s = .ok t := by
  obtain ⟨p, hp⟩ := vramRead_ok (s := s) hm (dataAddress_lt s.v)
  by_cases h : dataAddress s.v < 0x3F00#15
  · exact ⟨_, by simp only [rdDataBody, if_pos h, hp]; rfl⟩
  · obtain ⟨b, hb⟩ := vramRead_ok (s := s) hm ((dataAddress_reload_lt s.v).resolve_right h)
    exact ⟨_, by simp only [rdDataBody, if_neg h, hp, hb]; rfl⟩

/-- A run of DOTs completes, halted or not. -/
theorem dots_total {n : Nat} {s : State} (hi : s.Inv) : ∃ t, dots n s = .next t := by
  induction n generalizing s with
  | zero => exact ⟨s, rfl⟩
  | succ n ih =>
    have hdot : ∃ u, execDot s = .next u := by
      cases h : s.halted
      · obtain ⟨u, hu, -⟩ := execDot_advances hi h
        exact ⟨u, hu⟩
      · exact ⟨_, operate_halted _ h⟩
    obtain ⟨u, hu⟩ := hdot
    obtain ⟨t, ht⟩ := ih (execDot_keeps_inv hi hu)
    exact ⟨t, by rw [dots, hu]; exact ht⟩

theorem screenRow_error {s : State} (h : phaseOf s.cfg s.scanline ≠ .visibleRender) :
    s.screenRow = .error (.fault .noScreenCell) := by
  unfold State.screenRow
  split
  next hp => exact absurd hp h
  next => rfl

theorem targetRow_error {s : State}
    (h : ¬ (phaseOf s.cfg s.scanline = .preRender ∨ phaseOf s.cfg s.scanline = .visibleRender)) :
    s.targetRow = .error (.fault .noTargetRow) := by
  unfold State.targetRow
  split
  next hp => exact absurd (.inl hp) h
  next hp => exact absurd (.inr hp) h
  next => rfl

/-- A micro-operation completes, or faults because it has no place at the position. -/
theorem perform_stops {i : Instr} {s : State} {word : BitVec 11} (hm : s.cfg.mirroring ≠ .fourScreen)
    (hw : encode i = .seq word) : (∃ t, perform i s = .ok t) ∨ ∃ f, perform i s = .error (.fault f) := by
  cases i
  case pixel d =>
    by_cases hd : pixelDot d.toNat = true
    · by_cases hp : phaseOf s.cfg s.scanline = .visibleRender
      · exact .inl (perform_ok hm ⟨hd, hp⟩)
      · exact .inr ⟨.noScreenCell, by simp [perform, pixelBody, screenColumn, hd, screenRow_error hp]⟩
    · exact .inr ⟨.noScreenCell, by simp [perform, pixelBody, screenColumn, hd]⟩
  case sprEval p =>
    by_cases hp : phaseOf s.cfg s.scanline = .preRender ∨ phaseOf s.cfg s.scanline = .visibleRender
    · exact .inl (perform_ok hm hp)
    · exact .inr ⟨.noTargetRow, by simp [perform, sprEvalBody, targetRow_error hp]⟩
  case vblSet | flagsClr | fetchNt | fetchAt | fetchLo | fetchHi | loadIncx | incY | copyH | copyV | frameDone | idle =>
    exact .inl (perform_ok hm trivial)
  all_goals cases hw

/-! ### How a body stops -/

/-- An access in the wrong direction (40_register_port.md R157). -/
def WrongDirection (i : Instr) : Prop :=
  i ∈ [Instr.rdControl, Instr.rdMask, Instr.rdOamaddr, Instr.rdScroll, Instr.rdAddr] ∨ ∃ d, i = .wrStatus d

/-- The ways a body can stop short of a next state (R291 to R293, R321; logs 11, 13). -/
inductive StopsBy : Instr → Stop → Prop
  | violation {i : Instr} : WrongDirection i → StopsBy i (.fatal .f1)
  | spriteSize {d : Byte} : d.getLsbD 5 = true → StopsBy (.wrControl d) (.fatal .f2)
  | unsupported {l : Launch} : l.cfg.standard ≠ .std0 ∨ l.cfg.mirroring = .fourScreen →
    StopsBy (.reset l) (.fatal .f2)
  | illFormed {l : Launch} : StopsBy (.reset l) (.refusal .illFormedLaunch)
  | wrongLength {bytes : List Byte} : bytes.length ≠ 256 → StopsBy (.oamdma bytes) (.fatal .f3)
  | noPlace {i : Instr} {f : Fault} {word : BitVec 11} : encode i = .seq word → StopsBy i (.fault f)

theorem stopsBy_of_perform {i : Instr} {s : State} {e : Stop} {word : BitVec 11} (hm : s.cfg.mirroring ≠ .fourScreen)
    (hw : encode i = .seq word) (h : body i s = .error e) : StopsBy i e := by
  rw [body_eq_perform hw] at h
  rcases perform_stops hm hw with ⟨t, ht⟩ | ⟨f, hf⟩
  · cases ht.symm.trans h
  · cases hf.symm.trans h
    exact .noPlace hw

/-- From a state that meets the invariant a body stops in these ways only. -/
theorem body_error {i : Instr} {s : State} {e : Stop} (hi : s.Inv) (h : body i s = .error e) : StopsBy i e := by
  have hm := mirroring_of_inv hi
  cases i
  case wrControl d =>
    simp only [body, wrControlBody] at h
    split at h
    next hd => cases h; exact .spriteSize hd
    next => cases h
  case wrMask | rdStatus | wrOamaddr | rdOamdata | wrOamdata | wrScroll1 | wrScroll2 | wrAddr1 | wrAddr2 | nmipoll =>
    cases h
  case rdData =>
    obtain ⟨t, ht⟩ := rdDataBody_total hm
    cases ht.symm.trans h
  case wrData d =>
    obtain ⟨t, ht⟩ := wrDataBody_total d hm
    cases ht.symm.trans h
  case rdControl | rdMask | rdOamaddr | rdScroll | rdAddr => cases h; exact .violation (.inl (by simp))
  case wrStatus d => cases h; exact .violation (.inr ⟨d, rfl⟩)
  case reset l =>
    simp only [body, resetBody] at h
    split at h
    next hstd => cases h; exact .unsupported (.inl hstd)
    next =>
      split at h
      next hfour => cases h; exact .unsupported (.inr hfour)
      next =>
        split at h
        next => cases h
        next => cases h; exact .illFormed
  case dot =>
    obtain ⟨-, -, hlen, -⟩ := counters_of_inv hi
    obtain ⟨-, ⟨hpos, -⟩, -⟩ := hi
    obtain ⟨_, _, -, -, hbody⟩ := dotBody_total hm hpos hlen
    cases hbody.symm.trans h
  case cycle =>
    obtain ⟨t, ht⟩ := dots_total (n := cycleDots s.cfg (cycModAfter s.cfg s.cycMod)) (inv_cycleStart hi)
    cases (dotsBody_ok_iff.mpr ht).symm.trans h
  case oamdma bytes =>
    simp only [body, oamdmaBody] at h
    split at h
    next => cases h
    next hlen => cases h; exact .wrongLength hlen
  case vblSet | flagsClr | pixel | fetchNt | fetchAt | fetchLo | fetchHi | loadIncx | incY | sprEval | copyH | copyV |
      frameDone | idle =>
    exact stopsBy_of_perform hm rfl h

/-- A body that goes on does not halt the block. -/
theorem body_halted {i : Instr} {s t : State} (hi : s.Inv) (h : s.halted = false) (hb : body i s = .ok t) :
    t.halted = false := by
  cases i
  case wrControl d =>
    simp only [body, wrControlBody] at hb
    split at hb
    · cases hb
    · cases hb; exact h
  case rdData => exact (congrArg State.halted (rdDataBody_frame hb) :).trans h
  case wrData d => exact (congrArg State.halted (wrDataBody_frame hb) :).trans h
  case rdControl | rdMask | wrStatus | rdOamaddr | rdScroll | rdAddr => cases hb
  case reset l =>
    obtain ⟨-, -, -, rfl⟩ := resetBody_eq_ok hb
    rfl
  case dot =>
    obtain ⟨_, u, -, hu, rfl⟩ := dotBody_ok hb
    obtain ⟨-, -, -, -, hhalt⟩ := performAll_keeps hu
    exact (advance_halted u).trans (hhalt.trans h)
  case cycle =>
    obtain ⟨u, hu, -, hhalt, -⟩ := dots_advance (n := cycleDots s.cfg (cycModAfter s.cfg s.cycMod)) (inv_cycleStart hi) h
    cases (dotsBody_ok_iff.mpr hu).symm.trans hb
    exact hhalt
  case oamdma bytes =>
    simp only [body, oamdmaBody] at hb
    split at hb
    · cases hb; exact h
    · cases hb
  case wrMask | rdStatus | wrOamaddr | rdOamdata | wrOamdata | wrScroll1 | wrScroll2 | wrAddr1 | wrAddr2 | nmipoll =>
    cases hb; exact h
  case vblSet | flagsClr | pixel | fetchNt | fetchAt | fetchLo | fetchHi | loadIncx | incY | sprEval | copyH | copyV |
      frameDone | idle =>
    rw [body_eq_perform rfl] at hb
    exact (congrArg State.halted (perform_frame hb) :).trans h

/-! ### The statement -/

theorem exec_faultCode_ne_f4 {i : Instr} {s t : State} (hi : s.Inv) (h : exec i s = .next t)
    (hs : s.faultCode ≠ some .f4) : t.faultCode ≠ some .f4 := by
  rcases exec_cases h with ⟨-, rfl⟩ | ⟨hrun, hok⟩ | ⟨-, k, hfatal, rfl⟩
  · exact hs
  · have hhalt := body_halted (s := s.noReply) hi hrun hok
    obtain ⟨-, -, -, -, hcode⟩ := exec_keeps_inv hi h
    rw [State.HaltOk, hhalt] at hcode
    intro hf4
    rw [hf4] at hcode
    cases hcode
  · cases body_error (s := s.noReply) hi hfatal <;> simp

/-- An operation that the host can issue does not fault. -/
theorem exec_ne_fault {i : Instr} {s : State} {f : Fault} (hi : s.Inv) (hissued : Issued i) : exec i s ≠ .fault f := by
  rw [exec_eq_operate]
  intro h
  cases body_error (s := s.noReply) hi (operate_fault h) with
  | noPlace hw => exact hissued _ hw

theorem exec_refused {i : Instr} {s : State} {r : Refusal} (hi : s.Inv) (h : exec i s = .refused r) :
    r = .illFormedLaunch := by
  rw [exec_eq_operate] at h
  cases body_error (s := s.noReply) hi (operate_refused h) with
  | illFormed => rfl

/-- Settles O56: each way a step can stop, and the fatals among them. -/
theorem stepNeverFaultsNorRaisesF4 : Obligations.StepNeverFaultsNorRaisesF4 := by
  intro s hi
  rcases step_eq s with hstep | ⟨rest, hstep⟩ | ⟨e, hstep⟩ | ⟨rest, i, hissued, hstep⟩ <;> rw [hstep]
  · exact ⟨by simp, fun t ht hs => by cases ht; exact hs, by simp⟩
  · exact ⟨by simp, fun t ht _ => by cases ht; simp, by simp⟩
  · exact ⟨by simp, by simp, by simp⟩
  · have hi' : State.Inv { s with pending := rest } := hi
    exact ⟨fun f => exec_ne_fault hi' hissued, fun t ht hs => exec_faultCode_ne_f4 hi' ht hs,
      fun r hr => .inl (exec_refused hi' hr)⟩

end Sys2Proof.Machine
end

section
/-!
Who writes what (10_state.md, the "Written by" of each register and memory): read off the frame of each operation.
-/
namespace Sys2Proof.Machine

variable {i : Instr} {s t : State}

/-- A field that differs after an operation is one that the operation may write. -/
theorem field_putBack {α : Type} (f : State → α) (h : exec i s = .next t) : f (putBack i s t) = f s :=
  congrArg f (exec_putBack h)

section
variable (h : exec i s = .next t) (hr : ∀ l, i ≠ .reset l)
include h hr

/-! ### The registers -/

theorem writers_x (hne : t.x ≠ s.x) : ∃ d, i = .wrScroll1 d := by
  have hf := field_putBack State.x h
  cases i
  case wrScroll1 d => exact ⟨d, rfl⟩
  case reset l => exact absurd rfl (hr l)
  all_goals exact absurd hf hne

theorem writers_w (hne : t.w ≠ s.w) :
    i = .rdStatus ∨ ∃ d, i = .wrScroll1 d ∨ i = .wrScroll2 d ∨ i = .wrAddr1 d ∨ i = .wrAddr2 d := by
  have hf := field_putBack State.w h
  cases i
  case rdStatus => exact .inl rfl
  case wrScroll1 d => exact .inr ⟨d, .inl rfl⟩
  case wrScroll2 d => exact .inr ⟨d, .inr (.inl rfl)⟩
  case wrAddr1 d => exact .inr ⟨d, .inr (.inr (.inl rfl))⟩
  case wrAddr2 d => exact .inr ⟨d, .inr (.inr (.inr rfl))⟩
  case reset l => exact absurd rfl (hr l)
  all_goals exact absurd hf hne

theorem writers_oamaddr (hne : t.oamaddr ≠ s.oamaddr) : ∃ d, i = .wrOamaddr d ∨ i = .wrOamdata d := by
  have hf := field_putBack State.oamaddr h
  cases i
  case wrOamaddr d => exact ⟨d, .inl rfl⟩
  case wrOamdata d => exact ⟨d, .inr rfl⟩
  case reset l => exact absurd rfl (hr l)
  all_goals exact absurd hf hne

theorem writers_rbuf (hne : t.rbuf ≠ s.rbuf) : i = .rdData := by
  have hf := field_putBack State.rbuf h
  cases i
  case rdData => rfl
  case reset l => exact absurd rfl (hr l)
  all_goals exact absurd hf hne

theorem writers_ctrl (hne : t.ctrl ≠ s.ctrl) : ∃ d, i = .wrControl d := by
  have hf := field_putBack State.ctrl h
  cases i
  case wrControl d => exact ⟨d, rfl⟩
  case reset l => exact absurd rfl (hr l)
  all_goals exact absurd hf hne

theorem writers_mask (hne : t.mask ≠ s.mask) : ∃ d, i = .wrMask d := by
  have hf := field_putBack State.mask h
  cases i
  case wrMask d => exact ⟨d, rfl⟩
  case reset l => exact absurd rfl (hr l)
  all_goals exact absurd hf hne

theorem keeps_cfg : t.cfg = s.cfg := by
  have hf := field_putBack State.cfg h
  cases i
  case reset l => exact absurd rfl (hr l)
  all_goals exact hf

theorem writers_oam (hne : t.oam ≠ s.oam) : (∃ d, i = .wrOamdata d) ∨ ∃ bs, i = .oamdma bs := by
  have hf := field_putBack State.oam h
  cases i
  case wrOamdata d => exact .inl ⟨d, rfl⟩
  case oamdma bs => exact .inr ⟨bs, rfl⟩
  case reset l => exact absurd rfl (hr l)
  all_goals exact absurd hf hne

/-! ### The temporary address and the cartridge, under their conditions -/

omit hr in
theorem wrControl_keeps_t {d : Byte} (hi : i = .wrControl d) (hc : s.cfg.ctrlNtToT = false) : t.t = s.t := by
  subst hi
  rcases exec_cases h with ⟨-, rfl⟩ | ⟨-, hok⟩ | ⟨-, _, -, rfl⟩
  · rfl
  · simp only [body, wrControlBody] at hok
    split at hok
    next => cases hok
    next =>
      cases hok
      show ctrlT s.cfg s.t d = s.t
      simp [ctrlT, hc]
  · rfl

theorem writers_t (hne : t.t ≠ s.t) : ∃ d, i = .wrScroll1 d ∨ i = .wrScroll2 d ∨ i = .wrAddr1 d ∨ i = .wrAddr2 d ∨
    (i = .wrControl d ∧ s.cfg.ctrlNtToT = true) := by
  have hf := field_putBack State.t h
  cases i
  case wrControl d =>
    exact ⟨d, by simpa using fun hc => hne (wrControl_keeps_t h rfl hc)⟩
  case wrScroll1 d => exact ⟨d, .inl rfl⟩
  case wrScroll2 d => exact ⟨d, .inr (.inl rfl)⟩
  case wrAddr1 d => exact ⟨d, .inr (.inr (.inl rfl))⟩
  case wrAddr2 d => exact ⟨d, .inr (.inr (.inr (.inl rfl)))⟩
  case reset l => exact absurd rfl (hr l)
  all_goals exact absurd hf hne

omit h hr in
theorem writeTarget_keeps_chr {b : Byte} {g : Target} (hc : s.chrWritable = false) : (s.writeTarget b g).chr = s.chr := by
  cases g <;> simp [State.writeTarget, State.cartWrite, hc]

omit hr in
theorem wrData_keeps_chr {d : Byte} (hi : i = .wrData d) (hc : s.chrWritable = false) : t.chr = s.chr := by
  subst hi
  rcases exec_cases h with ⟨-, rfl⟩ | ⟨-, hok⟩ | ⟨-, _, -, rfl⟩
  · rfl
  · obtain ⟨u, hu, hok⟩ := bind_eq_ok hok
    cases hok
    unfold State.vramWrite at hu
    split at hu
    next => cases hu; exact writeTarget_keeps_chr (s := s.noReply) hc
    next => cases hu
  · rfl

theorem writers_chr (hne : t.chr ≠ s.chr) : s.chrWritable = true ∧ ∃ d, i = .wrData d := by
  have hf := field_putBack State.chr h
  cases i
  case wrData d => exact ⟨Bool.eq_true_of_not_eq_false fun hc => hne (wrData_keeps_chr h rfl hc), d, rfl⟩
  case reset l => exact absurd rfl (hr l)
  all_goals exact absurd hf hne

/-! ### The memories -/

theorem writers_nt (hne : t.nt ≠ s.nt) : ∃ d, i = .wrData d := by
  have hf := field_putBack State.nt h
  cases i
  case wrData d => exact ⟨d, rfl⟩
  case reset l => exact absurd rfl (hr l)
  all_goals exact absurd hf hne

theorem writers_pal (hne : t.pal ≠ s.pal) : ∃ d, i = .wrData d := by
  have hf := field_putBack State.pal h
  cases i
  case wrData d => exact ⟨d, rfl⟩
  case reset l => exact absurd rfl (hr l)
  all_goals exact absurd hf hne

theorem keeps_chrWritable_pending : t.chrWritable = s.chrWritable ∧ t.pending = s.pending := by
  have hf := field_putBack (fun u => (u.chrWritable, u.pending)) h
  rw [← Prod.mk.injEq]
  cases i
  case reset l => exact absurd rfl (hr l)
  all_goals exact hf

theorem writers_fb (hne : t.fb ≠ s.fb) : (i = .dot ∨ i = .cycle) ∨ ∃ d, i = .pixel d := by
  have hf := field_putBack State.fb h
  cases i
  case dot => exact .inl (.inl rfl)
  case cycle => exact .inl (.inr rfl)
  case pixel d => exact .inr ⟨d, rfl⟩
  case reset l => exact absurd rfl (hr l)
  all_goals exact absurd hf hne

theorem writers_sec (hne : t.sec ≠ s.sec ∨ t.slot0IsSprite0 ≠ s.slot0IsSprite0) :
    (i = .dot ∨ i = .cycle) ∨ ∃ p, i = .sprEval p := by
  have hf := field_putBack (fun u => (u.sec, u.slot0IsSprite0)) h
  have hne : (t.sec, t.slot0IsSprite0) ≠ (s.sec, s.slot0IsSprite0) := by
    rw [ne_eq, Prod.mk.injEq]
    exact not_and_or.mpr hne
  cases i
  case dot => exact .inl (.inl rfl)
  case cycle => exact .inl (.inr rfl)
  case sprEval p => exact .inr ⟨p, rfl⟩
  case reset l => exact absurd rfl (hr l)
  all_goals exact absurd hf hne

theorem writers_frames (hne : t.frames ≠ s.frames) : (i = .dot ∨ i = .cycle) ∨ i = .frameDone := by
  have hf := field_putBack State.frames h
  cases i
  case dot => exact .inl (.inl rfl)
  case cycle => exact .inl (.inr rfl)
  case frameDone => exact .inr rfl
  case reset l => exact absurd rfl (hr l)
  all_goals exact absurd hf hne

/-! ### The pipeline and the position -/

theorem writers_bgbuf (hne : t.bgbuf ≠ s.bgbuf) : (i = .dot ∨ i = .cycle) ∨ ∃ p d, i = .loadIncx p d := by
  have hf := field_putBack State.bgbuf h
  cases i
  case dot => exact .inl (.inl rfl)
  case cycle => exact .inl (.inr rfl)
  case loadIncx p d => exact .inr ⟨p, d, rfl⟩
  case reset l => exact absurd rfl (hr l)
  all_goals exact absurd hf hne

theorem writers_ntLatch (hne : t.ntLatch ≠ s.ntLatch) : (i = .dot ∨ i = .cycle) ∨ ∃ p d, i = .fetchNt p d := by
  have hf := field_putBack State.ntLatch h
  cases i
  case dot => exact .inl (.inl rfl)
  case cycle => exact .inl (.inr rfl)
  case fetchNt p d => exact .inr ⟨p, d, rfl⟩
  case reset l => exact absurd rfl (hr l)
  all_goals exact absurd hf hne

theorem writers_atLatch (hne : t.atLatch ≠ s.atLatch) : (i = .dot ∨ i = .cycle) ∨ ∃ p d, i = .fetchAt p d := by
  have hf := field_putBack State.atLatch h
  cases i
  case dot => exact .inl (.inl rfl)
  case cycle => exact .inl (.inr rfl)
  case fetchAt p d => exact .inr ⟨p, d, rfl⟩
  case reset l => exact absurd rfl (hr l)
  all_goals exact absurd hf hne

theorem writers_ptLo (hne : t.ptLo ≠ s.ptLo) : (i = .dot ∨ i = .cycle) ∨ ∃ p d, i = .fetchLo p d := by
  have hf := field_putBack State.ptLo h
  cases i
  case dot => exact .inl (.inl rfl)
  case cycle => exact .inl (.inr rfl)
  case fetchLo p d => exact .inr ⟨p, d, rfl⟩
  case reset l => exact absurd rfl (hr l)
  all_goals exact absurd hf hne

theorem writers_ptHi (hne : t.ptHi ≠ s.ptHi) : (i = .dot ∨ i = .cycle) ∨ ∃ p d, i = .fetchHi p d := by
  have hf := field_putBack State.ptHi h
  cases i
  case dot => exact .inl (.inl rfl)
  case cycle => exact .inl (.inr rfl)
  case fetchHi p d => exact .inr ⟨p, d, rfl⟩
  case reset l => exact absurd rfl (hr l)
  all_goals exact absurd hf hne

theorem writers_position (hne : t.scanline ≠ s.scanline ∨ t.dot ≠ s.dot) : i = .dot ∨ i = .cycle := by
  have hf := field_putBack (fun u => (u.scanline, u.dot)) h
  have hne : (t.scanline, t.dot) ≠ (s.scanline, s.dot) := by
    rw [ne_eq, Prod.mk.injEq]
    exact not_and_or.mpr hne
  cases i
  case dot => exact .inl rfl
  case cycle => exact .inr rfl
  case reset l => exact absurd rfl (hr l)
  all_goals exact absurd hf hne

theorem writers_cycMod (hne : t.cycMod ≠ s.cycMod) : i = .cycle := by
  have hf := field_putBack State.cycMod h
  cases i
  case cycle => rfl
  case reset l => exact absurd rfl (hr l)
  all_goals exact absurd hf hne

theorem writers_v (hne : t.v ≠ s.v) : (i = .dot ∨ i = .cycle) ∨ i = .rdData ∨ (∃ d, i = .wrData d ∨ i = .wrAddr2 d) ∨
    (∃ d, i = .copyV d) ∨ (∃ p d, i = .loadIncx p d) ∨ ∃ p, i = .incY p ∨ i = .copyH p := by
  have hf := field_putBack State.v h
  cases i
  case dot => exact .inl (.inl rfl)
  case cycle => exact .inl (.inr rfl)
  case rdData => exact .inr (.inl rfl)
  case wrData d => exact .inr (.inr (.inl ⟨d, .inl rfl⟩))
  case wrAddr2 d => exact .inr (.inr (.inl ⟨d, .inr rfl⟩))
  case copyV d => exact .inr (.inr (.inr (.inl ⟨d, rfl⟩)))
  case loadIncx p d => exact .inr (.inr (.inr (.inr (.inl ⟨p, d, rfl⟩))))
  case incY p => exact .inr (.inr (.inr (.inr (.inr ⟨p, .inl rfl⟩))))
  case copyH p => exact .inr (.inr (.inr (.inr (.inr ⟨p, .inr rfl⟩))))
  case reset l => exact absurd rfl (hr l)
  all_goals exact absurd hf hne

end

/-! ### The statements -/

/-- Settles O57: register by register. -/
theorem registersHaveTheirWriters : Obligations.RegistersHaveTheirWriters := fun _ _ _ h hr =>
  ⟨writers_x h hr, writers_w h hr, writers_oamaddr h hr, writers_rbuf h hr, writers_ctrl h hr, writers_mask h hr,
    writers_t h hr, keeps_cfg h hr, writers_oam h hr⟩

/-- Settles O58: memory by memory, and the pipeline's parts. -/
theorem memoriesHaveTheirWriters : Obligations.MemoriesHaveTheirWriters := fun _ _ _ h hr =>
  have ⟨hwritable, hpending⟩ := keeps_chrWritable_pending h hr
  ⟨writers_nt h hr, writers_pal h hr, writers_chr h hr, hwritable, hpending, writers_fb h hr, writers_sec h hr,
    writers_bgbuf h hr, writers_ntLatch h hr, writers_atLatch h hr, writers_ptLo h hr, writers_ptHi h hr,
    writers_frames h hr, writers_position h hr, writers_cycMod h hr, writers_v h hr⟩

end Sys2Proof.Machine
end

section
/-!
Who sets and who clears a flag (10_state.md sections 3 and 7, 60_exceptions.md section 2): operation by operation, and for
a DOT or a CYCLE the position at which it happens.
-/
namespace Sys2Proof.Machine

variable {i : Instr} {s t : State}

/-! ### Losing a property -/

/-- An operation loses a property that withdrawing the reply and taking a fatal keep in its body only. -/
theorem exec_lose {P : State → Prop} (h : exec i s = .next t) (hquiet : P s.noReply) (hfatal : ∀ k, P (s.raiseFatal k))
    (hlost : ¬ P t) : s.halted = false ∧ body i s.noReply = .ok t := by
  rcases exec_cases h with ⟨-, rfl⟩ | ⟨hrun, hok⟩ | ⟨-, k, -, rfl⟩
  · exact absurd hquiet hlost
  · exact ⟨hrun, hok⟩
  · exact absurd (hfatal k) hlost

/-- A CYCLE loses a property at one of its DOTs, at a position that it passes. -/
theorem cycleBody_lose {P : State → Prop} (hi : s.Inv) (h : s.halted = false) (ht : cycleBody s.noReply = .ok t)
    (hs : P (cycleStart s)) (hlost : ¬ P t) :
    ∃ k u u', k < cycleDots s.cfg (cycModAfter s.cfg s.cycMod) ∧ u.Inv ∧ u.halted = false ∧
      (u.cfg = s.cfg ∧ u.ctrl = s.ctrl ∧ u.mask = s.mask) ∧
      u.position = (s.position + k) % (s.cfg.totalScanlines * 341) ∧ execDot u = .next u' ∧ P u ∧ ¬ P u' := by
  obtain ⟨k, u, u', hk, hui, hrun, hframe, hpos, hu⟩ :=
    dots_lose (inv_cycleStart hi) h (dotsBody_ok_iff.mp ht) hs hlost
  exact ⟨k, u, u', hk, hui, hrun, ⟨(congrArg State.cfg hframe :), (congrArg State.ctrl hframe :),
    (congrArg State.mask hframe :)⟩, hpos, hu⟩

/-! ### Clearing -/

/-- A flag that FLAGS_CLR alone clears among the micro-operations. -/
structure ClearedByFlagsClr (f : State → Bool) : Prop where
  keptByAdvance : ∀ u : State, f u.advance = f u
  keptByNoReply : ∀ u : State, f u.noReply = f u
  keptByFatal : ∀ (u : State) (k : FaultCode), f (u.raiseFatal k) = f u
  keptByCycleStart : ∀ u : State, f (cycleStart u) = f u
  clearedByMicro : ∀ {i : Instr} {u u' : State}, perform i u = .ok u' → f u = true → f u' = false → i = .flagsClr

theorem vblank_cleared : ClearedByFlagsClr State.vblank :=
  ⟨advance_vblank, fun _ => rfl, fun _ _ => rfl, fun _ => rfl, perform_clears_vblank⟩

theorem sprite0Hit_cleared : ClearedByFlagsClr State.sprite0Hit :=
  ⟨advance_sprite0Hit, fun _ => rfl, fun _ _ => rfl, fun _ => rfl, perform_clears_sprite0Hit⟩

theorem spriteOverflow_cleared : ClearedByFlagsClr State.spriteOverflow :=
  ⟨advance_spriteOverflow, fun _ => rfl, fun _ _ => rfl, fun _ => rfl, perform_clears_spriteOverflow⟩

section
variable {f : State → Bool} (hf : ClearedByFlagsClr f) (hi : s.Inv) (hs : f s = true) (hcleared : f t = false)
include hf hs hcleared

/-- An operation that clears such a flag does so in its body. -/
theorem body_of_cleared (h : exec i s = .next t) : s.halted = false ∧ body i s.noReply = .ok t :=
  exec_lose (P := fun u => f u = true) h ((hf.keptByNoReply s).trans hs) (fun k => (hf.keptByFatal s k).trans hs)
    (by simp [hcleared])

include hi

/-- A DOT clears such a flag at the pre-render scanline's dot 1 only. -/
theorem dot_clears (ht : exec .dot s = .next t) : s.scanline = s.cfg.vblankLines ∧ s.dot = 1 := by
  obtain ⟨hrun, -⟩ := body_of_cleared hf hs hcleared ht
  obtain ⟨ops, hops, j, hj, u, u', -, hu, hon, hoff⟩ := execDot_lose (P := fun u => f u = true) hi hrun
    (fun u hu => (hf.keptByAdvance u).trans hu) ((hf.keptByNoReply s).trans hs) ht (by simp [hcleared])
  cases hf.clearedByMicro hu hon (Bool.eq_false_of_not_eq_true hoff)
  exact (rowFlagsClr_firesAt (dot_le_of_inv hi)).mp ((flagsClr_mem_iff hops).mp hj)

/-- A CYCLE clears such a flag only when it passes that position. -/
theorem cycle_clears (ht : exec .cycle s = .next t) : ∃ k, k < cycleDots s.cfg (cycModAfter s.cfg s.cycMod) ∧
    (s.position + k) % (s.cfg.totalScanlines * 341) = s.cfg.vblankLines * 341 + 1 := by
  obtain ⟨hrun, hb⟩ := body_of_cleared hf hs hcleared ht
  obtain ⟨k, u, u', hk, hui, -, ⟨hcfg, -, -⟩, hpos, hu, hon, hoff⟩ := cycleBody_lose (P := fun u => f u = true) hi hrun
    hb ((hf.keptByCycleStart s).trans hs) (by simp [hcleared])
  obtain ⟨hline, hdot⟩ := dot_clears hf hui hon (Bool.eq_false_of_not_eq_true hoff) hu
  exact ⟨k, hk, by rw [← hpos, State.position, hline, hdot, hcfg]⟩

end

theorem execDot_keeps_nmiPending (h : execDot s = .next t) (hs : s.nmiPending = true) : t.nmiPending = true := by
  refine Bool.eq_true_of_not_eq_false fun hoff => ?_
  obtain ⟨-, hb⟩ := exec_lose (i := .dot) (P := fun u => u.nmiPending = true) h hs (fun _ => hs) (by simp [hoff])
  obtain ⟨ops, u, -, hu, rfl⟩ := dotBody_ok hb
  obtain ⟨j, -, r, r', -, hr, hon, hlost⟩ := performAll_lose (P := fun u => u.nmiPending = true) hu hs
    (by simpa using hoff)
  exact hlost (perform_keeps_nmiPending hr hon)

theorem clearers_nmiPending (h : exec i s = .next t) (hs : s.nmiPending = true) (ht : t.nmiPending = false) :
    i = .nmipoll ∨ ∃ l, i = .reset l := by
  have hf := field_putBack State.nmiPending h
  have hne : t.nmiPending ≠ s.nmiPending := by simp [hs, ht]
  obtain ⟨-, hb⟩ := exec_lose (P := fun u => u.nmiPending = true) h hs (fun _ => hs) (by simp [ht])
  cases i
  case nmipoll => exact .inl rfl
  case reset l => exact .inr ⟨l, rfl⟩
  case wrControl d =>
    simp only [body, wrControlBody] at hb
    split at hb
    next => cases hb
    next =>
      cases hb
      have hclear : nmiAfterControl s.nmiPending s.vblank s.ctrl d = false := ht
      rw [hs, nmiAfterControl, Bool.true_or] at hclear
      cases hclear
  case vblSet => exact absurd (perform_keeps_nmiPending (i := .vblSet) hb hs) (by simp [ht])
  case dot => exact absurd (execDot_keeps_nmiPending h hs) (by simp [ht])
  case cycle =>
    have hkept := dots_keep (P := fun u => u.nmiPending = true) (fun _ _ hs hd => execDot_keeps_nmiPending hd hs)
      (s := cycleStart s) hs (dotsBody_ok_iff.mp hb)
    exact absurd hkept (by simp [ht])
  all_goals exact absurd hf hne

theorem clearers_sprite0Hit (h : exec i s = .next t) (hs : s.sprite0Hit = true) (ht : t.sprite0Hit = false) :
    i = .flagsClr ∨ i = .dot ∨ i = .cycle ∨ ∃ l, i = .reset l := by
  have hf := field_putBack State.sprite0Hit h
  have hne : t.sprite0Hit ≠ s.sprite0Hit := by simp [hs, ht]
  obtain ⟨-, hb⟩ := exec_lose (P := fun u => u.sprite0Hit = true) h hs (fun _ => hs) (by simp [ht])
  cases i
  case flagsClr => exact .inl rfl
  case dot => exact .inr (.inl rfl)
  case cycle => exact .inr (.inr (.inl rfl))
  case reset l => exact .inr (.inr (.inr ⟨l, rfl⟩))
  case pixel d => cases perform_clears_sprite0Hit (i := .pixel d) hb hs ht
  all_goals exact absurd hf hne

theorem clearers_spriteOverflow (h : exec i s = .next t) (hs : s.spriteOverflow = true) (ht : t.spriteOverflow = false) :
    i = .flagsClr ∨ i = .dot ∨ i = .cycle ∨ ∃ l, i = .reset l := by
  have hf := field_putBack State.spriteOverflow h
  have hne : t.spriteOverflow ≠ s.spriteOverflow := by simp [hs, ht]
  obtain ⟨-, hb⟩ := exec_lose (P := fun u => u.spriteOverflow = true) h hs (fun _ => hs) (by simp [ht])
  cases i
  case flagsClr => exact .inl rfl
  case dot => exact .inr (.inl rfl)
  case cycle => exact .inr (.inr (.inl rfl))
  case reset l => exact .inr (.inr (.inr ⟨l, rfl⟩))
  case sprEval p => cases perform_clears_spriteOverflow (i := .sprEval p) hb hs ht
  all_goals exact absurd hf hne

theorem clearers_vblank (h : exec i s = .next t) (hs : s.vblank = true) (ht : t.vblank = false) :
    i = .rdStatus ∨ i = .flagsClr ∨ i = .dot ∨ i = .cycle ∨ ∃ l, i = .reset l := by
  have hf := field_putBack State.vblank h
  have hne : t.vblank ≠ s.vblank := by simp [hs, ht]
  obtain ⟨-, hb⟩ := exec_lose (P := fun u => u.vblank = true) h hs (fun _ => hs) (by simp [ht])
  cases i
  case rdStatus => exact .inl rfl
  case flagsClr => exact .inr (.inl rfl)
  case dot => exact .inr (.inr (.inl rfl))
  case cycle => exact .inr (.inr (.inr (.inl rfl)))
  case reset l => exact .inr (.inr (.inr (.inr ⟨l, rfl⟩)))
  case vblSet => cases perform_clears_vblank (i := .vblSet) hb hs ht
  all_goals exact absurd hf hne

/-- Settles O59: the frame of each operation for who can clear a flag, the list of a position for where. -/
theorem flagsAreClearedOnlyByTheirClearers : Obligations.FlagsAreClearedOnlyByTheirClearers := by
  intro i s t h cycMod' n cleared
  have hn : cycleDots s.cfg (cycModAfter s.cfg s.cycMod) = n := cycleDots_eq _ _
  refine ⟨clearers_nmiPending h, clearers_sprite0Hit h, clearers_spriteOverflow h, clearers_vblank h, ?_, ?_, ?_⟩
  · rintro hi rfl (⟨hs, ht⟩ | ⟨hs, ht⟩ | ⟨hs, ht⟩)
    · exact dot_clears vblank_cleared hi hs ht h
    · exact dot_clears sprite0Hit_cleared hi hs ht h
    · exact dot_clears spriteOverflow_cleared hi hs ht h
  · rw [← hn]
    rintro hi rfl (⟨hs, ht⟩ | ⟨hs, ht⟩ | ⟨hs, ht⟩)
    · exact cycle_clears vblank_cleared hi hs ht h
    · exact cycle_clears sprite0Hit_cleared hi hs ht h
    · exact cycle_clears spriteOverflow_cleared hi hs ht h
  · intro hh
    cases (exec_halted i hh).symm.trans h
    exact hh

/-! ### Setting -/

/-- The position of VBL_SET. -/
def vblSetPlace (c : Cfg) (line dot : Nat) : Prop := 0 < c.vblankLines ∧ line = 0 ∧ dot = 1

/-- The positions of PIXEL. -/
def pixelPlace (c : Cfg) (line dot : Nat) : Prop :=
  c.vblankLines < line ∧ line ≤ c.vblankLines + c.visibleLines ∧ 1 ≤ dot ∧ dot ≤ 256

/-- The positions of SPR_EVAL. -/
def sprEvalPlace (c : Cfg) (line dot : Nat) : Prop :=
  c.vblankLines ≤ line ∧ line ≤ c.vblankLines + c.visibleLines ∧ dot = 256

/-- A flag that, among the micro-operations, is set only by one that stands at the positions `place` names, and only under
the condition `cond` on Control and Mask. -/
structure SetAt (f : State → Bool) (place : Cfg → Nat → Nat → Prop) (cond : Byte → Byte → Prop) : Prop where
  keptByAdvance : ∀ u : State, f u.advance = f u
  keptByNoReply : ∀ u : State, f u.noReply = f u
  keptByFatal : ∀ (u : State) (k : FaultCode), f (u.raiseFatal k) = f u
  keptByCycleStart : ∀ u : State, f (cycleStart u) = f u
  setByMicro : ∀ {s : State} {ops : List Instr} {i : Instr} {u u' : State}, s.Inv → s.microOps = .ok ops → i ∈ ops →
    (u.ctrl = s.ctrl ∧ u.mask = s.mask) → perform i u = .ok u' → f u = false → f u' = true →
    place s.cfg s.scanline s.dot ∧ cond s.ctrl s.mask

theorem vblSetPlace_of_mem {ops : List Instr} (hi : s.Inv) (h : s.microOps = .ok ops) (hm : .vblSet ∈ ops) :
    vblSetPlace s.cfg s.scanline s.dot :=
  (rowVblSet_firesAt (dot_le_of_inv hi)).mp ((vblSet_mem_iff h).mp hm)

theorem vblank_setAt : SetAt State.vblank vblSetPlace (fun _ _ => True) where
  keptByAdvance := advance_vblank
  keptByNoReply _ := rfl
  keptByFatal _ _ := rfl
  keptByCycleStart _ := rfl
  setByMicro hi h hm _ hu hoff hon := by
    cases perform_sets_vblank hu hoff hon
    exact ⟨vblSetPlace_of_mem hi h hm, trivial⟩

theorem nmiPending_setAt : SetAt State.nmiPending vblSetPlace (fun ctrl _ => ctrl.getLsbD 7 = true) where
  keptByAdvance := advance_nmiPending
  keptByNoReply _ := rfl
  keptByFatal _ _ := rfl
  keptByCycleStart _ := rfl
  setByMicro hi h hm hsame hu hoff hon := by
    obtain ⟨rfl, hctrl⟩ := perform_sets_nmiPending hu hoff hon
    exact ⟨vblSetPlace_of_mem hi h hm, hsame.1 ▸ hctrl⟩

theorem sprite0Hit_setAt : SetAt State.sprite0Hit pixelPlace
    (fun _ mask => mask.getLsbD 3 = true ∧ mask.getLsbD 4 = true) where
  keptByAdvance := advance_sprite0Hit
  keptByNoReply _ := rfl
  keptByFatal _ _ := rfl
  keptByCycleStart _ := rfl
  setByMicro hi h hm hsame hu hoff hon := by
    obtain ⟨⟨d, rfl⟩, hmask⟩ := perform_sets_sprite0Hit hu hoff hon
    obtain ⟨⟨hlo, hhi⟩, hdot⟩ := (rowPixel_firesAt (dot_le_of_inv hi)).mp ((pixel_mem_iff h d).mp hm).1
    exact ⟨⟨hlo, hhi, hdot⟩, hsame.2 ▸ hmask⟩

theorem spriteOverflow_setAt : SetAt State.spriteOverflow sprEvalPlace
    (fun _ mask => mask.getLsbD 3 = true ∨ mask.getLsbD 4 = true) where
  keptByAdvance := advance_spriteOverflow
  keptByNoReply _ := rfl
  keptByFatal _ _ := rfl
  keptByCycleStart _ := rfl
  setByMicro hi h hm _ hu hoff hon := by
    obtain ⟨p, rfl⟩ := perform_sets_spriteOverflow hu hoff hon
    obtain ⟨⟨hlo, hhi⟩, hrender, hdot⟩ :=
      (rowShared_firesAt (dot_le_of_inv hi) mask_dot256).mp ((sprEval_mem_iff h).mp ⟨p, hm⟩)
    exact ⟨⟨hlo, hhi, hdot⟩, hrender⟩

section
variable {f : State → Bool} {place : Cfg → Nat → Nat → Prop} {cond : Byte → Byte → Prop} (hf : SetAt f place cond)
  (hi : s.Inv) (hs : f s = false) (hset : f t = true)
include hf hs hset

/-- An operation that sets such a flag does so in its body. -/
theorem body_of_set (h : exec i s = .next t) : s.halted = false ∧ body i s.noReply = .ok t :=
  exec_lose (P := fun u => f u = false) h ((hf.keptByNoReply s).trans hs) (fun k => (hf.keptByFatal s k).trans hs)
    (by simp [hset])

include hi

/-- A DOT sets such a flag at its place, under its condition. -/
theorem dot_sets (ht : exec .dot s = .next t) : place s.cfg s.scanline s.dot ∧ cond s.ctrl s.mask := by
  obtain ⟨hrun, -⟩ := body_of_set hf hs hset ht
  obtain ⟨ops, hops, j, hj, u, u', hframe, hu, hoff, hon⟩ := execDot_lose (P := fun u => f u = false) hi hrun
    (fun u hu => (hf.keptByAdvance u).trans hu) ((hf.keptByNoReply s).trans hs) ht (by simp [hset])
  exact hf.setByMicro (u := u) hi hops hj ⟨(congrArg State.ctrl hframe :), (congrArg State.mask hframe :)⟩ hu hoff
    (Bool.eq_true_of_not_eq_false hon)

/-- A CYCLE sets such a flag only when it passes one of its places, under its condition. -/
theorem cycle_sets (ht : exec .cycle s = .next t) : (∃ k, k < cycleDots s.cfg (cycModAfter s.cfg s.cycMod) ∧
    place s.cfg ((s.position + k) % (s.cfg.totalScanlines * 341) / 341)
      ((s.position + k) % (s.cfg.totalScanlines * 341) % 341)) ∧ cond s.ctrl s.mask := by
  obtain ⟨hrun, hb⟩ := body_of_set hf hs hset ht
  obtain ⟨k, u, u', hk, hui, -, ⟨hcfg, hctrl, hmask⟩, hpos, hu, hoff, hon⟩ :=
    cycleBody_lose (P := fun u => f u = false) hi hrun hb ((hf.keptByCycleStart s).trans hs) (by simp [hset])
  obtain ⟨hplace, hcond⟩ := dot_sets hf hui hoff (Bool.eq_true_of_not_eq_false hon) hu
  have hd := dot_le_of_inv hui
  refine ⟨⟨k, hk, ?_⟩, hctrl ▸ hmask ▸ hcond⟩
  rw [← hpos, position_div hd, position_mod hd, ← hcfg]
  exact hplace

end

theorem setters_vblank (h : exec i s = .next t) (hs : s.vblank = false) (ht : t.vblank = true) :
    i = .vblSet ∨ i = .dot ∨ i = .cycle := by
  have hf := field_putBack State.vblank h
  have hne : t.vblank ≠ s.vblank := by simp [hs, ht]
  obtain ⟨-, hb⟩ := body_of_set vblank_setAt hs ht h
  cases i
  case vblSet => exact .inl rfl
  case dot => exact .inr (.inl rfl)
  case cycle => exact .inr (.inr rfl)
  case rdStatus | flagsClr => cases hb; cases ht
  case reset l =>
    obtain ⟨-, -, -, rfl⟩ := resetBody_eq_ok hb
    cases ht
  all_goals exact absurd hf hne

theorem nmiAfterControl_iff {pending vblank : Bool} {old new : Byte} : nmiAfterControl pending vblank old new = true ↔
    pending = true ∨ (old.getLsbD 7 = false ∧ new.getLsbD 7 = true ∧ vblank = true) := by
  simp [nmiAfterControl, ctrlNmiEnable, and_assoc]

theorem setters_nmiPending (h : exec i s = .next t) (hs : s.nmiPending = false) (ht : t.nmiPending = true) :
    (s.ctrl.getLsbD 7 = true ∧ i = .vblSet) ∨ i = .dot ∨ i = .cycle ∨
      ∃ d, i = .wrControl d ∧ s.ctrl.getLsbD 7 = false ∧ d.getLsbD 7 = true ∧ s.vblank = true := by
  have hf := field_putBack State.nmiPending h
  have hne : t.nmiPending ≠ s.nmiPending := by simp [hs, ht]
  obtain ⟨-, hb⟩ := body_of_set nmiPending_setAt hs ht h
  cases i
  case vblSet => exact .inl ⟨(perform_sets_nmiPending (i := .vblSet) (s := s.noReply) hb hs ht).2, rfl⟩
  case dot => exact .inr (.inl rfl)
  case cycle => exact .inr (.inr (.inl rfl))
  case wrControl d =>
    simp only [body, wrControlBody] at hb
    split at hb
    next => cases hb
    next =>
      cases hb
      exact .inr (.inr (.inr ⟨d, rfl, (nmiAfterControl_iff.mp ht).resolve_left (by simp [hs])⟩))
  case nmipoll => cases hb; cases ht
  case reset l =>
    obtain ⟨-, -, -, rfl⟩ := resetBody_eq_ok hb
    cases ht
  all_goals exact absurd hf hne

theorem setters_sprite0Hit (h : exec i s = .next t) (hs : s.sprite0Hit = false) (ht : t.sprite0Hit = true) :
    ((∃ d, i = .pixel d) ∧ s.mask.getLsbD 3 = true ∧ s.mask.getLsbD 4 = true) ∨ i = .dot ∨ i = .cycle := by
  have hf := field_putBack State.sprite0Hit h
  have hne : t.sprite0Hit ≠ s.sprite0Hit := by simp [hs, ht]
  obtain ⟨-, hb⟩ := body_of_set sprite0Hit_setAt hs ht h
  cases i
  case pixel d => exact .inl (perform_sets_sprite0Hit (i := .pixel d) (s := s.noReply) hb hs ht)
  case dot => exact .inr (.inl rfl)
  case cycle => exact .inr (.inr rfl)
  case flagsClr => cases hb; cases ht
  case reset l =>
    obtain ⟨-, -, -, rfl⟩ := resetBody_eq_ok hb
    cases ht
  all_goals exact absurd hf hne

theorem setters_spriteOverflow (h : exec i s = .next t) (hs : s.spriteOverflow = false) (ht : t.spriteOverflow = true) :
    (∃ p, i = .sprEval p) ∨ i = .dot ∨ i = .cycle := by
  have hf := field_putBack State.spriteOverflow h
  have hne : t.spriteOverflow ≠ s.spriteOverflow := by simp [hs, ht]
  obtain ⟨-, hb⟩ := body_of_set spriteOverflow_setAt hs ht h
  cases i
  case sprEval p => exact .inl ⟨p, rfl⟩
  case dot => exact .inr (.inl rfl)
  case cycle => exact .inr (.inr rfl)
  case flagsClr => cases hb; cases ht
  case reset l =>
    obtain ⟨-, -, -, rfl⟩ := resetBody_eq_ok hb
    cases ht
  all_goals exact absurd hf hne

/-- The halt is a fatal: a body that goes on leaves the block running. -/
theorem setters_halted (hi : s.Inv) (h : exec i s = .next t) (hs : s.halted = false) (ht : t.halted = true) :
    ∃ k, StopsBy i (.fatal k) := by
  rcases exec_cases h with ⟨hh, -⟩ | ⟨-, hok⟩ | ⟨-, k, hfatal, -⟩
  · cases hs.symm.trans hh
  · cases ht.symm.trans (body_halted (s := s.noReply) hi hs hok)
  · exact ⟨k, body_error (s := s.noReply) hi hfatal⟩

/-- Settles O60: the frame of each operation for who can set a flag, the list of a position for where, and the ways a body
stops for the halt. -/
theorem flagsAreSetOnlyByTheirSetters : Obligations.FlagsAreSetOnlyByTheirSetters := by
  intro i s t hi h V L cycMod' n position stepped bg sprites
  have hn : cycleDots s.cfg (cycModAfter s.cfg s.cycMod) = n := cycleDots_eq _ _
  have hsteps {f : State → Bool} {place : Cfg → Nat → Nat → Prop} {cond : Byte → Byte → Prop} (hf : SetAt f place cond)
      (hs : f s = false) (ht : f t = true) (hstep : i = .dot ∨ i = .cycle) :
      stepped (place s.cfg) ∧ cond s.ctrl s.mask := by
    rcases hstep with rfl | rfl
    · obtain ⟨hplace, hcond⟩ := dot_sets hf hi hs ht h
      exact ⟨.inl ⟨rfl, hplace⟩, hcond⟩
    · obtain ⟨hplace, hcond⟩ := cycle_sets hf hi hs ht h
      exact ⟨.inr ⟨rfl, hn ▸ hplace⟩, hcond⟩
  refine ⟨fun hs ht => ?_, fun hs ht => ?_, fun hs ht => ?_, fun hs ht => ?_, fun hs ht => ?_⟩
  · exact (setters_vblank h hs ht).imp_right fun hstep => (hsteps vblank_setAt hs ht hstep).1
  · rcases setters_nmiPending h hs ht with ⟨hctrl, rfl⟩ | hdot | hcycle | hwrite
    · exact .inl ⟨hctrl, .inl rfl⟩
    · obtain ⟨hplace, hctrl⟩ := hsteps nmiPending_setAt hs ht (.inl hdot)
      exact .inl ⟨hctrl, .inr hplace⟩
    · obtain ⟨hplace, hctrl⟩ := hsteps nmiPending_setAt hs ht (.inr hcycle)
      exact .inl ⟨hctrl, .inr hplace⟩
    · exact .inr hwrite
  · rcases setters_sprite0Hit h hs ht with ⟨hpixel, hbg, hspr⟩ | hstep
    · exact ⟨hbg, hspr, .inl hpixel⟩
    · obtain ⟨hplace, hbg, hspr⟩ := hsteps sprite0Hit_setAt hs ht hstep
      exact ⟨hbg, hspr, .inr hplace⟩
  · rcases setters_spriteOverflow h hs ht with heval | hstep
    · exact .inl heval
    · obtain ⟨hplace, hmask⟩ := hsteps spriteOverflow_setAt hs ht hstep
      exact .inr ⟨hmask, hplace⟩
  · obtain ⟨k, hk⟩ := setters_halted hi h hs ht
    cases hk with
    | violation hw => exact hw.imp_right fun hstatus => .inl (hstatus.imp fun _ he => .inl he)
    | spriteSize hd => exact .inr (.inl ⟨_, .inr ⟨rfl, hd⟩⟩)
    | unsupported hl => exact .inr (.inr (.inr ⟨_, rfl, hl⟩))
    | wrongLength hlen => exact .inr (.inr (.inl ⟨_, rfl, hlen⟩))

end Sys2Proof.Machine
end

section
/-!
The register port but Data (40_register_port.md sections 1 to 3), OAMDMA (R156) and RESET (70_reset_and_hazards.md).
-/
namespace Sys2Proof.Machine

/-! ### Fields of the temporary address -/

/-- With `CTRL_NT_TO_T` the two nametable bits are the written ones, the fields on both sides stay. -/
theorem ctrlT_of_flag {c : Cfg} (t : VAddr) (d : Byte) (h : c.ctrlNtToT = true) :
    (ctrlT c t d).extractLsb' 10 2 = d.extractLsb' 0 2 ∧ (ctrlT c t d).extractLsb' 0 10 = t.extractLsb' 0 10 ∧
      (ctrlT c t d).extractLsb' 12 3 = t.extractLsb' 12 3 := by
  rw [ctrlT, if_pos h]
  exact ⟨putField_extractLsb'_same _ _ (by decide), putField_extractLsb'_disjoint _ _ (by decide) (by decide),
    putField_extractLsb'_disjoint _ _ (by decide) (by decide)⟩

theorem ctrlT_of_no_flag {c : Cfg} (t : VAddr) (d : Byte) (h : c.ctrlNtToT = false) : ctrlT c t d = t := by
  simp [ctrlT, h]

theorem scroll1T_low (t : VAddr) (d : Byte) : (scroll1T t d).extractLsb' 0 5 = d.extractLsb' 3 5 :=
  putField_extractLsb'_same _ _ (by decide)

theorem scroll1T_high (t : VAddr) (d : Byte) : (scroll1T t d).extractLsb' 5 10 = t.extractLsb' 5 10 :=
  putField_extractLsb'_disjoint _ _ (by decide) (by decide)

theorem scroll2T_fineY (t : VAddr) (d : Byte) : (scroll2T t d).extractLsb' 12 3 = d.extractLsb' 0 3 :=
  (putField_extractLsb'_disjoint _ _ (by decide) (by decide)).trans (putField_extractLsb'_same _ _ (by decide))

theorem scroll2T_coarseY (t : VAddr) (d : Byte) : (scroll2T t d).extractLsb' 5 5 = d.extractLsb' 3 5 :=
  putField_extractLsb'_same _ _ (by decide)

/-- WR_SCROLL.2 leaves the fields between and below its two. -/
theorem scroll2T_kept {a len : Nat} (t : VAddr) (d : Byte) (h : a + len ≤ 15)
    (h1 : a + len ≤ 5 ∨ 10 ≤ a) (h2 : a + len ≤ 12) :
    (scroll2T t d).extractLsb' a len = t.extractLsb' a len :=
  (putField_extractLsb'_disjoint _ _ h h1).trans (putField_extractLsb'_disjoint _ _ h (.inl h2))

/-! ### The operations while not halted -/

section
variable {s : State} (h : s.halted = false)
include h

theorem exec_wrControl {d : Byte} (hd : d.getLsbD 5 = false) : exec (.wrControl d) s = .next { s with
    ctrl := d, t := ctrlT s.cfg s.t d, nmiPending := nmiAfterControl s.nmiPending s.vblank s.ctrl d
    reply := .none } :=
  exec_ok h (if_neg (Bool.eq_false_iff.mp hd))

theorem exec_wrControl_fatal {d : Byte} (hd : d.getLsbD 5 = true) :
    exec (.wrControl d) s = .next (s.raiseFatal .f2) :=
  exec_fatal h (if_pos hd)

theorem exec_wrMask (d : Byte) : exec (.wrMask d) s = .next { s with mask := d, reply := .none } := exec_ok h rfl

theorem exec_rdStatus : exec .rdStatus s = .next { s with
    vblank := false, w := false, reply := .byte (statusByte s.vblank s.sprite0Hit s.spriteOverflow) } := exec_ok h rfl

theorem exec_rdOamdata : exec .rdOamdata s = .next { s with reply := .byte (s.oam.read s.oamaddr.toNat) } :=
  exec_ok h rfl

theorem exec_wrOamdata (d : Byte) : exec (.wrOamdata d) s = .next { s with
    oam := s.oam.write s.oamaddr.toNat d, oamaddr := s.oamaddr + 1#8, reply := .none } := exec_ok h rfl

theorem exec_wrScroll1 (d : Byte) : exec (.wrScroll1 d) s = .next { s with
    x := scroll1X d, t := scroll1T s.t d, w := true, reply := .none } := exec_ok h rfl

theorem exec_wrScroll2 (d : Byte) : exec (.wrScroll2 d) s = .next { s with
    t := scroll2T s.t d, w := false, reply := .none } := exec_ok h rfl

theorem exec_oamdma {bytes : List Byte} (hlen : bytes.length = 256) :
    exec (.oamdma bytes) s = .next { s with oam := Memory.fromBytes 0 bytes, reply := .none } :=
  exec_ok h (if_pos hlen)

theorem exec_oamdma_fatal {bytes : List Byte} (hlen : bytes.length ≠ 256) :
    exec (.oamdma bytes) s = .next (s.raiseFatal .f3) :=
  exec_fatal h (if_neg hlen)

end

/-! ### The Status byte (10_state.md R34) -/

theorem statusByte_bits (v h o : Bool) : (statusByte v h o).getLsbD 7 = v ∧ (statusByte v h o).getLsbD 6 = h ∧
    (statusByte v h o).getLsbD 5 = o ∧ (statusByte v h o).extractLsb' 0 5 = 0#5 := by
  revert v h o
  decide

theorem nmiAfterControl_eq_ite (pending vblank : Bool) (old new : Byte) : nmiAfterControl pending vblank old new =
    if old.getLsbD 7 = false ∧ new.getLsbD 7 = true ∧ vblank = true then true else pending := by
  rw [Bool.eq_iff_iff, nmiAfterControl_iff]
  split
  next hedge => exact ⟨fun _ => rfl, fun _ => .inr hedge⟩
  next hedge => exact ⟨fun hset => hset.resolve_right hedge, .inl⟩

/-! ### The writes of slots 5 and 6 as steps (40_register_port.md section 3) -/

section
variable {s : State} {addr : BitVec 16} {d : Byte} {rest : List Request} (h : s.halted = false)
  (hp : s.pending = .bus true addr d :: rest) (hw : inWindow s.cfg addr = true)
include h hp hw

theorem step_addr_first (hs : addr.extractLsb' 0 3 = 6#3) (hl : s.w = false) :
    step s = .next { s with t := addr1T s.t d, w := true, reply := .none, pending := rest } := by
  rw [step_bus hp hw (by rw [hl]; exact (decodeBus_slot6 false d hs).2)]
  exact exec_wrAddr1 (s := { s with pending := rest }) d h

theorem step_addr_second (hs : addr.extractLsb' 0 3 = 6#3) (hl : s.w = true) :
    step s = .next { s with t := addr2T s.t d, v := addr2T s.t d, w := false, reply := .none, pending := rest } := by
  rw [step_bus hp hw (by rw [hl]; exact (decodeBus_slot6 true d hs).2)]
  exact exec_wrAddr2 (s := { s with pending := rest }) d h

theorem step_scroll_first (hs : addr.extractLsb' 0 3 = 5#3) (hl : s.w = false) : step s = .next { s with
    x := scroll1X d, t := scroll1T s.t d, w := true, reply := .none, pending := rest } := by
  rw [step_bus hp hw (by rw [hl]; exact (decodeBus_slot5 false d hs).2)]
  exact exec_wrScroll1 (s := { s with pending := rest }) h d

theorem step_scroll_second (hs : addr.extractLsb' 0 3 = 5#3) (hl : s.w = true) :
    step s = .next { s with t := scroll2T s.t d, w := false, reply := .none, pending := rest } := by
  rw [step_bus hp hw (by rw [hl]; exact (decodeBus_slot5 true d hs).2)]
  exact exec_wrScroll2 (s := { s with pending := rest }) h d

end

/-- A part of a field put in is that part of the field. -/
theorem putField_extractLsb'_inside {n k lo a len : Nat} (r : BitVec n) (f : BitVec k) (h : a + len ≤ n) (h1 : lo ≤ a)
    (h2 : a + len ≤ lo + k) : (putField r lo f).extractLsb' a len = f.extractLsb' (a - lo) len := by
  ext i hi
  have hin : a + i < n := by omega
  have hfield : lo ≤ a + i ∧ a + i < lo + k := by omega
  rw [BitVec.getElem_extractLsb', BitVec.getElem_extractLsb', putField_getLsbD r lo f hin, if_pos hfield,
    Nat.sub_add_comm h1]

/-- A part of a part. -/
theorem extractLsb'_of_extractLsb' {n lo k a len : Nat} (b : BitVec n) (h : a + len ≤ k) :
    (b.extractLsb' lo k).extractLsb' a len = b.extractLsb' (lo + a) len := by
  ext i hi
  have hin : a + i < k := by omega
  rw [BitVec.getElem_extractLsb', BitVec.getElem_extractLsb', BitVec.getLsbD_extractLsb', Nat.add_assoc]
  simp [hin]

/-- WR_ADDR.2 leaves the bits from 8 up, WR_SCROLL.1 those from 5 up. -/
theorem addr2T_scroll1T_kept {a len : Nat} (t : VAddr) (c d : Byte) (h : a + len ≤ 15) (ha : 8 ≤ a) :
    (addr2T (scroll1T t c) d).extractLsb' a len = t.extractLsb' a len :=
  (putField_extractLsb'_disjoint _ _ h (.inr ha)).trans (putField_extractLsb'_disjoint _ _ h (.inr (by omega)))

/-! ### RESET -/

theorem exec_reset {s : State} {l : Launch} (h : s.halted = false) (hstd : l.cfg.standard = .std0)
    (hm : l.cfg.mirroring ≠ .fourScreen) (hwf : l.wf = true) :
    exec (.reset l) s = .next { State.launch l with pending := s.pending, frames := s.frames } :=
  exec_ok h (by simp [body, resetBody, hstd, hm, hwf])

theorem exec_reset_unsupported {s : State} {l : Launch} (h : s.halted = false)
    (hl : l.cfg.standard ≠ .std0 ∨ l.cfg.mirroring = .fourScreen) :
    exec (.reset l) s = .next (s.raiseFatal .f2) := by
  refine exec_fatal h ?_
  by_cases hstd : l.cfg.standard = .std0
  · have hm := hl.resolve_left (not_not.mpr hstd)
    simp [body, resetBody, hstd, hm]
  · simp [body, resetBody, hstd]

theorem exec_reset_illFormed {s : State} {l : Launch} (h : s.halted = false) (hstd : l.cfg.standard = .std0)
    (hm : l.cfg.mirroring ≠ .fourScreen) (hwf : ¬ l.wf = true) : exec (.reset l) s = .refused .illFormedLaunch := by
  simp [exec_eq_operate, operate, h, body, resetBody, hstd, hm, hwf, commit]

/-- Every byte of the cleared secondary table. -/
theorem clearedSec_read {k : Nat} (h : k < 32) : clearedSec.read k = 0xFF#8 := by
  have hread := Memory.read_fromBytes (List.replicate 32 0xFF#8) 0 k
  rw [Nat.zero_add] at hread
  rw [clearedSec, hread, List.getD_replicate _ h]

/-! ### The statements -/

/-- Settles O9: the three fields that WR_CONTROL writes. -/
theorem controlWriteStoresAndRaisesOnTheEdge : Obligations.ControlWriteStoresAndRaisesOnTheEdge := fun s d h hd =>
  ⟨ctrlT s.cfg s.t d, nmiAfterControl_eq_ite s.nmiPending s.vblank s.ctrl d ▸ exec_wrControl h hd,
    ctrlT_of_no_flag s.t d, ctrlT_of_flag s.t d⟩

/-- Settles O10: the test of bit 5 comes before anything is stored. -/
theorem eightBySixteenSpritesAreF2 : Obligations.EightBySixteenSpritesAreF2 := fun _ _ h hd => exec_wrControl_fatal h hd

/-- Settles O11: the body of WR_MASK. -/
theorem maskWriteStoresTheByte : Obligations.MaskWriteStoresTheByte := fun _ d h => exec_wrMask h d

/-- Settles O12: the byte is made before the clears. -/
theorem statusReadReturnsThenClears : Obligations.StatusReadReturnsThenClears := by
  refine ⟨fun s h => ⟨_, exec_rdStatus h, statusByte_bits s.vblank s.sprite0Hit s.spriteOverflow⟩,
    fun s t u h h1 h2 => ?_, fun w _ d h => (decodeBus_slot2 w d h).1⟩
  cases (exec_rdStatus h).symm.trans h1
  cases (exec_rdStatus (s := { s with vblank := false, w := false, reply := _ }) h).symm.trans h2
  exact ⟨_, rfl, (statusByte_bits false s.sprite0Hit s.spriteOverflow).1⟩

/-- Settles O14: the body of RD_OAMDATA. -/
theorem spriteTableReadReturnsTheByte : Obligations.SpriteTableReadReturnsTheByte := fun _ h => exec_rdOamdata h

/-- Settles O15: the read-after-write law of the table, and the cursor's sum in 8 bits. -/
theorem spriteTableWriteStoresAndIncrements : Obligations.SpriteTableWriteStoresAndIncrements :=
  ⟨fun _ d h hwf => ⟨_, exec_wrOamdata h d, fun _ => Memory.read_write d hwf, BitVec.toNat_add _ _, rfl, rfl⟩,
    fun w _ d h => (decodeBus_slot4 w d h).2⟩

/-- Settles O16: the new `t` is `scroll1T`. -/
theorem firstScrollWrite : Obligations.FirstScrollWrite := fun s d h =>
  ⟨scroll1T s.t d, exec_wrScroll1 h d, scroll1T_low s.t d, scroll1T_high s.t d⟩

/-- Settles O17: the new `t` is `scroll2T`. -/
theorem secondScrollWrite : Obligations.SecondScrollWrite := fun s d h =>
  ⟨scroll2T s.t d, exec_wrScroll2 h d, scroll2T_fineY s.t d, scroll2T_coarseY s.t d,
    scroll2T_kept s.t d (by decide) (by decide) (by decide), scroll2T_kept s.t d (by decide) (by decide) (by decide)⟩

/-- Settles O26: the table is the bytes of the list in order. -/
theorem bulkTransferReplacesTheTable : Obligations.BulkTransferReplacesTheTable := fun _ bytes h hlen =>
  ⟨_, exec_oamdma h hlen, fun i => by rw [← Memory.read_fromBytes bytes 0 i, Nat.zero_add],
    Memory.wf_fromBytes bytes (Nat.le_of_eq hlen), rfl, rfl⟩

/-- Settles O27: the test of the length comes first. -/
theorem malformedBulkTransferIsF3 : Obligations.MalformedBulkTransferIsF3 := fun _ _ h hlen => exec_oamdma_fatal h hlen

/-- Settles O29: the launch state field by field. -/
theorem resetGivesTheResetValues : Obligations.ResetGivesTheResetValues := fun _ _ h hstd hm hwf =>
  ⟨_, exec_reset h hstd hm hwf, ⟨rfl, rfl, rfl, rfl, rfl, rfl, rfl⟩, ⟨rfl, rfl, rfl, rfl⟩, ⟨rfl, rfl, rfl, rfl⟩,
    ⟨fun _ hk => clearedSec_read hk, rfl⟩, ⟨rfl, rfl, rfl, rfl, rfl⟩, ⟨rfl, rfl, rfl⟩,
    ⟨rfl, rfl, rfl, rfl, rfl, rfl, rfl⟩, rfl, rfl⟩

/-- Settles O30: the two checks of the configuration, then the launch's form. -/
theorem resetChecksItsConfiguration : Obligations.ResetChecksItsConfiguration := by
  refine fun s l h => ⟨exec_reset_unsupported h, fun hstd hm hbroken => exec_reset_illFormed h hstd hm fun hwf => ?_⟩
  simp only [Launch.wf, Bool.and_eq_true] at hwf
  obtain ⟨hlines, hdots, hbase, -⟩ := cfg_wf_iff.mp hwf.1
  rcases hbroken with hno | hno | hno
  · exact hno hlines
  · exact hno hdots
  · exact hno hbase

/-- A step that completes is the first of a run. -/
theorem run_of_step {M : Host.Core} {s t : M.State} {n : Nat} {o : Host.Outcome M.State M.Fault M.Refusal}
    (h : M.step s = .next t) (hrun : M.run n t = o) : M.run (n + 1) s = o := by
  rw [Host.Core.run, h]
  exact hrun

/-- Settles O20: the latch makes the four writes WR_ADDR.1, WR_SCROLL.2, WR_SCROLL.1 and WR_ADDR.2. -/
theorem mixedScrollAndAddressWrites : Obligations.MixedScrollAndAddressWrites := by
  intro s a6 a5 a5' a6' a b c d rest h hw hp h6 h5 h5' h6' hwin
  have hin (addr : BitVec 16) (hm : addr ∈ [a6, a5, a5', a6']) : inWindow s.cfg addr = true :=
    inWindow_iff.mpr (hwin addr hm)
  refine ⟨addr2T (scroll1T (scroll2T (addr1T s.t a) b) c) d, ?_, addr2T_low _ d, ?_, ?_, ?_⟩
  · refine run_of_step (M := Sys2Proof.core) (step_addr_first h hp (hin a6 (by simp)) h6 hw) ?_
    refine run_of_step (M := Sys2Proof.core) (step_scroll_second h rfl (hin a5 (by simp)) h5 rfl) ?_
    refine run_of_step (M := Sys2Proof.core) (step_scroll_first h rfl (hin a5' (by simp)) h5' rfl) ?_
    exact run_of_step (M := Sys2Proof.core) (step_addr_second h rfl (hin a6' (by simp)) h6' rfl) rfl
  · rw [addr2T_scroll1T_kept _ _ _ (by decide) (by decide), scroll2T, withCoarseY,
      putField_extractLsb'_inside _ _ (by decide) (by decide) (by decide), extractLsb'_of_extractLsb' _ (by decide)]
  · rw [addr2T_scroll1T_kept _ _ _ (by decide) (by decide), scroll2T_kept _ _ (by decide) (by decide) (by decide), addr1T,
      putField_extractLsb'_disjoint _ _ (by decide) (by decide),
      putField_extractLsb'_inside _ _ (by decide) (by decide) (by decide), extractLsb'_of_extractLsb' _ (by decide)]
  · rw [addr2T_scroll1T_kept _ _ _ (by decide) (by decide), scroll2T_fineY]

end Sys2Proof.Machine
end

section
/-!
The translator's regions (20_memory.md R70 to R77) and the Data register (40_register_port.md section 4).
-/
namespace Sys2Proof.Machine

/-! ### Addresses as numbers -/

theorem toNat_and_31 (a : VAddr) : (a &&& 0x1F#15).toNat = a.toNat % 32 :=
  (BitVec.toNat_and _ _).trans (Nat.and_two_pow_sub_one_eq_mod a.toNat 5)

theorem toNat_dataAddress (v : VAddr) : (dataAddress v).toNat = v.toNat % 0x4000 :=
  (BitVec.toNat_and _ _).trans (Nat.and_two_pow_sub_one_eq_mod v.toNat 14)

theorem dataAddress_of_lt {a : VAddr} (h : a.toNat < 0x4000) : dataAddress a = a :=
  BitVec.eq_of_toNat_eq ((toNat_dataAddress a).trans (Nat.mod_eq_of_lt h))

/-- The palette cell over the natural numbers: the four aliases are the multiples of 4 from 16 up (R73). -/
theorem palIndex_eq (a : VAddr) : palIndex a = if a.toNat % 4 = 0 then a.toNat % 16 else a.toNat % 32 := by
  simp only [palIndex, toNat_and_31]
  split <;> split <;> omega

/-- The fold of R72 keeps every field below bit 12. -/
theorem ntAlias_extractLsb' (a : VAddr) {lo len : Nat} (h : lo + len ≤ 12) :
    (ntAlias a).extractLsb' lo len = a.extractLsb' lo len := by
  have hlow : (ntAlias a).toNat % 2 ^ 12 = a.toNat % 2 ^ 12 := by
    unfold ntAlias
    split <;> bv_omega
  ext i hi
  have hin : lo + i < 12 := by omega
  have hbit := congrArg (Nat.testBit · (lo + i)) hlow
  simp only [Nat.testBit_mod_two_pow, hin, decide_true, Bool.true_and] at hbit
  rw [BitVec.getElem_extractLsb', BitVec.getElem_extractLsb']
  exact hbit

/-! ### The regions -/

theorem translateAddress_cart (c : Cfg) {a : VAddr} (h : a.toNat < 0x2000) :
    translateAddress c a = .ok (.cart a.toNat) :=
  if_pos (BitVec.lt_def.mpr h)

/-- The nametable region, the mirror from 0x3000 up included. -/
theorem translateAddress_nt (c : Cfg) {a : VAddr} (h1 : 0x2000 ≤ a.toNat) (h2 : a.toNat ≤ 0x3EFF) :
    translateAddress c a = (ntBank c.mirroring (a.extractLsb' 10 2)).map
      fun bank => .nt (1024 * bank + (a.extractLsb' 0 10).toNat) := by
  have hcart : ¬ a < 0x2000#15 := by bv_omega
  have hnt : a ≤ 0x3EFF#15 := by bv_omega
  rw [translateAddress, if_neg hcart, if_pos hnt, ntAlias_extractLsb' a (by decide), ntAlias_extractLsb' a (by decide)]

theorem translateAddress_pal (c : Cfg) {a : VAddr} (h1 : 0x3F00 ≤ a.toNat) (h2 : a.toNat ≤ 0x3FFF) :
    translateAddress c a = .ok (.pal (palIndex a)) := by
  have hcart : ¬ a < 0x2000#15 := by bv_omega
  have hnt : ¬ a ≤ 0x3EFF#15 := by bv_omega
  have hpal : a ≤ 0x3FFF#15 := by bv_omega
  rw [translateAddress, if_neg hcart, if_neg hnt, if_pos hpal]

theorem translateAddress_outside (c : Cfg) {a : VAddr} (h : 0x4000 ≤ a.toNat) : translateAddress c a = .error .f4 := by
  have hcart : ¬ a < 0x2000#15 := by bv_omega
  have hnt : ¬ a ≤ 0x3EFF#15 := by bv_omega
  have hpal : ¬ a ≤ 0x3FFF#15 := by bv_omega
  rw [translateAddress, if_neg hcart, if_neg hnt, if_neg hpal]

theorem ntBank_horizontal (a : VAddr) : ntBank .horizontal (a.extractLsb' 10 2) = .ok (a.toNat / 2048 % 2) := by
  rw [ntBank, BitVec.extractLsb'_toNat, BitVec.extractLsb'_toNat]
  simp only [Nat.shiftRight_eq_div_pow]
  congr 1
  omega

theorem ntBank_vertical (a : VAddr) : ntBank .vertical (a.extractLsb' 10 2) = .ok (a.toNat / 1024 % 2) := by
  rw [ntBank, BitVec.extractLsb'_toNat, BitVec.extractLsb'_toNat]
  simp only [Nat.shiftRight_eq_div_pow]
  congr 1
  omega

theorem translateAddress_nt_horizontal {c : Cfg} {a : VAddr} (h1 : 0x2000 ≤ a.toNat) (h2 : a.toNat ≤ 0x3EFF)
    (hm : c.mirroring = .horizontal) :
    translateAddress c a = .ok (.nt (1024 * (a.toNat / 2048 % 2) + a.toNat % 1024)) := by
  rw [translateAddress_nt c h1 h2, hm, ntBank_horizontal, BitVec.extractLsb'_toNat]
  rfl

theorem translateAddress_nt_vertical {c : Cfg} {a : VAddr} (h1 : 0x2000 ≤ a.toNat) (h2 : a.toNat ≤ 0x3EFF)
    (hm : c.mirroring = .vertical) :
    translateAddress c a = .ok (.nt (1024 * (a.toNat / 1024 % 2) + a.toNat % 1024)) := by
  rw [translateAddress_nt c h1 h2, hm, ntBank_vertical, BitVec.extractLsb'_toNat]
  rfl

theorem vramRead_of_error {s : State} {a : VAddr} {f : FaultCode} (h : translateAddress s.cfg a = .error f) :
    s.vramRead a = .error (.fatal f) := by
  rw [State.vramRead, h]

/-- Settles O24: one region per clause, and `VramRead` reads the target. -/
theorem translatorRegions : Obligations.TranslatorRegions := by
  refine fun c a => ⟨translateAddress_cart c, translateAddress_nt_horizontal, translateAddress_nt_vertical,
    fun h1 h2 => palIndex_eq a ▸ translateAddress_pal c h1 h2, translateAddress_outside c, ?_⟩
  rintro s rfl
  exact ⟨fun _ => vramRead_of_translateAddress, fun _ => vramRead_of_translateAddress,
    fun _ => vramRead_of_translateAddress, fun _ => vramRead_of_error⟩

/-! ### Mirrors -/

/-- The block 0x2000 to 0x2FFF by the bits above its size. -/
theorem ntBlock_iff {a : VAddr} : a.extractLsb' 12 3 = 2#3 ↔ 0x2000 ≤ a.toNat ∧ a.toNat ≤ 0x2FFF := by
  rw [← BitVec.toNat_inj, BitVec.extractLsb'_toNat, Nat.shiftRight_eq_div_pow, BitVec.toNat_ofNat]
  omega

theorem extractLsb'_xor_of_zero {n lo len : Nat} (a : BitVec n) {m : BitVec n} (h : m.extractLsb' lo len = 0#len) :
    (a ^^^ m).extractLsb' lo len = a.extractLsb' lo len := by
  rw [BitVec.extractLsb'_xor, h, BitVec.xor_zero]

/-- In the block, an exclusive or that keeps the block, the offset and the bank keeps the target. -/
theorem translateAddress_xor {c : Cfg} {a m : VAddr} (h1 : 0x2000 ≤ a.toNat) (h2 : a.toNat ≤ 0x2FFF)
    (hblock : m.extractLsb' 12 3 = 0#3) (hoff : m.extractLsb' 0 10 = 0#10)
    (hbank : ntBank c.mirroring ((a ^^^ m).extractLsb' 10 2) = ntBank c.mirroring (a.extractLsb' 10 2)) :
    translateAddress c a = translateAddress c (a ^^^ m) := by
  have hin := ntBlock_iff.mpr ⟨h1, h2⟩
  rw [← extractLsb'_xor_of_zero a hblock] at hin
  obtain ⟨hm1, hm2⟩ := ntBlock_iff.mp hin
  rw [translateAddress_nt c h1 (by omega), translateAddress_nt c hm1 (by omega), hbank,
    extractLsb'_xor_of_zero a hoff]

/-- The mirror 32 bytes on, down to the first copy. -/
theorem palIndex_or_mask (a : VAddr) : palIndex (0x3F00#15 ||| (a &&& 0x1F#15)) = palIndex a := by
  have hlow : (0x3F00#15 ||| (a &&& 0x1F#15)) &&& 0x1F#15 = a &&& 0x1F#15 := by
    rw [BitVec.and_comm, BitVec.and_or_distrib_left, BitVec.and_comm a, ← BitVec.and_assoc, BitVec.and_self]
    simp
  rw [palIndex, hlow, palIndex]

theorem translateAddress_pal_mirror (c : Cfg) {a : VAddr} (h1 : 0x3F00 ≤ a.toNat) (h2 : a.toNat ≤ 0x3FFF) :
    translateAddress c a = translateAddress c (0x3F00#15 ||| (a &&& 0x1F#15)) := by
  have hval : (0x3F00#15 ||| (a &&& 0x1F#15)).toNat = 0x3F00 ||| a.toNat % 32 := by
    rw [BitVec.toNat_or, toNat_and_31]
    rfl
  have hlt : 0x3F00 ||| a.toNat % 32 < 2 ^ 14 := Nat.or_lt_two_pow (by decide) (by omega)
  rw [translateAddress_pal c h1 h2, translateAddress_pal c (hval ▸ Nat.left_le_or) (by omega), palIndex_or_mask]

/-- Settles O25: each mirror keeps the region, the bank and the offset. -/
theorem mirroredAddressesResolveAlike : Obligations.MirroredAddressesResolveAlike := by
  refine fun c a => ⟨fun h1 h2 => ?_, fun h1 h2 hm => ?_, fun h1 h2 hm => ?_, translateAddress_pal_mirror c⟩
  · have halias : ntAlias a = a - 0x1000#15 := if_pos (by bv_omega)
    rw [translateAddress_nt c (by omega) h2, translateAddress_nt c (a := a - 0x1000#15) (by bv_omega) (by bv_omega),
      ← halias, ntAlias_extractLsb' a (by decide), ntAlias_extractLsb' a (by decide)]
  · refine translateAddress_xor h1 h2 (by decide) (by decide) ?_
    rw [hm, ntBank, ntBank, BitVec.extractLsb'_xor, extractLsb'_xor_of_zero _ (by decide)]
  · refine translateAddress_xor h1 h2 (by decide) (by decide) ?_
    rw [hm, ntBank, ntBank, BitVec.extractLsb'_xor, extractLsb'_xor_of_zero _ (by decide)]

/-! ### Data -/

theorem rdDataBody_buffered {s : State} {b : Byte} (hlow : (dataAddress s.v).toNat < 0x3F00)
    (hb : s.vramRead (dataAddress s.v) = .ok b) :
    rdDataBody s = .ok { s with reply := .byte s.rbuf, rbuf := b, v := dataIncrement s.ctrl s.v } := by
  have hlt : dataAddress s.v < 0x3F00#15 := BitVec.lt_def.mpr hlow
  simp only [rdDataBody, if_pos hlt, hb]
  rfl

/-- From 0x3F00 on the reply is the palette's byte. -/
theorem rdDataBody_palette {s : State} {b : Byte} (hhigh : 0x3F00 ≤ (dataAddress s.v).toNat)
    (hb : s.vramRead (dataAddress s.v - 0x1000#15) = .ok b) : rdDataBody s = .ok { s with
      reply := .byte (s.pal.read (palIndex (dataAddress s.v))), rbuf := b, v := dataIncrement s.ctrl s.v } := by
  have hnot : ¬ dataAddress s.v < 0x3F00#15 := fun hlt => Nat.not_lt.mpr hhigh (BitVec.lt_def.mp hlt)
  have hp := translateAddress_pal s.cfg hhigh (Nat.le_of_lt_succ (BitVec.lt_def.mp (dataAddress_lt s.v)))
  simp only [rdDataBody, if_neg hnot, vramRead_of_translateAddress hp, hb]
  rfl

section
variable {s : State} (h : s.halted = false)
include h

theorem exec_rdData_buffered {b : Byte} (hlow : (dataAddress s.v).toNat < 0x3F00)
    (hb : s.vramRead (dataAddress s.v) = .ok b) :
    exec .rdData s = .next { s with rbuf := b, v := dataIncrement s.ctrl s.v, reply := .byte s.rbuf } :=
  exec_ok h (rdDataBody_buffered (s := s.noReply) hlow hb)

theorem exec_rdData_palette {b : Byte} (hhigh : 0x3F00 ≤ (dataAddress s.v).toNat)
    (hb : s.vramRead (dataAddress s.v - 0x1000#15) = .ok b) : exec .rdData s = .next { s with
      rbuf := b, v := dataIncrement s.ctrl s.v, reply := .byte (s.pal.read (palIndex (dataAddress s.v))) } :=
  exec_ok h (rdDataBody_palette (s := s.noReply) hhigh hb)

theorem exec_wrData {g : Target} (d : Byte) (hg : translateAddress s.cfg (dataAddress s.v) = .ok g) :
    exec (.wrData d) s = .next { s.noReply.writeTarget d g with v := dataIncrement s.ctrl s.v } := by
  have hw : s.noReply.vramWrite (dataAddress s.noReply.v) d = .ok (s.noReply.writeTarget d g) := by
    rw [State.vramWrite, show translateAddress s.noReply.cfg (dataAddress s.noReply.v) = .ok g from hg]
  exact exec_ok h (by rw [body, wrDataBody, hw]; rfl)

end

/-- Settles O21: the two cases of the body, each read below 0x4000. -/
theorem dataReadIsBufferedBelowThePalette : Obligations.DataReadIsBufferedBelowThePalette := by
  intro s h hm
  refine ⟨fun hlow => ?_, fun hhigh => ?_⟩
  · obtain ⟨b, hb⟩ := vramRead_ok hm (dataAddress_lt s.v)
    exact ⟨b, hb, exec_rdData_buffered h hlow hb⟩
  · have hnot : ¬ dataAddress s.v < 0x3F00#15 := fun hlt => Nat.not_lt.mpr hhigh (BitVec.lt_def.mp hlt)
    obtain ⟨b, hb⟩ := vramRead_ok hm ((dataAddress_reload_lt s.v).resolve_right hnot)
    exact ⟨b, hb, exec_rdData_palette h hhigh hb⟩

/-- Settles O22: the store at the target, read back memory by memory. -/
theorem dataWriteStoresThroughTheTranslator : Obligations.DataWriteStoresThroughTheTranslator := by
  refine ⟨fun s d h hm hnt hpal hchr => ?_, fun w _ d hslot => (decodeBus_slot7 w d hslot).2⟩
  obtain ⟨g, hg, -⟩ := translateAddress_ok hm (dataAddress_lt s.v)
  refine ⟨g, _, hg, exec_wrData h d hg, rfl, writeTarget_reply s.noReply d g, ?_,
    fun k => writeTarget_nt_read (s := s.noReply) d g k hnt, fun k => writeTarget_pal_read (s := s.noReply) d g k hpal,
    fun k => writeTarget_chr_read (s := s.noReply) d g k hchr⟩
  exact (congrArg (fun u : State => { u with v := s.v, reply := s.reply }) (writeTarget_frame s.noReply d g) :)

/-- Settles O23: both addresses have one cell, and the store is read back from it. -/
theorem paletteWriteReadsBackThroughItsMirrors : Obligations.PaletteWriteReadsBackThroughItsMirrors := by
  intro s t d a h hm hpal hhigh hwrite ha1 ha2 hsame
  have hcell : palIndex a = palIndex (dataAddress s.v) := by
    rw [palIndex_eq, palIndex_eq, toNat_dataAddress]
    split <;> split <;> omega
  have hlt := BitVec.lt_def.mp (dataAddress_lt s.v)
  have hg := translateAddress_pal s.cfg hhigh (Nat.le_of_lt_succ hlt)
  cases (exec_wrData h d hg).symm.trans hwrite
  have haddr := dataAddress_of_lt ha2
  have hhigh' : 0x3F00 ≤ (dataAddress a).toNat := haddr.symm ▸ ha1
  have hnot : ¬ dataAddress a < 0x3F00#15 := fun hlt => Nat.not_lt.mpr hhigh' (BitVec.lt_def.mp hlt)
  let t : State := { s.noReply.writeTarget d (.pal (palIndex (dataAddress s.v))) with v := a }
  obtain ⟨b, hb⟩ := vramRead_ok (s := t) hm ((dataAddress_reload_lt a).resolve_right hnot)
  refine ⟨_, exec_rdData_palette (s := t) h hhigh' hb, congrArg Reply.byte ?_⟩
  exact (writeTarget_pal_read (s := s.noReply) d (.pal (palIndex (dataAddress s.v))) _ hpal).trans
    (if_pos (congrArg Target.pal ((congrArg palIndex haddr).trans hcell).symm))

end Sys2Proof.Machine
end

section
/-!
The background fetch pipeline and the scroll arithmetic (42_background_fetch.md).
-/
namespace Sys2Proof.Machine

/-! ### Fields of a word -/

/-- Two words with the same bits in a field. -/
theorem extractLsb'_congr {n a len : Nat} {x y : BitVec n} (h : ∀ i, i < len → x.getLsbD (a + i) = y.getLsbD (a + i)) :
    x.extractLsb' a len = y.extractLsb' a len := by
  ext i hi
  rw [BitVec.getElem_extractLsb', BitVec.getElem_extractLsb', h i hi]

/-- `x` where the mask is 0, `y` where it is 1. -/
theorem select_getLsbD {n i : Nat} (x y m : BitVec n) (hi : i < n) :
    ((x &&& ~~~m) ||| (y &&& m)).getLsbD i = if m.getLsbD i then y.getLsbD i else x.getLsbD i := by
  rw [BitVec.getLsbD_or, BitVec.getLsbD_and, BitVec.getLsbD_and, BitVec.getLsbD_not]
  cases m.getLsbD i <;> simp [hi]

theorem select_extractLsb'_left {n a len : Nat} (x y m : BitVec n) (hle : a + len ≤ n)
    (h : ∀ i, i < len → m.getLsbD (a + i) = false) :
    ((x &&& ~~~m) ||| (y &&& m)).extractLsb' a len = x.extractLsb' a len :=
  extractLsb'_congr fun i hi => by rw [select_getLsbD _ _ _ (by omega), h i hi]; rfl

theorem select_extractLsb'_right {n a len : Nat} (x y m : BitVec n) (hle : a + len ≤ n)
    (h : ∀ i, i < len → m.getLsbD (a + i) = true) :
    ((x &&& ~~~m) ||| (y &&& m)).extractLsb' a len = y.extractLsb' a len :=
  extractLsb'_congr fun i hi => by rw [select_getLsbD _ _ _ (by omega), h i hi]; rfl

/-- The bits of a word outside a field put in. -/
theorem putField_getLsbD_outside {n k lo i : Nat} (r : BitVec n) (f : BitVec k) (hi : i < n) (h : i < lo ∨ lo + k ≤ i) :
    (putField r lo f).getLsbD i = r.getLsbD i :=
  (putField_getLsbD r lo f hi).trans (if_neg (by omega))

/-- A one-bit field put in. -/
theorem putField_getLsbD_bit {n i : Nat} (r : BitVec n) (f : BitVec 1) (hi : i < n) :
    (putField r i f).getLsbD i = f.getLsbD 0 := by
  rw [putField_getLsbD r i f hi, if_pos (by omega), Nat.sub_self]

theorem toNat_append_add {m n : Nat} (x : BitVec m) (y : BitVec n) :
    (x ++ y).toNat = x.toNat * 2 ^ n + y.toNat := by
  rw [BitVec.toNat_append, ← Nat.shiftLeft_add_eq_or_of_lt y.isLt, Nat.shiftLeft_eq]

/-- A computation whose first part is known. -/
theorem bind_of_ok {ε α β : Type} {a : Except ε α} {f : α → Except ε β} {x : α} (h : a = .ok x) : (a >>= f) = f x := by
  rw [h, except_bind_ok]

/-! ### FETCH_NT and FETCH_AT -/

/-- FETCH_NT's address keeps the fields below bit 12. -/
theorem ntAddress_extractLsb' (v : VAddr) {a len : Nat} (h : a + len ≤ 12) :
    (ntAddress v).extractLsb' a len = v.extractLsb' a len := by
  refine extractLsb'_congr fun i hi => ?_
  have hlow : ∀ k < 12, (0x2000#15).getLsbD k = false ∧ (0x0FFF#15).getLsbD k = true := by decide
  obtain ⟨hzero, hone⟩ := hlow (a + i) (by omega)
  rw [ntAddress, BitVec.getLsbD_or, BitVec.getLsbD_and, hzero, hone, Bool.false_or, Bool.and_true]

theorem ntAddress_block (v : VAddr) : 0x2000 ≤ (ntAddress v).toNat ∧ (ntAddress v).toNat ≤ 0x2FFF := by
  refine ntBlock_iff.mp ?_
  rw [ntAddress, BitVec.extractLsb'_or, BitVec.extractLsb'_and]
  simp

theorem translateAddress_ntAddress (c : Cfg) (v : VAddr) :
    translateAddress c (ntAddress v) = (ntBank c.mirroring (v.extractLsb' 10 2)).map
      fun bank => .nt (1024 * bank + (v.extractLsb' 0 10).toNat) := by
  obtain ⟨h1, h2⟩ := ntAddress_block v
  rw [translateAddress_nt c h1 (by omega), ntAddress_extractLsb' v (by decide), ntAddress_extractLsb' v (by decide)]

theorem exec_fetchNt {s : State} {b : Byte} (p : BitVec 1) (d : BitVec 6) (h : s.halted = false)
    (hb : s.vramRead (ntAddress s.v) = .ok b) : exec (.fetchNt p d) s = .next { s with ntLatch := b, reply := .none } :=
  exec_ok h (bind_of_ok hb)

/-- Settles O39: the address keeps the bank bits and the offset of `v`. -/
theorem nametableFetch : Obligations.NametableFetch := by
  intro s p d h hm
  obtain ⟨b, hb⟩ := vramRead_ok hm (ntAddress_lt s.v)
  have htarget := translateAddress_ntAddress s.cfg s.v
  refine ⟨b, hb, exec_fetchNt p d h hb, fun hh => ?_, fun hv => ?_⟩
  · rw [hh, ntBank, extractLsb'_of_extractLsb' _ (by decide)] at htarget
    exact Except.ok.inj (hb.symm.trans (vramRead_of_translateAddress htarget))
  · rw [hv, ntBank, extractLsb'_of_extractLsb' _ (by decide)] at htarget
    exact Except.ok.inj (hb.symm.trans (vramRead_of_translateAddress htarget))

/-- FETCH_AT's address, field by field. -/
theorem atAddress_eq_append (v : VAddr) :
    atAddress v = 0b010#3 ++ v.extractLsb' 10 2 ++ 0b1111#4 ++ v.extractLsb' 7 3 ++ v.extractLsb' 2 3 := by
  refine BitVec.eq_of_getLsbD_eq fun i hi => ?_
  simp only [atAddress, BitVec.getLsbD_append, BitVec.getLsbD_or, BitVec.getLsbD_and, BitVec.getLsbD_ushiftRight,
    BitVec.getLsbD_extractLsb']
  interval_cases i <;> simp

theorem toNat_atAddress (v : VAddr) : (atAddress v).toNat = 0x23C0 + 0x400 * (v.extractLsb' 10 2).toNat +
    8 * (v.extractLsb' 7 3).toNat + (v.extractLsb' 2 3).toNat := by
  rw [atAddress_eq_append]
  simp only [toNat_append_add, BitVec.toNat_ofNat]
  omega

theorem atShift_eq (v : VAddr) : atShift v = 4 * (v.extractLsb' 6 1).toNat + 2 * (v.extractLsb' 1 1).toNat := by
  have hfields : ((v >>> 4) &&& 0x04#15) ||| (v &&& 0x02#15) = 0#12 ++ v.extractLsb' 6 1 ++ v.extractLsb' 1 1 ++ 0#1 := by
    refine BitVec.eq_of_getLsbD_eq fun i hi => ?_
    simp only [BitVec.getLsbD_append, BitVec.getLsbD_or, BitVec.getLsbD_and, BitVec.getLsbD_ushiftRight,
      BitVec.getLsbD_extractLsb']
    interval_cases i <;> simp
  rw [atShift, hfields]
  simp only [toNat_append_add, BitVec.toNat_ofNat]
  omega

theorem atValue_eq (v : VAddr) (b : Byte) : atValue v b =
    b.extractLsb' (4 * (v.extractLsb' 6 1).toNat + 2 * (v.extractLsb' 1 1).toNat) 2 ++ 0#2 := by
  rw [atValue, atShift_eq, BitVec.setWidth_ushiftRight_eq_extractLsb]

theorem exec_fetchAt {s : State} {b : Byte} (p : BitVec 1) (d : BitVec 6) (h : s.halted = false)
    (hb : s.vramRead (atAddress s.v) = .ok b) :
    exec (.fetchAt p d) s = .next { s with atLatch := atValue s.v b, reply := .none } :=
  exec_ok h (bind_of_ok hb)

/-- Settles O40: the address and the shift as numbers. -/
theorem attributeFetch : Obligations.AttributeFetch := by
  intro s p d h hm
  obtain ⟨b, hb⟩ := vramRead_ok hm (atAddress_lt s.v)
  exact ⟨_, b, toNat_atAddress s.v, hb, atValue_eq s.v b ▸ exec_fetchAt p d h hb⟩

/-! ### FETCH_LO and FETCH_HI -/

/-- A tile row's address as a number: nothing wraps. -/
theorem toNat_patternAddress {base row : VAddr} (tile : Byte) (hb : base = 0#15 ∨ base = 0x1000#15) (hr : row.toNat < 8) :
    (patternAddress base tile row).toNat = base.toNat + 16 * tile.toNat + row.toNat := by
  have ht := tile.isLt
  rcases hb with rfl | rfl <;>
    simp only [patternAddress, BitVec.toNat_add, BitVec.toNat_mul, BitVec.toNat_setWidth, BitVec.toNat_ofNat] <;>
    omega

theorem toNat_bgPatternAddress (c n : Byte) (v : VAddr) : (bgPatternAddress c n v).toNat =
    (if c.getLsbD 4 then 0x1000 else 0) + 16 * n.toNat + (v.extractLsb' 12 3).toNat := by
  have hrow := (fineY v).isLt
  have hval : ((fineY v).setWidth 15).toNat = (v.extractLsb' 12 3).toNat :=
    (BitVec.toNat_setWidth _ _).trans (Nat.mod_eq_of_lt (by omega))
  have hbase : (bgBase c).toNat = if c.getLsbD 4 then 0x1000 else 0 := by
    unfold bgBase
    split <;> rfl
  rw [bgPatternAddress, toNat_patternAddress n (bgBase_cases c) (by omega), hval, hbase]

/-- A read in the cartridge region. -/
theorem vramRead_cart {s : State} {a : VAddr} (h : a.toNat < 0x2000) : s.vramRead a = .ok (s.chr.read a.toNat) :=
  vramRead_of_translateAddress (translateAddress_cart s.cfg h)

/-- The read 8 bytes on, of a tile row's other plane. -/
theorem vramRead_cart_plane1 {s : State} {a : VAddr} (h : a.toNat + 8 < 0x2000) :
    s.vramRead (a + 8#15) = .ok (s.chr.read (a.toNat + 8)) := by
  have hval : (a + 8#15).toNat = a.toNat + 8 := by bv_omega
  rw [vramRead_cart (by omega), hval]

/-- Settles O41: both addresses lie in the cartridge region. -/
theorem patternFetches : Obligations.PatternFetches := by
  intro s p d h
  have hlt := bgPatternAddress_lt s.ctrl s.ntLatch s.v
  have hval := toNat_bgPatternAddress s.ctrl s.ntLatch s.v
  rw [← hval]
  have hlo := vramRead_cart (s := s.noReply) (a := bgPatternAddress s.ctrl s.ntLatch s.v) (by omega)
  have hhi := vramRead_cart_plane1 (s := s.noReply) hlt
  exact ⟨exec_ok h (bind_of_ok hlo), exec_ok h (bind_of_ok hhi)⟩

/-! ### LOAD_INCX -/

theorem exec_loadIncx {s : State} (p : BitVec 1) (d : BitVec 6) (h : s.halted = false) :
    exec (.loadIncx p d) s = .next { s with
      bgbuf := mergeGroup s.bgbuf (packGroup s.atLatch s.ptLo s.ptHi), v := incX s.v, reply := .none } :=
  exec_ok h rfl

theorem mergeGroup_high (buf : BitVec 64) (g : BitVec 32) :
    (mergeGroup buf g).extractLsb' 32 32 = buf.extractLsb' 0 32 := by
  ext i hi
  rw [BitVec.getElem_extractLsb', BitVec.getElem_extractLsb', mergeGroup, BitVec.getLsbD_or, BitVec.getLsbD_shiftLeft,
    BitVec.getLsbD_setWidth, BitVec.getLsbD_of_ge g _ (Nat.le_add_right 32 i)]
  simp [show 32 + i < 64 by omega, -BitVec.getLsbD_eq_getElem]

theorem mergeGroup_low (buf : BitVec 64) (g : BitVec 32) {a len : Nat} (h : a + len ≤ 32) :
    (mergeGroup buf g).extractLsb' a len = g.extractLsb' a len := by
  refine BitVec.eq_of_getLsbD_eq fun i hi => ?_
  have hlt : a + i < 32 := by omega
  simp [mergeGroup, BitVec.getLsbD_extractLsb', hlt, show a + i < 64 by omega, -BitVec.getLsbD_eq_getElem]

/-- A nibble shifted in is the lowest one. -/
theorem pushNibble_first (g : BitVec 32) (f : BitVec 4) : ((g <<< 4) ||| f.setWidth 32).extractLsb' 0 4 = f := by
  refine BitVec.eq_of_getLsbD_eq fun i hi => ?_
  simp [BitVec.getLsbD_extractLsb', hi, show i < 32 by omega, -BitVec.getLsbD_eq_getElem]

/-- It moves every other one up a place. -/
theorem pushNibble_next (g : BitVec 32) (f : BitVec 4) {k : Nat} (h : 4 * k + 8 ≤ 32) :
    ((g <<< 4) ||| f.setWidth 32).extractLsb' (4 * (k + 1)) 4 = g.extractLsb' (4 * k) 4 := by
  refine BitVec.eq_of_getLsbD_eq fun i hi => ?_
  rw [BitVec.getLsbD_extractLsb', BitVec.getLsbD_extractLsb', BitVec.getLsbD_or, BitVec.getLsbD_shiftLeft,
    BitVec.getLsbD_setWidth, BitVec.getLsbD_of_ge f _ (by omega), show 4 * (k + 1) + i - 4 = 4 * k + i by omega]
  simp [hi, show 4 * (k + 1) + i < 32 by omega, show 4 ≤ 4 * (k + 1) + i by omega, -BitVec.getLsbD_eq_getElem]

/-- Nibbles shifted in one after the other: the one of index `j` of `n` ends `n - 1 - j` places up. -/
theorem foldl_nibbles (f : Nat → BitVec 4) {n j : Nat} (hn : n ≤ 8) (hj : j < n) :
    ((List.range n).foldl (fun (g : BitVec 32) j => (g <<< 4) ||| (f j).setWidth 32) 0#32).extractLsb'
      (4 * (n - 1 - j)) 4 = f j := by
  induction n with
  | zero => omega
  | succ n ih =>
    rw [List.range_succ, List.foldl_append]
    simp only [List.foldl_cons, List.foldl_nil]
    rcases Nat.lt_succ_iff_lt_or_eq.mp hj with hlt | rfl
    · rw [show n + 1 - 1 - j = n - 1 - j + 1 by omega, pushNibble_next _ _ (by omega), ih (by omega) hlt]
    · rw [show 4 * (j + 1 - 1 - j) = 0 by omega, pushNibble_first]

theorem packNibble_eq (at_ : BitVec 4) (lo hi : Byte) (b : Nat) :
    packNibble at_ lo hi b = at_ ||| (0#2 ++ BitVec.ofBool (hi.getLsbD b) ++ BitVec.ofBool (lo.getLsbD b)) := by
  rw [packNibble, BitVec.or_assoc]
  cases hi.getLsbD b <;> cases lo.getLsbD b <;> rfl

theorem packGroup_nibble (at_ : BitVec 4) (lo hi : Byte) {j : Nat} (hj : j < 8) :
    (packGroup at_ lo hi).extractLsb' (28 - 4 * j) 4 = packNibble at_ lo hi (7 - j) := by
  have hplace : 28 - 4 * j = 4 * (8 - 1 - j) := by omega
  rw [hplace]
  exact foldl_nibbles (fun j => packNibble at_ lo hi (7 - j)) (Nat.le_refl 8) hj

/-- Settles O42: the merge's halves, and the packed group nibble by nibble. -/
theorem loadPacksTheFetchedTile : Obligations.LoadPacksTheFetchedTile := fun s p d h =>
  ⟨_, exec_loadIncx p d h, rfl, rfl, mergeGroup_high _ _, fun j hj => by
    rw [mergeGroup_low _ _ (by omega), packGroup_nibble _ _ _ hj, packNibble_eq]⟩

/-! ### The scroll arithmetic -/

theorem incX_wrap {v : VAddr} (h : coarseX v = 31#5) :
    (incX v).extractLsb' 0 5 = 0#5 ∧ (incX v).getLsbD 10 = !v.getLsbD 10 := by
  rw [incX, if_pos h]
  refine ⟨(putField_extractLsb'_disjoint _ _ (by decide) (by decide)).trans (putField_extractLsb'_same _ _ (by decide)), ?_⟩
  rw [withNtX, putField_getLsbD_bit _ _ (by decide)]
  simp [ntX]

theorem incX_step {v : VAddr} (h : coarseX v ≠ 31#5) :
    (incX v).extractLsb' 0 5 = v.extractLsb' 0 5 + 1#5 ∧ (incX v).getLsbD 10 = v.getLsbD 10 := by
  rw [incX, if_neg h]
  exact ⟨putField_extractLsb'_same _ _ (by decide), putField_getLsbD_outside _ _ (by decide) (by decide)⟩

/-- The fields beside coarse-X and bit 10. -/
theorem incX_kept (v : VAddr) {a len : Nat} (h : a + len ≤ 15) (h5 : 5 ≤ a) (h10 : a + len ≤ 10 ∨ 11 ≤ a) :
    (incX v).extractLsb' a len = v.extractLsb' a len := by
  have hstep (f : BitVec 5) : (withCoarseX v f).extractLsb' a len = v.extractLsb' a len :=
    putField_extractLsb'_disjoint _ _ h (.inr h5)
  unfold incX
  split
  · exact (putField_extractLsb'_disjoint _ _ h h10).trans (hstep _)
  · exact hstep _

/-- Settles O43: the two cases of `IncX`. -/
theorem coarseXIncrement : Obligations.CoarseXIncrement := by
  intro s t p d h hexec
  cases (exec_loadIncx p d h).symm.trans hexec
  exact ⟨incX_wrap, incX_step, incX_kept _ (by decide) (by decide) (by decide),
    incX_kept _ (by decide) (by decide) (by decide)⟩

/-- INC_Y keeps coarse-X and bit 10, below and between the fields it writes. -/
theorem incYAddr_kept (v : VAddr) {i : Nat} (h : i < 5 ∨ i = 10) : (incYAddr v).getLsbD i = v.getLsbD i := by
  have hfine (a : VAddr) (f : BitVec 3) : (withFineY a f).getLsbD i = a.getLsbD i :=
    putField_getLsbD_outside _ _ (by omega) (by omega)
  have hcoarse (a : VAddr) (f : BitVec 5) : (withCoarseY a f).getLsbD i = a.getLsbD i :=
    putField_getLsbD_outside _ _ (by omega) (by omega)
  have hnt (a : VAddr) (f : BitVec 1) : (withNtY a f).getLsbD i = a.getLsbD i :=
    putField_getLsbD_outside _ _ (by omega) (by omega)
  unfold incYAddr
  split
  · exact hfine _ _
  · dsimp only
    split
    · rw [hnt, hcoarse, hfine]
    · split <;> rw [hcoarse, hfine]

/-- Below 7 only fine-Y counts. -/
theorem incYAddr_fine {v : VAddr} (h : fineY v ≠ 7#3) : incYAddr v = withFineY v (fineY v + 1#3) := by
  rw [incYAddr, if_pos]
  bv_omega

/-- At 7 fine-Y wraps; coarse-Y 29 wraps with a flip. -/
theorem incYAddr_wrap {v : VAddr} (h : fineY v = 7#3) (hc : coarseY v = 29#5) :
    incYAddr v = withNtY (withCoarseY (withFineY v 0#3) 0#5) (~~~ntY v) := by
  simp [incYAddr, h, hc]

/-- Any other coarse-Y goes up modulo 32. -/
theorem incYAddr_coarse {v : VAddr} (h : fineY v = 7#3) (hc : coarseY v ≠ 29#5) :
    incYAddr v = withCoarseY (withFineY v 0#3) (coarseY v + 1#5) := by
  by_cases hlast : coarseY v = 31#5
  · simp [incYAddr, h, hlast]
  · simp [incYAddr, h, hc, hlast]

theorem incYAddr_fineY (v : VAddr) : fineY (incYAddr v) = fineY v + 1#3 := by
  have hfine (a : VAddr) (f : BitVec 3) : fineY (withFineY a f) = f := putField_extractLsb'_same _ _ (by decide)
  have hcoarse (a : VAddr) (f : BitVec 5) : fineY (withCoarseY a f) = fineY a :=
    putField_extractLsb'_disjoint _ _ (by decide) (by decide)
  have hnt (a : VAddr) (f : BitVec 1) : fineY (withNtY a f) = fineY a :=
    putField_extractLsb'_disjoint _ _ (by decide) (by decide)
  by_cases h : fineY v = 7#3
  · by_cases hc : coarseY v = 29#5
    · rw [incYAddr_wrap h hc, hnt, hcoarse, hfine, h]
      rfl
    · rw [incYAddr_coarse h hc, hcoarse, hfine, h]
      rfl
  · rw [incYAddr_fine h, hfine]

/-- Settles O44: the three cases of INC_Y. -/
theorem verticalIncrement : Obligations.VerticalIncrement := by
  refine fun s p h => ⟨incYAddr s.v, exec_ok h rfl, extractLsb'_congr fun i hi => incYAddr_kept _ (by omega),
    incYAddr_kept _ (.inr rfl), incYAddr_fineY s.v, fun hf => ?_, fun hf hc => ?_, fun hf hc => ?_⟩
  · rw [incYAddr_fine hf]
    exact ⟨putField_extractLsb'_disjoint _ _ (by decide) (by decide), putField_getLsbD_outside _ _ (by decide) (by decide)⟩
  · rw [incYAddr_wrap hf hc, withNtY, putField_getLsbD_bit _ _ (by decide),
      putField_extractLsb'_disjoint _ _ (by decide) (by decide)]
    exact ⟨putField_extractLsb'_same _ _ (by decide), by simp [ntY]⟩
  · rw [incYAddr_coarse hf hc, withCoarseY, putField_getLsbD_outside _ _ (by decide) (by decide)]
    exact ⟨putField_extractLsb'_same _ _ (by decide), putField_getLsbD_outside _ _ (by decide) (by decide)⟩

/-- Settles O45: the masks select the fields. -/
theorem scrollCopies : Obligations.ScrollCopies := by
  refine ⟨fun s p h => ⟨copyHAddr s.v s.t, exec_ok h rfl, ?_, ?_, ?_, ?_⟩,
    fun s d h => ⟨copyVAddr s.v s.t, exec_ok h rfl, ?_, ?_, ?_, ?_⟩⟩
  · exact select_extractLsb'_right _ _ _ (by decide) (by decide)
  · exact select_getLsbD _ _ _ (by decide)
  · exact select_extractLsb'_left _ _ _ (by decide) (by decide)
  · exact select_extractLsb'_left _ _ _ (by decide) (by decide)
  · exact select_extractLsb'_left _ _ _ (by decide) (by decide)
  · exact select_getLsbD _ _ _ (by decide)
  · exact select_extractLsb'_right _ _ _ (by decide) (by decide)
  · exact select_extractLsb'_right _ _ _ (by decide) (by decide)

end Sys2Proof.Machine
end

section
/-!
SPR_EVAL (43_sprite_evaluator.md): what the fill leaves in the secondary table, slot by slot, and the slot-0 flag.
-/
namespace Sys2Proof.Machine

/-! ### The bytes the fill leaves (R244) -/

section
variable {oam sec : Memory} {row left i n : Nat} (slot0 : Bool)

/-- The filled slots stay. -/
theorem fillScan_read_below {a : Nat} (hwf : Memory.wf 32 sec = true) (hn : n ≤ 8) (ha : a < 4 * n) :
    (fillScan oam row left i n sec slot0).sec.read a = sec.read a := by
  induction left generalizing i n sec slot0 with
  | zero => rfl
  | succ left ih =>
    obtain rfl | hlt := Nat.eq_or_lt_of_le hn
    · rw [fillScan_full]
    · by_cases h : inRange row (oam.read (4 * i)) = true
      · rw [fillScan_of_inRange left sec slot0 hlt h, ih _ (copyEntry_wf hwf hlt) hlt (by omega),
          copyEntry_read hwf hlt, if_neg (by omega)]
      · rw [fillScan_of_not_inRange left sec slot0 hlt h, ih _ (Memory.wf_write _ hwf (by omega)) hn ha,
          Memory.read_write_other _ hwf (by omega)]

/-- The slot `k` places on holds the entry of match number `k`, whole. -/
theorem fillScan_read_match {k j : Nat} (hwf : Memory.wf 32 sec = true) (hn : n + k < 8)
    (hk : k < (matchesFrom oam row left i).length) (hj : j < 4) :
    (fillScan oam row left i n sec slot0).sec.read (4 * (n + k) + j) =
      oam.read (4 * (matchesFrom oam row left i).getD k 0 + j) := by
  induction left generalizing i n k sec slot0 with
  | zero => exact absurd hk (Nat.not_lt_zero k)
  | succ left ih =>
    have hlt : n < 8 := by omega
    by_cases h : inRange row (oam.read (4 * i)) = true
    · rw [matchesFrom_of_inRange left h] at hk ⊢
      rw [fillScan_of_inRange left sec slot0 hlt h]
      cases k with
      | zero =>
        rw [fillScan_read_below (a := 4 * (n + 0) + j) _ (copyEntry_wf hwf hlt) hlt (by omega),
          copyEntry_read hwf hlt, if_pos (by omega),
          List.getD_cons_zero, Nat.add_zero, Nat.add_sub_cancel_left]
      | succ k =>
        rw [List.getD_cons_succ, ← ih (n := n + 1) _ (copyEntry_wf hwf hlt) (by omega) (Nat.lt_of_succ_lt_succ hk),
          Nat.succ_add_eq_add_succ]
    · rw [matchesFrom_of_not_inRange left h] at hk ⊢
      rw [fillScan_of_not_inRange left sec slot0 hlt h, ih _ (Memory.wf_write _ hwf (by omega)) hn hk]

/-- Beyond the first byte of the slot after the last match, cleared bytes stay cleared. -/
theorem fillScan_read_above {a : Nat} (hwf : Memory.wf 32 sec = true)
    (hclear : ∀ a, 4 * n < a → a < 32 → sec.read a = 0xFF#8) (hroom : n + (matchesFrom oam row left i).length < 8)
    (hlow : 4 * (n + (matchesFrom oam row left i).length) < a) (ha : a < 32) :
    (fillScan oam row left i n sec slot0).sec.read a = 0xFF#8 := by
  induction left generalizing i n sec slot0 with
  | zero => exact hclear a hlow ha
  | succ left ih =>
    have hlt : n < 8 := by omega
    by_cases h : inRange row (oam.read (4 * i)) = true
    · rw [matchesFrom_of_inRange left h, List.length_cons] at hroom hlow
      rw [fillScan_of_inRange left sec slot0 hlt h]
      refine ih _ (copyEntry_wf hwf hlt) (fun a hl hu => ?_) (by omega) (by omega)
      rw [copyEntry_read hwf hlt, if_neg (by omega), hclear a (by omega) hu]
    · rw [matchesFrom_of_not_inRange left h] at hroom hlow
      rw [fillScan_of_not_inRange left sec slot0 hlt h]
      refine ih _ (Memory.wf_write _ hwf (by omega)) (fun a hl hu => ?_) hroom hlow
      rw [Memory.read_write_other _ hwf (by omega), hclear a hl hu]

/-- That byte is the Y byte of the last entry, if that one is out of range. -/
theorem fillScan_read_next (hwf : Memory.wf 32 sec = true) (hclear : ∀ a, 4 * n < a → a < 32 → sec.read a = 0xFF#8)
    (hroom : n + (matchesFrom oam row (left + 1) i).length < 8) :
    (fillScan oam row (left + 1) i n sec slot0).sec.read (4 * (n + (matchesFrom oam row (left + 1) i).length)) =
      if inRange row (oam.read (4 * (i + left))) = true then 0xFF#8 else oam.read (4 * (i + left)) := by
  induction left generalizing i n sec slot0 with
  | zero =>
    have hlt : n < 8 := by omega
    by_cases h : inRange row (oam.read (4 * i)) = true
    · rw [matchesFrom_of_inRange 0 h, List.length_cons] at hroom ⊢
      rw [fillScan_of_inRange 0 sec slot0 hlt h, Nat.add_zero i, if_pos h]
      show (copyEntry oam i n sec).read _ = _
      rw [copyEntry_read hwf hlt, if_neg (by omega), hclear _ (by omega) (by omega)]
    · rw [matchesFrom_of_not_inRange 0 h, fillScan_of_not_inRange 0 sec slot0 hlt h, Nat.add_zero i, if_neg h]
      exact Memory.read_write_same _ hwf
  | succ left ih =>
    have hlt : n < 8 := by omega
    rw [← Nat.succ_add_eq_add_succ i]
    by_cases h : inRange row (oam.read (4 * i)) = true
    · rw [matchesFrom_of_inRange _ h, List.length_cons, ← Nat.succ_add_eq_add_succ n] at hroom ⊢
      rw [fillScan_of_inRange _ sec slot0 hlt h]
      refine ih _ (copyEntry_wf hwf hlt) (fun a hl hu => ?_) hroom
      rw [copyEntry_read hwf hlt, if_neg (by omega), hclear a (by omega) hu]
    · rw [matchesFrom_of_not_inRange _ h] at hroom ⊢
      rw [fillScan_of_not_inRange _ sec slot0 hlt h]
      refine ih _ (Memory.wf_write _ hwf (by omega)) (fun a hl hu => ?_) hroom
      rw [Memory.read_write_other _ hwf (by omega), hclear a hl hu]

/-- Entries from 1 on leave the slot-0 flag. -/
theorem fillScan_slot0 (hi : 0 < i) : (fillScan oam row left i n sec slot0).slot0 = slot0 := by
  induction left generalizing i n sec slot0 with
  | zero => rfl
  | succ left ih =>
    by_cases hlt : n < 8
    · by_cases h : inRange row (oam.read (4 * i)) = true
      · rw [fillScan_of_inRange left sec slot0 hlt h, ih _ (Nat.succ_pos i), decide_eq_false (Nat.ne_of_gt hi),
          Bool.or_false]
      · rw [fillScan_of_not_inRange left sec slot0 hlt h, ih _ (Nat.succ_pos i)]
    · rw [fillScan, if_neg hlt]

end

/-! ### The whole evaluation -/

section
variable (oam : Memory) (row : Nat)

theorem evalFill_read_match {k j : Nat} (h8 : k < 8) (hk : k < (matchesFrom oam row 64 0).length) (hj : j < 4) :
    (evalFill oam row).sec.read (4 * k + j) = oam.read (4 * (matchesFrom oam row 64 0).getD k 0 + j) := by
  have hread := fillScan_read_match (n := 0) false clearedSec_wf (by omega) hk hj
  rwa [Nat.zero_add] at hread

theorem evalFill_read_above {a : Nat} (hroom : (matchesFrom oam row 64 0).length < 8)
    (hlow : 4 * (matchesFrom oam row 64 0).length < a) (ha : a < 32) : (evalFill oam row).sec.read a = 0xFF#8 :=
  fillScan_read_above false clearedSec_wf (fun _ _ hu => clearedSec_read hu) (by omega) (by omega) ha

theorem evalFill_read_next (hroom : (matchesFrom oam row 64 0).length < 8) :
    (evalFill oam row).sec.read (4 * (matchesFrom oam row 64 0).length) =
      if inRange row (oam.read 252) = true then 0xFF#8 else oam.read 252 := by
  have hread := fillScan_read_next (n := 0) (left := 63) (i := 0) (oam := oam) (row := row) false clearedSec_wf
    (fun _ _ hu => clearedSec_read hu) (by rwa [Nat.zero_add])
  rwa [Nat.zero_add] at hread

/-- The slot-0 flag says whether primary sprite 0 is the first match. -/
theorem evalFill_slot0 : (evalFill oam row).slot0 = decide ((matchesFrom oam row 64 0).head? = some 0) := by
  by_cases h : inRange row (oam.read (4 * 0)) = true
  · rw [evalFill, fillScan_of_inRange 63 _ _ (by decide) h, fillScan_slot0 _ Nat.one_pos, matchesFrom_of_inRange 63 h]
    rfl
  · have hhead : (matchesFrom oam row 63 1).head? ≠ some 0 := fun hz => by
      have hmem := List.mem_range'_1.mp (List.mem_filter.mp (List.mem_of_head? hz)).1
      omega
    rw [evalFill, fillScan_of_not_inRange 63 _ _ (by decide) h, fillScan_slot0 _ Nat.one_pos,
      matchesFrom_of_not_inRange 63 h, decide_eq_false hhead]

theorem mem_matchesFrom_last : 63 ∈ matchesFrom oam row 64 0 ↔ inRange row (oam.read 252) = true := by
  rw [matchesFrom, List.mem_filter, List.mem_range'_1]
  exact and_iff_right (by decide)

/-- The match of a number below their count is in range. -/
theorem matchesFrom_getD_inRange {k : Nat} (hk : k < (matchesFrom oam row 64 0).length) :
    inRange row (oam.read (4 * (matchesFrom oam row 64 0).getD k 0)) = true := by
  rw [List.getD_eq_getElem _ _ hk]
  exact (List.mem_filter.mp (List.getElem_mem hk)).2

/-- A target row, at most 240, meets no 0xFF byte. -/
theorem not_inRange_cleared {row : Nat} (h : row ≤ 240) : ¬ inRange row 0xFF#8 = true := by
  rw [inRange_iff]
  have hval : (0xFF#8).toNat = 255 := rfl
  omega

/-- The slots in range are the filled ones (R246). -/
theorem evalFill_slot_inRange_iff {k : Nat} (hrow : row ≤ 240) (hk : k < 8) :
    inRange row ((evalFill oam row).sec.read (4 * k)) = true ↔ k < min 8 (matchesFrom oam row 64 0).length := by
  rcases Nat.lt_trichotomy k (matchesFrom oam row 64 0).length with hlt | heq | hgt
  · have hread := evalFill_read_match oam row hk hlt (j := 0) (by decide)
    exact iff_of_true (hread ▸ matchesFrom_getD_inRange oam row hlt) (by omega)
  · refine iff_of_false ?_ (by omega)
    rw [heq, evalFill_read_next oam row (by omega)]
    split
    · exact not_inRange_cleared hrow
    · assumption
  · refine iff_of_false ?_ (by omega)
    rw [evalFill_read_above oam row (by omega) (by omega) (by omega)]
    exact not_inRange_cleared hrow

end

/-- The target row of a rendering scanline is at most the number of visible lines. -/
theorem targetRow_le {line v lines : Nat} (h : line ≤ v + lines) (h240 : lines ≤ 240) :
    (if line = v then 0 else line - (v + 1) + 1) ≤ 240 := by
  split <;> omega

/-! ### The statements -/

/-- Settles O46: the fill's four facts, for the target row of the position. -/
theorem evaluationSelectsTheFirstEight : Obligations.EvaluationSelectsTheFirstEight := by
  intro s p h hlo hhi row
  have hrow : s.targetRow = .ok row := targetRow_of_rendering hlo hhi
  refine ⟨hrow, ?_⟩
  intro hits
  have hhits : hits = matchesFrom s.oam row 64 0 := (matchesFrom_whole s.oam row).symm
  rw [hhits]
  refine ⟨_, exec_sprEval p h hrow, rfl, rfl, fun k j hk hj => evalFill_read_match _ _ (by omega) (by omega) hj,
    fun hroom => ⟨?_, fun a hlow ha => evalFill_read_above _ _ hroom hlow ha⟩, evalFill_slot0 _ _⟩
  simp only [mem_matchesFrom_last]
  exact evalFill_read_next _ _ hroom

/-- Settles O48: the number of slots filled, and the slots in range. -/
theorem filledSlotsAreTheOnesInRange : Obligations.FilledSlotsAreTheOnesInRange := by
  intro s t p h hlo hhi hlines hexec row hits
  have hrow : s.targetRow = .ok row := targetRow_of_rendering hlo hhi
  cases (exec_sprEval p h hrow).symm.trans hexec
  have hhits : hits = matchesFrom s.oam row 64 0 := (matchesFrom_whole s.oam row).symm
  rw [hhits]
  have hle : row ≤ 240 := targetRow_le hhi hlines
  exact ⟨evalFill_n _ _, fun k hk => inRange_iff.symm.trans (evalFill_slot_inRange_iff _ _ hle hk)⟩

end Sys2Proof.Machine
end

section
/-!
PIXEL (44_pixel_compositor.md): the sprite pixel, the palette index chosen and the cell it names.
-/
namespace Sys2Proof.Machine

/-! ### A slot's colour (R263) -/

theorem toNat_slotAddress {s : State} {k row : Nat} (hr : row - (s.sec.read (4 * k)).toNat < 8) :
    (slotAddress s k row).toNat = (if s.ctrl.getLsbD 3 then 0x1000 else 0) + 16 * (s.sec.read (4 * k + 1)).toNat +
      flipped (attrVflip (s.sec.read (4 * k + 2))) (row - (s.sec.read (4 * k)).toNat) := by
  have hflip := flipped_lt (attrVflip (s.sec.read (4 * k + 2))) hr
  have hval := BitVec.toNat_ofNat (flipped (attrVflip (s.sec.read (4 * k + 2))) (row - (s.sec.read (4 * k)).toNat)) 15
  rw [Nat.mod_eq_of_lt (by omega)] at hval
  have hbase : (spriteBase s.ctrl).toNat = if s.ctrl.getLsbD 3 then 0x1000 else 0 := by
    unfold spriteBase
    split <;> rfl
  rw [slotAddress, toNat_patternAddress _ (spriteBase_cases _) (by omega), hbase, hval]

/-- Both plane bytes come from the cartridge. -/
theorem slotColour_eq {s : State} {k col row : Nat} (h : slotActive s.sec k col row = true) :
    slotColour s k col row = .ok (planeColour (s.chr.read (slotAddress s k row).toNat)
      (s.chr.read ((slotAddress s k row).toNat + 8))
      (flipped (attrHflip (s.sec.read (4 * k + 2))) (col - (s.sec.read (4 * k + 3)).toNat))) := by
  have hlt := slotAddress_lt h
  rw [slotColour, bind_of_ok (vramRead_cart (by omega)), bind_of_ok (vramRead_cart_plane1 hlt)]

/-- Settles O51: the slot's address as a number, below the end of the cartridge region. -/
theorem spriteColourComesFromItsTile : Obligations.SpriteColourComesFromItsTile := by
  intro s k col row hy1 hy2 hx1 hx2 attr r c r' c' a
  have haddr : (slotAddress s k row).toNat = a := toNat_slotAddress (by omega)
  rw [slotColour_eq (slotActive_iff.mpr ⟨⟨hy1, hy2⟩, hx1, hx2⟩), haddr]
  rfl

/-! ### The search (R264) -/

/-- Slot `k` shows the colour `c`, not the transparent one, at a column and a row. -/
def OpaqueSlot (s : State) (col row k : Nat) (c : BitVec 2) : Prop :=
  slotActive s.sec k col row = true ∧ slotColour s k col row = .ok c ∧ c ≠ 0#2

/-- No slot searched before the one found is opaque; none at all where none is found. -/
theorem spriteScan_first {s : State} {col row left k j : Nat} {found : Option SpritePixel} (c : BitVec 2)
    (h : spriteScan s col row left k = .ok found) (hj : k ≤ j)
    (hbefore : j < found.elim (k + left) SpritePixel.slot) : ¬ OpaqueSlot s col row j c := by
  induction left generalizing k with
  | zero =>
    cases h
    exact absurd hbefore (Nat.not_lt.mpr hj)
  | succ left ih =>
    rw [← Nat.succ_add_eq_add_succ] at hbefore
    obtain rfl | hlater := Nat.eq_or_lt_of_le hj
    · rintro ⟨hactive, hcolour, hne⟩
      rw [spriteScan, if_pos hactive, bind_of_ok hcolour, if_pos hne] at h
      cases h
      exact Nat.lt_irrefl _ hbefore
    · rw [spriteScan] at h
      split at h
      next =>
        obtain ⟨c', -, h⟩ := bind_eq_ok h
        split at h
        next => cases h; exact absurd hbefore (Nat.not_lt.mpr hj)
        next => exact ih h hlater hbefore
      next => exact ih h hlater hbefore

theorem spritePixel_of_off {s : State} {col row : Nat}
    (h : s.mask.getLsbD 4 = false ∨ (col < 8 ∧ s.mask.getLsbD 2 = false)) : spritePixel s col row = .ok none :=
  if_pos (h.imp_right (And.imp_right fun hclip => by rw [sprClip, hclip]; rfl))

theorem spritePixel_of_on {s : State} {col row : Nat} (h : s.mask.getLsbD 4 = true)
    (hclip : col < 8 → s.mask.getLsbD 2 = true) : spritePixel s col row = spriteScan s col row 8 0 := by
  refine if_neg ?_
  rintro (hoff | ⟨hcol, hoff⟩)
  · exact Bool.noConfusion (h.symm.trans hoff)
  · rw [sprClip, hclip hcol] at hoff
    cases hoff

/-- Settles O50: what the search finds, and that nothing before it is opaque. -/
theorem firstOpaqueSlotWins : Obligations.FirstOpaqueSlotWins := by
  intro s col row hm opaqueAt
  have hopaque (k : Nat) (c : BitVec 2) : opaqueAt k c ↔ OpaqueSlot s col row k c := by
    rw [OpaqueSlot, slotActive_iff, and_assoc]
  simp only [hopaque]
  refine ⟨spritePixel_of_off, fun hon hclip => ?_⟩
  rw [spritePixel_of_on hon hclip]
  obtain ⟨found, hfound⟩ := spriteScan_ok hm col row 8 0
  have hfirst (j : Nat) (hbefore : j < found.elim 8 SpritePixel.slot) (c : BitVec 2) : ¬ OpaqueSlot s col row j c :=
    spriteScan_first c hfound (Nat.zero_le j) (by rwa [Nat.zero_add])
  cases found with
  | none => exact .inl ⟨hfound, hfirst⟩
  | some q =>
    obtain ⟨-, hslot, hactive, hcolour, hne, hattr⟩ := spriteScan_some hfound
    exact .inr ⟨q, hfound, by omega, ⟨hactive, hcolour, hne⟩, hattr, hfirst⟩

/-- The colour of a sprite pixel is never the transparent one. -/
theorem spritePixel_colour {s : State} {col row : Nat} {q : SpritePixel} (h : spritePixel s col row = .ok (some q)) :
    q.colour ≠ 0#2 := by
  unfold spritePixel at h
  split at h
  next => cases h
  next =>
    obtain ⟨-, -, -, -, hne, -⟩ := spriteScan_some h
    exact hne

/-! ### The choice (R265) and the cell it names (R73) -/

/-- The background nibble from the bits of Mask (R261). -/
theorem bgNibble_eq (s : State) (col : Nat) : bgNibble s col =
    if s.mask.getLsbD 3 = false ∨ (col < 8 ∧ s.mask.getLsbD 1 = false) then 0#4
    else s.bgbuf.extractLsb' (60 - 4 * (col % 8 + s.x.toNat)) 4 := by
  have hclip : bgClip s.mask = true ↔ s.mask.getLsbD 1 = false := Bool.not_eq_true' _ ▸ Iff.rfl
  exact if_congr (or_congr Iff.rfl (and_congr Iff.rfl hclip)) rfl rfl

theorem zero_append_eq_setWidth (bg : BitVec 4) : 0#1 ++ bg = bg.setWidth 5 := by
  have hlt := bg.isLt
  refine BitVec.eq_of_toNat_eq ?_
  rw [toNat_append_add, BitVec.toNat_setWidth, Nat.mod_eq_of_lt (by omega), BitVec.toNat_ofNat]
  omega

/-- The table of the priority: the sprite shows over a transparent background or with its priority bit 0. -/
theorem muxIndex_eq (bg : BitVec 4) (sp : Option SpritePixel) : muxIndex bg sp = match sp with
    | none => if bg.extractLsb' 0 2 = 0#2 then 0#5 else bg.setWidth 5
    | some q => if bg.extractLsb' 0 2 = 0#2 ∨ q.attr.getLsbD 5 = false then 1#1 ++ q.attr.extractLsb' 0 2 ++ q.colour
      else bg.setWidth 5 := by
  cases sp with
  | none => simp only [muxIndex, zero_append_eq_setWidth]
  | some q =>
    by_cases hbg : bg.extractLsb' 0 2 = 0#2
    · simp only [muxIndex, hbg, if_true, true_or, SpritePixel.index, attrPalette]
    · cases hq : q.attr.getLsbD 5
      · simp only [muxIndex, hbg, if_false, attrBehind, hq, Bool.false_eq_true, or_true, if_true, SpritePixel.index,
          attrPalette]
      · simp only [muxIndex, hbg, if_false, attrBehind, hq, or_self, if_true, Bool.true_eq_false,
          zero_append_eq_setWidth]

theorem toNat_paletteAddress (i : BitVec 5) : (paletteAddress i).toNat = 0x3F00 + i.toNat := by
  have hi := i.isLt
  have hval : (i.setWidth 15).toNat = i.toNat := (BitVec.toNat_setWidth _ _).trans (Nat.mod_eq_of_lt (by omega))
  rw [paletteAddress, BitVec.toNat_or, hval]
  exact (Nat.two_pow_add_eq_or_of_lt hi 504).symm

/-- The read of a palette index: past the four aliases, the cell of that number. -/
theorem vramRead_paletteAddress {s : State} {i : BitVec 5} (h : i.toNat < 16 ∨ i.toNat % 4 ≠ 0) :
    s.vramRead (paletteAddress i) = .ok (s.pal.read i.toNat) := by
  have hi := i.isLt
  have haddr := toNat_paletteAddress i
  have hcell : palIndex (paletteAddress i) = i.toNat := by
    rw [palIndex_eq, haddr]
    split <;> omega
  rw [vramRead_of_translateAddress (translateAddress_pal s.cfg (by omega) (by omega)), hcell]
  rfl

theorem toNat_backgroundIndex_lt (bg : BitVec 4) : (bg.setWidth 5).toNat < 16 := by
  have hlt := bg.isLt
  rw [BitVec.toNat_setWidth, Nat.mod_eq_of_lt (by omega)]
  exact hlt

/-- The low two bits of a sprite's index are its colour. -/
theorem toNat_spriteIndex_mod (p : BitVec 3) {c : BitVec 2} (h : c ≠ 0#2) : (p ++ c).toNat % 4 ≠ 0 := by
  have hlt := c.isLt
  have hpos : c.toNat ≠ 0 := fun hz => h (BitVec.eq_of_toNat_eq hz)
  rw [toNat_append_add]
  omega

/-- The index chosen names its own cell: a background index is below 16, a sprite's colour is not 0. -/
theorem muxIndex_own_cell (bg : BitVec 4) {sp : Option SpritePixel} (h : ∀ q, sp = some q → q.colour ≠ 0#2) :
    (muxIndex bg sp).toNat < 16 ∨ (muxIndex bg sp).toNat % 4 ≠ 0 := by
  rw [muxIndex_eq]
  split
  next =>
    split
    · exact .inl (by decide)
    · exact .inl (toNat_backgroundIndex_lt bg)
  next q =>
    split
    · exact .inr (toNat_spriteIndex_mod _ (h q rfl))
    · exact .inl (toNat_backgroundIndex_lt bg)

/-! ### PIXEL while not halted (R260) -/

theorem spriteScan_noReply (s : State) (col row left k : Nat) :
    spriteScan s.noReply col row left k = spriteScan s col row left k := by
  induction left generalizing k with
  | zero => rfl
  | succ left ih =>
    rw [spriteScan, spriteScan, ih]
    rfl

theorem spritePixel_noReply (s : State) (col row : Nat) : spritePixel s.noReply col row = spritePixel s col row := by
  rw [spritePixel, spriteScan_noReply]
  rfl

/-- PIXEL at the dot of a column on a visible scanline. -/
theorem exec_pixel {s : State} {d : BitVec 9} {row : Nat} {sp : Option SpritePixel} (h : s.halted = false)
    (hd1 : 1 ≤ d.toNat) (hd2 : d.toNat ≤ 256) (hrow : s.screenRow = .ok row)
    (hsp : spritePixel s (d.toNat - 1) row = .ok sp) : exec (.pixel d) s = .next { s with
      sprite0Hit := muxHit s.sprite0Hit s.slot0IsSprite0 (bgNibble s (d.toNat - 1)) sp
      fb := s.fb.write row (d.toNat - 1)
        (lutColour s.cfg (s.pal.read (muxIndex (bgNibble s (d.toNat - 1)) sp).toNat))
      reply := .none } := by
  have hcolour (q : SpritePixel) (hq : sp = some q) : q.colour ≠ 0#2 := spritePixel_colour (hq ▸ hsp)
  exact exec_ok h (pixelBody_ok (s := s.noReply) (pixelDot_iff.mpr ⟨hd1, hd2⟩) hrow
    ((spritePixel_noReply _ _ _).trans hsp) (vramRead_paletteAddress (muxIndex_own_cell _ hcolour)))

theorem screenRow_of_visible {s : State} (h1 : s.cfg.vblankLines < s.scanline)
    (h2 : s.scanline ≤ s.cfg.vblankLines + s.cfg.visibleLines) :
    s.screenRow = .ok (s.scanline - (s.cfg.vblankLines + 1)) := screenRow_visible (phaseOf_visible.mpr ⟨h1, h2⟩)

/-- Settles O49: the pixel written is that of the index chosen, read back from the frame buffer. -/
theorem pixelWritesTheWinningColour : Obligations.PixelWritesTheWinningColour := by
  intro s d h hm hfb hd1 hd2 hline1 hline2 col row bg
  obtain ⟨sp, hsp⟩ := spritePixel_ok hm col row
  have hbg : bgNibble s col = bg := bgNibble_eq s col
  refine ⟨sp, _, hsp, exec_pixel h hd1 hd2 (screenRow_of_visible hline1 hline2) hsp, rfl, rfl, ?_⟩
  intro idx y x
  have hidx : muxIndex (bgNibble s (d.toNat - 1)) sp = idx := by
    rw [hbg]
    exact muxIndex_eq bg sp
  rw [hidx]
  exact Frame.read_write row col y x _ hfb

/-- Settles O52: the hit is `muxHit`'s. -/
theorem spriteZeroHit : Obligations.SpriteZeroHit := by
  intro s t d row sp h hrow hd1 hd2 hsp _ hexec
  cases (exec_pixel h hd1 hd2 hrow hsp).symm.trans hexec
  exact muxHit_iff

/-- Settles O53: no background, no sprite, so index 0. -/
theorem disabledRenderingShowsTheUniversalColour : Obligations.DisabledRenderingShowsTheUniversalColour := by
  intro s d h hbg hspr hd1 hd2 hline1 hline2
  rw [exec_pixel h hd1 hd2 (screenRow_of_visible hline1 hline2) (spritePixel_of_disabled _ _ hspr),
    bgNibble_of_disabled _ hbg]
  rfl

end Sys2Proof.Machine
end
